-- ==== Sys2Proof/Word.lean ====
section
/-!
DEFINITION. The words of the transceiver block: 8-, 16- and 32-bit unsigned values (00_scope.md R8, R9).
All arithmetic of the block is on `BitVec`s of these widths or on `Nat` counters.
-/

namespace Sys2Proof

/-- A byte (R9). -/
abbrev Byte := BitVec 8

/-- A 16-bit value: the running CRC (R100). -/
abbrev Half := BitVec 16

/-- A 32-bit host word or peer register value (R18, R40). -/
abbrev Word := BitVec 32

end Sys2Proof
end

