-- ==== Sys2Proof/Config.lean ====
section
/-!
DEFINITION. What the implementation fixes, and what the spec leaves free.

* The constants of 00_scope.md R7 that the source or the spec fixes are numerals.
* The OPEN parameters of R7 (93_implementation_defined.md, treatment `parameter`) are the fields of `Params`. The
  machine carries one `Params` in its state, no step changes it, and every statement over all states is a statement
  about all its values. The field defaults are the defaults R7 gives (PRESUMED, log entry 8).
* The free values (treatment `any value`) are `opaque` constants without a body: nothing can be proved of their
  values.
-/

namespace Sys2Proof.Config

/-- R7: registry capacity; target numbers are 1..14. -/
def nTargets : Nat := 14

/-- R7: bytes a `sendData` frame holds at most. -/
def maxSend : Nat := 260

/-- R7: bytes a `readData` frame holds at most; the size of `FRAME`. -/
def maxRead : Nat := 508

/-- R7: `MAX_TX_PAYLOAD`, the out length limit of a `TRANSCEIVE` to a target 1..255 (R107). -/
def maxTxPayload : Nat := 258

/-- R7: `TXBUF_SIZE` and `RXBUF_SIZE`. -/
def bufSize : Nat := 1024

/-- R7: `BUSY_BUDGET_MS`, the budget of the waits of handshake steps 1 and 6. -/
def busyBudgetMs : Nat := 2000

/-- R7: `T_LATCH_MS`, the budget of the wait of handshake step 5. -/
def latchMs : Nat := 2000

/-- R7: `POLL_MS`, the delay between receive-status polls. -/
def pollMs : Nat := 1

/-- R7: `RETRY_MAX`, the retry budget of one exchange (R122). -/
def retryMax : Nat := 5

/-- R7: `FILLER`, the byte sent for each byte read. -/
def filler : Byte := 0xFF#8

/-- R7: `CRC_A_SEED`. -/
def crcASeed : Half := 0x6363#16

/-- R7: `CRC_B_SEED`. -/
def crcBSeed : Half := 0xFFFF#16

/-- R18: window offset of `TXBUF[0]`. -/
def txBase : Nat := 0x400

/-- R18: window offset of `RXBUF[0]`. -/
def rxBase : Nat := 0x800

/-- R76: how a transport frame with read bytes maps onto select windows. -/
inductive ReadFraming where
  | singleWindow
  | splitWindows
  deriving DecidableEq, Repr

/-- R42: the bit order on the SPI bus. -/
inductive BitOrder where
  | msbFirst
  | lsbFirst
  deriving DecidableEq, Repr

/-- The OPEN parameters of R7, with R7's defaults. `F_SCLK`, `F_CLK` and `BUSY_SAMPLE_US` have no default in the
spec; they are `none` until a platform gives them and no rule depends on them. -/
structure Params where
  /-- `OP_WRITE_REG` -/
  opWriteReg : Byte := 0x00#8
  /-- `OP_WRITE_REG_OR` -/
  opWriteRegOr : Byte := 0x01#8
  /-- `OP_WRITE_REG_AND` -/
  opWriteRegAnd : Byte := 0x02#8
  /-- `OP_READ_REG` -/
  opReadReg : Byte := 0x04#8
  /-- `OP_SEND_DATA` -/
  opSendData : Byte := 0x09#8
  /-- `OP_READ_DATA` -/
  opReadData : Byte := 0x0A#8
  /-- `READ_DATA_ARG` -/
  readDataArg : Byte := 0x00#8
  /-- `ADDR_RX_STATUS` -/
  addrRxStatus : Byte := 0x13#8
  /-- `AUTH_OPCODES` -/
  authOpcodes : List Byte := [0x60#8, 0x61#8]
  /-- `READ_FRAMING` -/
  readFraming : ReadFraming := .singleWindow
  /-- `T_SETTLE_US` -/
  settleUs : Nat := 2000
  /-- `SEL_ACTIVE_LEVEL`: the electrical level of an asserted select (`false` is low) -/
  selActiveLevel : Bool := false
  /-- `BUSY_ACTIVE_LEVEL`: the electrical level of an asserted busy (`true` is high) -/
  busyActiveLevel : Bool := true
  /-- `SPI_MODE` -/
  spiMode : Fin 4 := 0
  /-- `BIT_ORDER` -/
  bitOrder : BitOrder := .msbFirst
  /-- `F_SCLK`, in Hz -/
  fSclk : Option Nat := none
  /-- `F_CLK`, in Hz -/
  fClk : Option Nat := none
  /-- `BUSY_SAMPLE_US` -/
  busySampleUs : Option Nat := none
  deriving DecidableEq, Repr

/-- Free value (R14, U15): the outcome of a `WaitBusy` for which the environment has supplied none (`true` is ok).
Log entry 3. -/
opaque busyDraw : Nat → Bool

/-- Free value (R14, U15): the MISO byte of a filler exchange for which the environment has supplied none.
Log entry 3. -/
opaque misoDraw : Nat → BitVec 8

/-- Free value (R15, R153, U16): by how many µs a step takes longer than its stated minimum, which is 0 where no rule
states one. Log entry 4. -/
opaque timeDraw : Nat → Nat

/-- Free value (U10): what a byte of `TXBUF` or `RXBUF`, by reset epoch and window offset, holds from that reset
until it is written. Log entry 5. -/
opaque unwritten : Nat → Nat → BitVec 8

/-- Free value (R29, R156): what a byte of `FRAME`, by reset epoch and index, holds from that reset until it is
written. Log entry 5. -/
opaque unwrittenFrame : Nat → Nat → BitVec 8

/-- Free value (R26, U12): the word a host read of `RXBUF` returns while `BUSY` = 1. Log entry 6. -/
opaque rxBusyRead : Nat → BitVec 32

end Sys2Proof.Config
end

