-- ==== Sys2Proof/Syntax.lean ====
section
/-!
DEFINITION. The encoded interfaces of the block as data: the host commands and the protocol control bytes
(`Instr`, one constructor per row of opcode_table.json), and the host-port transactions (30_encoding.md).
-/

namespace Sys2Proof

/-- One constructor per row of opcode_table.json. The eighteen rows of format `CMD` are the host commands of R53;
they carry no field, since a command word has no immediate operand (R52). The four rows of format `PCB` are the
protocol control bytes the block engine acts on (R58 to R60); `mark` is PCB bit 0. -/
inductive Instr where
  /-- `CRC_A` (R104) -/
  | crcA
  /-- `CRC_B` (R105) -/
  | crcB
  /-- `XCHG` (R79) -/
  | xchg
  /-- `REG_RD` (R82) -/
  | regRd
  /-- `REG_WR` (R83) -/
  | regWr
  /-- `REG_OR` (R84) -/
  | regOr
  /-- `REG_AND` (R85) -/
  | regAnd
  /-- `SEND_DATA` (R96) -/
  | sendData
  /-- `READ_DATA` (R97) -/
  | readData
  /-- `RX_STATUS` (R98) -/
  | rxStatus
  /-- `READ_TMO` (R99) -/
  | readTmo
  /-- `TRANSCEIVE` (R108) -/
  | transceive
  /-- `PROBE` (R131) -/
  | probe
  /-- `PROBE_ALL` (R132) -/
  | probeAll
  /-- `TGT_ALLOC` (R134) -/
  | tgtAlloc
  /-- `TGT_INSTALL` (R135) -/
  | tgtInstall
  /-- `TGT_REMOVE` (R136) -/
  | tgtRemove
  /-- `TGT_READ` (R137) -/
  | tgtRead
  /-- `PCB_I`: the non-chained I-block PCB `0x0A | mark` (R58, R118) -/
  | pcbI (mark : Bool)
  /-- `PCB_I_CHAINED`: the chained I-block PCB `0x1A | mark` (R58, R119) -/
  | pcbIChained (mark : Bool)
  /-- `PCB_R`: the R-block PCB `0xAA | mark` (R59, R115) -/
  | pcbR (mark : Bool)
  /-- `PCB_S_WTX`: the S(WTX) PCB 0xFA (R60, R121) -/
  | pcbSWtx
  deriving DecidableEq, Repr

/-- The two formats of opcode_table.json: what an encoded byte is read as. -/
inductive Format where
  /-- the `OPC` field of a command word (R52) -/
  | cmd
  /-- byte 0 of a block-protocol frame (R61) -/
  | pcb
  deriving DecidableEq, Repr

/-- The format of each row. -/
def Instr.format : Instr → Format
  | .crcA | .crcB | .xchg | .regRd | .regWr | .regOr | .regAnd => .cmd
  | .sendData | .readData | .rxStatus | .readTmo => .cmd
  | .transceive | .probe | .probeAll => .cmd
  | .tgtAlloc | .tgtInstall | .tgtRemove | .tgtRead => .cmd
  | .pcbI _ | .pcbIChained _ | .pcbR _ | .pcbSWtx => .pcb

/-- Why a byte is no instruction. -/
inductive Reject where
  /-- an `OPC` outside the table of R53; such a command completes with `E_BAD_CMD` (R63) -/
  | reservedCommand (opc : Byte)
  /-- a PCB outside the patterns of R58 to R60; such a frame is *bad PCB* (R62) -/
  | unknownPcb (pcb : Byte)
  deriving DecidableEq, Repr

/-- The width of a host-port access (R34 admits the 32-bit one alone). -/
inductive Width where
  | w8
  | w16
  | w32
  deriving DecidableEq, Repr

/-- Direction and data of a host transaction (R51). -/
inductive HostOp where
  | read
  | write (v : Word)
  deriving DecidableEq, Repr

/-- A host-port transaction (R51), with the width the host bus asks for. -/
structure HostAccess where
  op : HostOp
  off : BitVec 12
  width : Width := .w32
  deriving DecidableEq, Repr

/-- What the world on the host side does, in order. `pass` and `await` are the model's own: they place the host's
accesses in time against the steps of a running command (log entry 2). -/
inductive HostEvent where
  /-- a host-port transaction -/
  | access (a : HostAccess)
  /-- the input `rst_n` is driven to `level` (R155) -/
  | rst (level : Bool)
  /-- the host lets the sequencer make one elementary step -/
  | pass
  /-- the host makes no further access before the running command has completed (R146) -/
  | await
  deriving DecidableEq, Repr

/-- What a host access answers. -/
inductive HostReply where
  /-- the data of a read (R35) -/
  | data (v : Word)
  /-- a write was taken by the port, whether or not it had an effect (R36) -/
  | wrote
  /-- the host bus's error response (R34) -/
  | busError
  deriving DecidableEq, Repr

/-- An event of the peer side, in the order it happens (R46). -/
inductive BusEvent where
  /-- a `WaitBusy(want, budget)` ended; `ok` is false for a timeout (R11) -/
  | wait (want : Bool) (budgetMs : Nat) (ok : Bool)
  /-- `SEL(1)` or `SEL(0)` (R11) -/
  | sel (asserted : Bool)
  /-- a `Delay` of at least so many µs (R11) -/
  | delay (minUs : Nat)
  /-- a byte clocked out on MOSI, its MISO byte discarded (R70) -/
  | out (b : Byte)
  /-- a filler clocked out on MOSI, with the MISO byte captured (R71) -/
  | filler (captured : Byte)
  deriving DecidableEq, Repr

end Sys2Proof
end

