-- ==== Sys2Proof/Decode.lean ====
section
/-!
DEFINITION. The decoder and the encoder of 30_encoding.md: the command word (R52, R53, R63) and the protocol control
byte (R58 to R60). Both are total; what is no instruction is rejected by name.
-/

namespace Sys2Proof

/-- The mark as PCB bit 0 (R58). -/
def markBit (m : Bool) : Byte := if m then 1#8 else 0#8

/-- The non-chained I-block PCB, `0x0A | mark` (R58). -/
def pcbIByte (m : Bool) : Byte := 0x0A#8 ||| markBit m

/-- The chained I-block PCB, `0x1A | mark` (R58). -/
def pcbIChainedByte (m : Bool) : Byte := 0x1A#8 ||| markBit m

/-- The R-block PCB, `0xAA | mark`, ACK and NAK alike (R59). -/
def pcbRByte (m : Bool) : Byte := 0xAA#8 ||| markBit m

/-- The S(WTX) PCB (R60). -/
def pcbWtxByte : Byte := 0xFA#8

/-- The command codes of R53. -/
def commandTable : List (Byte × Instr) :=
  [(0x01#8, .crcA), (0x02#8, .crcB),
   (0x10#8, .xchg),
   (0x20#8, .regRd), (0x21#8, .regWr), (0x22#8, .regOr), (0x23#8, .regAnd),
   (0x30#8, .sendData), (0x31#8, .readData), (0x32#8, .rxStatus), (0x33#8, .readTmo),
   (0x40#8, .transceive), (0x41#8, .probe), (0x42#8, .probeAll),
   (0x50#8, .tgtAlloc), (0x51#8, .tgtInstall), (0x52#8, .tgtRemove), (0x53#8, .tgtRead)]

/-- The row of a table whose code is `b`. -/
def tableLookup : List (Byte × Instr) → Byte → Option Instr
  | [], _ => none
  | (c, i) :: rows, b => if b = c then some i else tableLookup rows b

/-- The command an `OPC` names (R53); every other code is reserved (R63). -/
def decodeOpc (opc : Byte) : Except Reject Instr :=
  match tableLookup commandTable opc with
  | some i => .ok i
  | none => .error (.reservedCommand opc)

/-- The command word: `OPC` is bits 7:0, bits 31:8 are ignored (R52). -/
def decodeCommandWord (v : Word) : Except Reject Instr :=
  decodeOpc (v.extractLsb' 0 8)

/-- The class of a protocol control byte (R58 to R60). -/
def decodePcb (b : Byte) : Except Reject Instr :=
  let mark := b.getLsbD 0
  if b &&& 0xFE#8 = 0x0A#8 then .ok (.pcbI mark)
  else if b &&& 0xFE#8 = 0x1A#8 then .ok (.pcbIChained mark)
  else if b &&& 0xFE#8 = 0xAA#8 then .ok (.pcbR mark)
  else if b = 0xFA#8 then .ok .pcbSWtx
  else .error (.unknownPcb b)

/-- An encoded byte read in a given format. -/
def decode : Format → Byte → Except Reject Instr
  | .cmd, b => decodeOpc b
  | .pcb, b => decodePcb b

/-- The byte that encodes an instruction: the `OPC` of a command (R53), the PCB of a block (R58 to R60). -/
def encode : Instr → Byte
  | .crcA => 0x01#8
  | .crcB => 0x02#8
  | .xchg => 0x10#8
  | .regRd => 0x20#8
  | .regWr => 0x21#8
  | .regOr => 0x22#8
  | .regAnd => 0x23#8
  | .sendData => 0x30#8
  | .readData => 0x31#8
  | .rxStatus => 0x32#8
  | .readTmo => 0x33#8
  | .transceive => 0x40#8
  | .probe => 0x41#8
  | .probeAll => 0x42#8
  | .tgtAlloc => 0x50#8
  | .tgtInstall => 0x51#8
  | .tgtRemove => 0x52#8
  | .tgtRead => 0x53#8
  | .pcbI m => pcbIByte m
  | .pcbIChained m => pcbIChainedByte m
  | .pcbR m => pcbRByte m
  | .pcbSWtx => pcbWtxByte

/-- The 32-bit word a host writes to `CMD` for a command; the ignored bits 31:8 are written 0 (R52, R66). -/
def encodeCommandWord (i : Instr) : Word := (encode i).setWidth 32

/-- `Except` answers as an option. -/
def accepted {ε α : Type} : Except ε α → Option α
  | .ok a => some a
  | .error _ => none

/-- What the decoder reads from an instruction of `nbits` bits numbered as opcode_table.json numbers them. A byte is
a command code where R53 has it, else a protocol control byte; no byte is both. -/
def decodeTableWord (nbits w : Nat) : Option Instr :=
  let b : Byte := BitVec.ofNat 8 (w % 2 ^ nbits)
  match accepted (decodeOpc b) with
  | some i => some i
  | none => accepted (decodePcb b)

end Sys2Proof
end

