-- ==== Sys2Proof/Machine/State.lean ====
section
/-!
DEFINITION. The state of the transceiver block (10_state.md) as plain data, and the machine right after reset (R156).
The fields of `State` outside `env` and `cfg` are the spec's; `env` is the model's record of the world outside the
block, and `cfg` holds the OPEN parameters of R7.
-/

namespace Sys2Proof.Machine

/-- What stops the machine. The block itself has no trap that stops it: every error completes a command with an
error code (R142). -/
inductive Fault where
  /-- Raised by the meaning of a protocol control byte in a state in which the engine is not classifying a frame for
  an installed target. No run reaches such a state (the invariant `Sys2Proof.Machine.Inv` excludes it). Safe: the
  model stops where the spec describes nothing (log entry 10). -/
  | noExchange
  deriving DecidableEq, Repr

/-- Why an instruction has no meaning. -/
inductive Refusal where
  /-- An instruction without a meaning, by its mnemonic. No arm of `exec` answers it. Safe: the model stops. -/
  | notModelled (mnemonic : String)
  deriving DecidableEq, Repr

/-- The error codes of R147 (log entry 14). `ok` is normal completion. -/
inductive ErrCode where
  | ok
  | notReady
  | latchTimeout
  | idleTimeout
  | argLen
  | argValidBits
  | argTarget
  | retries
  | cidMismatch
  | badPcb
  | shortFrame
  | chainDepth
  | overflow
  | rxOverflow
  | regFull
  | noTarget
  | dupTarget
  | badCmd
  | unsupported
  deriving DecidableEq, Repr

/-- The block engine's states (R23); codes 6 and 7 do not exist (log entry 14). -/
inductive EState where
  | idle
  | awaitingResponse
  | chaining
  | extensionRequested
  | complete
  | failed
  deriving DecidableEq, Repr

/-- The sequencer's step (R17, R30), at the model's granularity (log entry 1). -/
inductive Seq where
  /-- `IDLE`: no command is running -/
  | idle
  /-- the first step of the command `CMD.OPC` names (R140) -/
  | start
  /-- the block engine has read `n` bytes into `FRAME` and is about to act on them (R113, the head of its loop after
  the read) -/
  | received (n : Nat)
  deriving DecidableEq, Repr

/-- Four 32-bit operand words: `ARG0`..`ARG3` (R21) or the snapshot `A0`..`A3` (R30). -/
structure Operands where
  w0 : Word := 0#32
  w1 : Word := 0#32
  w2 : Word := 0#32
  w3 : Word := 0#32
  deriving DecidableEq, Repr

/-- A registry entry, the source's `CardTarget` (R28). -/
structure Target where
  /-- target number, 1..14 -/
  tn : Byte
  /-- 4 bytes -/
  uid : List Byte
  /-- 12 bytes -/
  atqb : List Byte
  /-- frame-waiting time in µs -/
  fwt : Word
  /-- `lastBlockMark` -/
  mark : Bool
  deriving DecidableEq, Repr

/-- Bytes by address; an address that is not listed holds what it has held since reset. -/
abbrev Memory := List Host.Cell

/-- The canonical form of a memory: addresses strictly rising. -/
def Memory.rising : Memory → Bool
  | [] => true
  | [_] => true
  | c :: d :: m => decide (c.1 < d.1) && Memory.rising (d :: m)

/-- A memory in canonical form whose addresses lie in `[lo, hi)`. No listed byte can equal what an unlisted address
reads as, since that is no numeral but a free value (log entry 5). -/
def Memory.wf (lo hi : Nat) (m : Memory) : Bool :=
  Memory.rising m && m.all fun c => decide (lo ≤ c.1 ∧ c.1 < hi)

/-- The world outside the block, as the model records it (log entries 2, 3, 4). -/
structure Env where
  /-- what the host side does next, first event first -/
  host : List HostEvent := []
  /-- what the host's accesses have answered, first answer first -/
  replies : List HostReply := []
  /-- the outcomes of the next `WaitBusy`s, `true` for ok -/
  busy : List Bool := []
  /-- the MISO bytes of the next filler exchanges -/
  miso : List Byte := []
  /-- the events of the peer side so far, first event first -/
  bus : List BusEvent := []
  /-- µs since reset was first released -/
  time : Nat := 0
  /-- how many free values of `Config.busyDraw`, `misoDraw` and `timeDraw` have been taken -/
  drawn : Nat := 0
  /-- how many free values of `Config.rxBusyRead` have been taken -/
  rxDrawn : Nat := 0
  /-- how many times the block has been reset since -/
  epoch : Nat := 0
  deriving DecidableEq, Repr

/-- The machine. -/
structure State where
  /-- `CTRL.CRC_EN` (R19) -/
  crcEn : Bool
  /-- `CTRL.IE` (R19) -/
  ie : Bool
  /-- `CMD.OPC` (R20) -/
  opc : Byte
  /-- `ARG0`..`ARG3` (R21) -/
  arg : Operands
  /-- `STATUS.BUSY` (R22) -/
  busy : Bool
  /-- `STATUS.DONE` (R22) -/
  done : Bool
  /-- `STATUS.OVR` (R22) -/
  ovr : Bool
  /-- `STATUS.ERR` (R22, R147) -/
  err : ErrCode
  /-- `STATUS.ESTATE` (R23) -/
  estate : EState
  /-- `RESULT` (R24) -/
  result : Word
  /-- `RESULT1` (R24) -/
  result1 : Word
  /-- `TXBUF` and `RXBUF`, by window offset (R25, R26) -/
  mem : Memory
  /-- `FRAME`, by index (R29) -/
  frame : Memory
  /-- the target registry (R27); `STATUS.REGCNT` is its length -/
  registry : List Target
  /-- the sequencer's step (R30) -/
  seq : Seq
  /-- the snapshot `A0`..`A3` (R30) -/
  a : Operands
  /-- poll index of a read-with-timeout (R30) -/
  k : Nat
  /-- previous poll's count (R30) -/
  prev : Nat
  /-- retry count of a `TRANSCEIVE` (R30) -/
  r : Nat
  /-- chaining level (R30) -/
  level : Nat
  /-- accumulated payload length (R30) -/
  acc : Nat
  /-- the output `sel`, by its logical value (R31) -/
  sel : Bool
  /-- the output `mosi`, as the last byte driven (R31); its reset value is log entry 7 -/
  mosi : Byte
  /-- the input `rst_n` (R31, R155) -/
  rstn : Bool
  /-- the OPEN parameters (R7) -/
  cfg : Config.Params
  /-- the world outside -/
  env : Env
  deriving DecidableEq, Repr

/-- R156: the machine right after reset, `rst_n` released. DESIGN CHOICE: `mosi`, which R156 leaves unspecified, is 0
(log entry 7). -/
def State.reset : State where
  crcEn := false
  ie := false
  opc := 0#8
  arg := {}
  busy := false
  done := false
  ovr := false
  err := .ok
  estate := .idle
  result := 0#32
  result1 := 0#32
  mem := []
  frame := []
  registry := []
  seq := .idle
  a := {}
  k := 0
  prev := 0
  r := 0
  level := 0
  acc := 0
  sel := false
  mosi := 0#8
  rstn := true
  cfg := {}
  env := {}

end Sys2Proof.Machine
end

