-- ==== Sys2Proof/Machine/Flags.lean ====
section
/-!
DEFINITION. The flags and codes a host can read, and the outputs that follow the state: the `STATUS` and `CTRL` words
(R19, R22, R23), the error codes (R147), `irq` (R150), `crc_en` (R95) and the pins (R31).
-/

namespace Sys2Proof.Machine

/-- The code of an error in `STATUS.ERR` (R147). -/
def ErrCode.code : ErrCode → Byte
  | .ok => 0x00#8
  | .notReady => 0x01#8
  | .latchTimeout => 0x02#8
  | .idleTimeout => 0x03#8
  | .argLen => 0x10#8
  | .argValidBits => 0x11#8
  | .argTarget => 0x12#8
  | .retries => 0x20#8
  | .cidMismatch => 0x21#8
  | .badPcb => 0x22#8
  | .shortFrame => 0x23#8
  | .chainDepth => 0x24#8
  | .overflow => 0x25#8
  | .rxOverflow => 0x26#8
  | .regFull => 0x30#8
  | .noTarget => 0x31#8
  | .dupTarget => 0x32#8
  | .badCmd => 0x40#8
  | .unsupported => 0x41#8

/-- The class of an error, `ERR[7:4]` (R147, R148). -/
def ErrCode.errClass (c : ErrCode) : BitVec 4 := c.code.extractLsb' 4 4

/-- The encoding of `STATUS.ESTATE` (R23). -/
def EState.code : EState → BitVec 3
  | .idle => 0#3
  | .awaitingResponse => 1#3
  | .chaining => 2#3
  | .extensionRequested => 3#3
  | .complete => 4#3
  | .failed => 5#3

/-- `STATUS.REGCNT`: the number of registry entries (R22, R27). -/
def State.regcnt (s : State) : Nat := s.registry.length

/-- The word a host reads at `STATUS`, reserved bits 0 (R22). -/
def State.statusWord (s : State) : Word :=
  (0#4 ++ BitVec.ofNat 4 s.regcnt ++ 0#5 ++ s.estate.code ++ s.err.code ++ 0#5
    ++ BitVec.ofBool s.ovr ++ BitVec.ofBool s.done ++ BitVec.ofBool s.busy : BitVec 32)

/-- The word a host reads at `CTRL`, reserved bits 0 (R19). -/
def State.ctrlWord (s : State) : Word :=
  (0#30 ++ BitVec.ofBool s.ie ++ BitVec.ofBool s.crcEn : BitVec 32)

/-- R150: `irq = STATUS.DONE & CTRL.IE` at every instant. -/
def State.irq (s : State) : Bool := s.done && s.ie

/-- R95: the `crc_en` output follows `CTRL.CRC_EN`. -/
def State.crcEnPin (s : State) : Bool := s.crcEn

/-- R31: the electrical level of `sel`. -/
def State.selPin (s : State) : Bool := if s.sel then s.cfg.selActiveLevel else !s.cfg.selActiveLevel

/-- R31: the level at which `sclk` idles; SPI modes 2 and 3 idle high (PRESUMED, log entry 11). -/
def State.sclkIdleLevel (s : State) : Bool := decide (2 ≤ s.cfg.spiMode.val)

/-- R31: the logical value of `busy` that an electrical level means. -/
def State.busyAsserted (s : State) (level : Bool) : Bool := level == s.cfg.busyActiveLevel

end Sys2Proof.Machine
end

