-- ==== Sys2Proof/Machine/Operands.lean ====
section
/-!
DEFINITION. The operand forms of the commands (R54) and the byte-order conventions (R39 to R41, R57): operand words
and their low bytes, byte sequences of the buffers, little-endian words, and the receive-status decode.
-/

namespace Sys2Proof.Machine

/-- `le32(b0, b1, b2, b3)` (R10). -/
def le32 (b0 b1 b2 b3 : Byte) : Word := (b3 ++ b2 ++ b1 ++ b0 : BitVec 32)

/-- Byte `i` of a word: bits `8i+7 : 8i` (R39). -/
def wordByte (v : Word) (i : Nat) : Byte := v.extractLsb' (8 * i) 8

/-- `bytes_le32(v)` (R10). -/
def bytesLe32 (v : Word) : List Byte := [wordByte v 0, wordByte v 1, wordByte v 2, wordByte v 3]

/-- `le32` of the four bytes of a register read, in the order received (R40, R82). -/
def le32OfList (bytes : List Byte) : Word :=
  le32 (bytes.getD 0 0#8) (bytes.getD 1 0#8) (bytes.getD 2 0#8) (bytes.getD 3 0#8)

/-- An 8-bit operand: bits 7:0 of an operand word, bits 31:8 ignored (R21). -/
def lowByte (v : Word) : Byte := v.extractLsb' 0 8

/-- The target number or register address operand `A0[7:0]` (R54). -/
def State.operandByte (s : State) : Byte := lowByte s.a.w0

/-- Byte count of a receive status, `s[0] | ((s[1] & 0x01) << 8)` (R57). -/
def rxCount (s0 s1 : Byte) : Nat := (s0.setWidth 16 ||| ((s1 &&& 0x01#8).setWidth 16 <<< 8)).toNat

/-- Valid bits of a receive status, `(s[1] & 0xE0) >> 5` (R57). -/
def rxValidBits (s1 : Byte) : Nat := ((s1 &&& 0xE0#8) >>> 5).toNat

/-- The receive-status decode of the bytes of a status read (R57). -/
def rxStatusOf (bytes : List Byte) : Nat × Nat :=
  (rxCount (bytes.getD 0 0#8) (bytes.getD 1 0#8), rxValidBits (bytes.getD 1 0#8))

/-- The valid-bits code on the wire: `vb mod 8` (R86). -/
def validBitsCode (vb : Nat) : Byte := BitVec.ofNat 8 (vb % 8)

/-- The read timeout of a target, `fwt div 1000` (R112). -/
def Target.timeout (e : Target) : Nat := e.fwt.toNat / 1000

/-- `RESULT1` of `TGT_READ`: `tn | (mark << 8) | (i << 16)` (R137). -/
def targetWord (e : Target) (i : Nat) : Word :=
  e.tn.setWidth 32 ||| ((if e.mark then 1#32 else 0#32) <<< 8) ||| (BitVec.ofNat 32 i <<< 16)

end Sys2Proof.Machine
end

