-- ==== Sys2Proof/WellFormed.lean ====
section
/-!
DEFINITION. Which terms of the syntax are well formed: an instruction in the format it is read in, and a host-port
access. The instructions carry no field that could be out of range.
-/

namespace Sys2Proof

/-- An instruction is well formed in the format its row has: a protocol control byte is no command word and a
command code is no control byte (R53, R62, R63). -/
def Instr.wellFormed (f : Format) (i : Instr) : Bool := i.format = f

/-- R34: every host access is a 32-bit one. -/
def HostAccess.wideEnough (a : HostAccess) : Bool := a.width = .w32

/-- R34: every host access is at a multiple of 4. -/
def HostAccess.aligned (a : HostAccess) : Bool := a.off.toNat % 4 = 0

/-- R34: a well-formed host access. Any other gets the host bus's error response. -/
def HostAccess.wellFormed (a : HostAccess) : Bool := a.wideEnough && a.aligned

end Sys2Proof
end

