-- ==== Sys2Proof/Machine/Ops.lean ====
section
/-!
DEFINITION. The named operations over the state: buffers (R25, R26, R29), registry (R27, R133), the environment's
draws (R14, R15), the host port (R34 to R36), reset (R155 to R157), the acceptance of a command (R140), its
completion, normal or with an error, which takes the place of an exception (R142), and the acknowledgement, which
takes the place of the return from one (R144). `Op` is a sequencer step that may end the command.
-/

namespace Sys2Proof.Machine

/-! ## Buffers -/

/-- The byte listed at an address. -/
def Memory.get? : Memory → Nat → Option Byte
  | [], _ => none
  | c :: m, a => if c.1 = a then some c.2 else Memory.get? m a

/-- List `b` at address `a`, keeping the canonical form. -/
def Memory.set : Memory → Nat → Byte → Memory
  | [], a, b => [(a, b)]
  | c :: m, a, b =>
    if a < c.1 then (a, b) :: c :: m
    else if a = c.1 then (a, b) :: m
    else c :: Memory.set m a b

/-- List consecutive bytes from address `a` up. -/
def Memory.store : Memory → Nat → List Byte → Memory
  | m, _, [] => m
  | m, a, b :: bs => Memory.store (Memory.set m a b) (a + 1) bs

/-- The byte of `TXBUF` or `RXBUF` at a window offset; one that nothing has written since reset holds what it was
drawn as at that reset (U10). -/
def State.memByte (s : State) (off : Nat) : Byte :=
  (Memory.get? s.mem off).getD (Config.unwritten s.env.epoch off)

/-- `TXBUF[k]` (R25). -/
def State.txByte (s : State) (k : Nat) : Byte := s.memByte (Config.txBase + k)

/-- `RXBUF[k]` (R26). -/
def State.rxByte (s : State) (k : Nat) : Byte := s.memByte (Config.rxBase + k)

/-- `FRAME[k]` (R29). -/
def State.frameByte (s : State) (k : Nat) : Byte :=
  (Memory.get? s.frame k).getD (Config.unwrittenFrame s.env.epoch k)

/-- `TXBUF[i .. i+n)`. -/
def State.txBytes (s : State) (i n : Nat) : List Byte := (List.range n).map fun j => s.txByte (i + j)

/-- `FRAME[i .. i+n)`. -/
def State.frameBytes (s : State) (i n : Nat) : List Byte := (List.range n).map fun j => s.frameByte (i + j)

/-- `RXBUF[k .. k+len(bs)) <- bs` (R26). -/
def State.storeRx (k : Nat) (bs : List Byte) (s : State) : State :=
  { s with mem := Memory.store s.mem (Config.rxBase + k) bs }

/-- `FRAME[0 .. len(bs)) <- bs` (R29). -/
def State.storeFrame (bs : List Byte) (s : State) : State :=
  { s with frame := Memory.store s.frame 0 bs }

/-- The word of `TXBUF` or `RXBUF` at a window offset, byte `i` in bits `8i+7 : 8i` (R35, R39). -/
def State.memWord (s : State) (off : Nat) : Word :=
  le32 (s.memByte off) (s.memByte (off + 1)) (s.memByte (off + 2)) (s.memByte (off + 3))

/-! ## Registry -/

/-- The registry entry with target number `tn`. -/
def State.target? (s : State) (tn : Byte) : Option Target := s.registry.find? fun e => e.tn == tn

/-- The index of the entry with target number `tn`, 0 for the first (R137). -/
def State.targetIndex (s : State) (tn : Byte) : Nat := s.registry.findIdx fun e => e.tn == tn

/-- Append an entry (R27, R135). -/
def State.install (e : Target) (s : State) : State := { s with registry := s.registry ++ [e] }

/-- Remove the entry with target number `tn`; the others keep their order (R27). -/
def State.removeTarget (tn : Byte) (s : State) : State :=
  { s with registry := s.registry.filter fun e => e.tn != tn }

/-- Set the mark of the entry with target number `tn` (R28). -/
def State.setMark (tn : Byte) (m : Bool) (s : State) : State :=
  { s with registry := s.registry.map fun e => if e.tn = tn then { e with mark := m } else e }

/-- R133: the smallest number in 1..14 no entry holds. -/
def State.lowestFree (s : State) : Option Nat :=
  (List.range' 1 Config.nTargets).find? fun t => s.registry.all fun e => e.tn.toNat != t

/-! ## The world outside -/

/-- Record an event of the peer side. -/
def State.log (e : BusEvent) (s : State) : State := { s with env.bus := s.env.bus ++ [e] }

/-- Record the answer of a host access. -/
def State.reply (r : HostReply) (s : State) : State := { s with env.replies := s.env.replies ++ [r] }

/-- Time passes: `us` and a free amount more (R15, R153). -/
def State.elapse (us : Nat) (s : State) : State :=
  { s with env.time := s.env.time + us + Config.timeDraw s.env.drawn, env.drawn := s.env.drawn + 1 }

/-- How long a wait with a budget of `us` takes, for a free value `d`: at most the budget if it succeeds, at least the
budget if it times out (R14, R153). -/
def waitTime (ok : Bool) (us d : Nat) : Nat := if ok then d % (us + 1) else us + d

/-- Time passes while the block waits (R153). -/
def State.elapseWait (ok : Bool) (us : Nat) (s : State) : State :=
  { s with env.time := s.env.time + waitTime ok us (Config.timeDraw s.env.drawn), env.drawn := s.env.drawn + 1 }

/-- The outcome of the next `WaitBusy` (R14): what the environment has supplied, else a free value. -/
def State.nextBusy (s : State) : Bool := s.env.busy.headD (Config.busyDraw s.env.drawn)

/-- The MISO byte of the next filler exchange (R14, R71): what the environment has supplied, else a free value. -/
def State.nextMiso (s : State) : Byte := s.env.miso.headD (Config.misoDraw s.env.drawn)

/-- Take the outcome of a `WaitBusy`. -/
def State.takeBusy (s : State) : State :=
  { s with env.busy := s.env.busy.tail, env.drawn := s.env.drawn + 1 }

/-- Take a MISO byte. -/
def State.takeMiso (s : State) : State :=
  { s with env.miso := s.env.miso.tail, env.drawn := s.env.drawn + 1 }

/-! ## Reset -/

/-- R155 to R157: `rst_n` goes low. Every piece of the block's state takes its reset value, a running command is
abandoned without a completion, `sel` is deasserted at once, and the buffers' unwritten bytes are drawn anew. The
world outside, the peer included, is not reset (log entry 12). -/
def State.assertReset (s : State) : State :=
  { State.reset with
    rstn := false
    cfg := s.cfg
    env := { s.env with
      epoch := s.env.epoch + 1
      bus := if s.sel then s.env.bus ++ [.sel false] else s.env.bus } }

/-- The input `rst_n` is driven to `level` while no command runs; a low level already taken is held (R155). -/
def State.driveReset (level : Bool) (s : State) : State :=
  if level then { s with rstn := true }
  else if s.rstn then s.assertReset else s

/-! ## Acceptance, completion, acknowledgement -/

/-- R140: a command is accepted, as one step. -/
def State.accept (opc : Byte) (s : State) : State :=
  { s with opc := opc, a := s.arg, busy := true, done := false, seq := .start }

/-- R142: the completion of a command, normal (`c = .ok`) or with an error, as one step. It takes the place of
exception entry (R151): the code goes to `ERR`, the values to `RESULT` and `RESULT1`, `BUSY` and `DONE` change and the
sequencer goes idle. Nothing is rolled back. The block's own work before it (a CRC, a registry look-up) takes a free
time, since no rule bounds it (R15; DESIGN CHOICE, log entry 4). -/
def State.complete (c : ErrCode) (res res1 : Word) (s : State) : State :=
  { s.elapse 0 with result := res, result1 := res1, err := c, busy := false, done := true, seq := .idle }

/-- R24, R142: `RESULT` of a command that fails, −1. -/
def failResult : Word := 0xFFFFFFFF#32

/-- R142: the completion of a command with an error; `RESULT1` is 0 but for `PROBE_ALL` (R132). -/
def State.completeError (c : ErrCode) (res1 : Word) (s : State) : State := s.complete c failResult res1

/-- R144, R22: what a write of `v` to `STATUS` does. Bit 1 acknowledges a completion, the counterpart of a return
from an exception; bit 2 clears `OVR`. It is taken whether or not `BUSY` = 1. -/
def State.writeStatus (v : Word) (s : State) : State :=
  { s with done := s.done && !v.getLsbD 1, ovr := s.ovr && !v.getLsbD 2 }

/-! ## The host port -/

/-- R18: the offsets at which a host write is discarded, and sets `OVR`, while a command runs: `CTRL`, `CMD`,
`ARG0`..`ARG3` and `TXBUF`. -/
def guardedOffset (off : Nat) : Bool :=
  decide (off < 0x018) || (decide (Config.txBase ≤ off) && decide (off < Config.txBase + Config.bufSize))

/-- R18: the offsets of `RXBUF`. -/
def rxOffset (off : Nat) : Bool :=
  decide (Config.rxBase ≤ off) && decide (off < Config.rxBase + Config.bufSize)

/-- R35: the word a host read at an aligned offset returns. -/
def State.hostRead (s : State) (off : Nat) : Word :=
  if off = 0x000 then s.ctrlWord
  else if off = 0x004 then s.opc.setWidth 32
  else if off = 0x008 then s.arg.w0
  else if off = 0x00C then s.arg.w1
  else if off = 0x010 then s.arg.w2
  else if off = 0x014 then s.arg.w3
  else if off = 0x018 then s.statusWord
  else if off = 0x01C then s.result
  else if off = 0x020 then s.result1
  else if Config.txBase ≤ off ∧ off < Config.txBase + Config.bufSize then s.memWord off
  else if rxOffset off then if s.busy then Config.rxBusyRead s.env.rxDrawn else s.memWord off
  else 0#32

/-- R36: a register or `TXBUF` write that is not discarded. -/
def State.writeGuarded (off : Nat) (v : Word) (s : State) : State :=
  if off = 0x000 then { s with crcEn := v.getLsbD 0, ie := v.getLsbD 1 }
  else if off = 0x004 then s.accept (lowByte v)
  else if off = 0x008 then { s with arg.w0 := v }
  else if off = 0x00C then { s with arg.w1 := v }
  else if off = 0x010 then { s with arg.w2 := v }
  else if off = 0x014 then { s with arg.w3 := v }
  else { s with mem := Memory.store s.mem off (bytesLe32 v) }

/-- R22, R145: a host write is discarded because `BUSY` = 1; the sticky `OVR` is set. -/
def State.overrun (s : State) : State := { s with ovr := true }

/-- R36: what a host write of `v` at an aligned offset does. -/
def State.hostWrite (off : Nat) (v : Word) (s : State) : State :=
  if off = 0x018 then s.writeStatus v
  else if guardedOffset off then
    if s.busy then s.overrun else s.writeGuarded off v
  else s

/-- R26, U12: a read of `RXBUF` while `BUSY` = 1 takes a free value; no other read changes anything (R38). -/
def State.afterRead (off : Nat) (s : State) : State :=
  if rxOffset off && s.busy then { s with env.rxDrawn := s.env.rxDrawn + 1 } else s

/-- A host access. An ill-formed one gets the bus error response and changes nothing (R34, log entry 9); while
`rst_n` = 0 writes are ignored (R155). -/
def State.hostAccess (a : HostAccess) (s : State) : State :=
  if a.wellFormed then
    match a.op with
    | .read => (s.afterRead a.off.toNat).reply (.data (s.hostRead a.off.toNat))
    | .write v => (if s.rstn then s.hostWrite a.off.toNat v else s).reply .wrote
  else s.reply .busError

/-- What a host-side event does while no command runs. -/
def State.hostEvent (e : HostEvent) (s : State) : State :=
  match e with
  | .access a => s.hostAccess a
  | .rst level => s.driveReset level
  | .pass => s
  | .await => s

/-- The host side's next event, while no command runs, after a free time; nothing happens, and no time passes, where
there is none (R15 bounds neither: DESIGN CHOICE, log entry 4). -/
def State.hostTurn (s : State) : State :=
  match s.env.host with
  | [] => s
  | e :: es => State.hostEvent e ({ s with env.host := es }.elapse 0)

/-! ## Sequencer steps -/

/-- How a sequencer step ends. -/
inductive Res (α : Type) where
  /-- with a value -/
  | ok (v : α) (s : State)
  /-- with `raise Err(c)` (R12) -/
  | err (c : ErrCode) (s : State)
  /-- cut off by a reset (R157) -/
  | cut (s : State)

/-- A sequencer step. -/
abbrev Op (α : Type) := State → Res α

/-- `return v` (R11). -/
def Op.ret {α : Type} (v : α) : Op α := fun s => .ok v s

/-- `raise Err(c)` (R11, R12). -/
def Op.raise {α : Type} (c : ErrCode) : Op α := fun s => .err c s

/-- Change the state. -/
def Op.upd (f : State → State) : Op Unit := fun s => .ok () (f s)

/-- Read the state. -/
def Op.get {α : Type} (f : State → α) : Op α := fun s => .ok (f s) s

/-- One step, then the next; an error or a reset ends both. -/
def Op.bind {α β : Type} (x : Op α) (f : α → Op β) : Op β := fun s =>
  match x s with
  | .ok v s' => f v s'
  | .err c s' => .err c s'
  | .cut s' => .cut s'

/-- One step, then the next, the first one's value not used. -/
def Op.andThen {α β : Type} (x : Op α) (y : Op β) : Op β := x.bind fun _ => y

/-- Run `x`; where it raises an error, go on with the handler instead (R12). -/
def Op.catching {α : Type} (x : Op α) (h : ErrCode → Op α) : Op α := fun s =>
  match x s with
  | .ok v s' => .ok v s'
  | .err c s' => h c s'
  | .cut s' => .cut s'

/-- The host side's events that land before the sequencer's next elementary step (log entry 2). The accesses see
`BUSY` = 1; a reset cuts the command off (R157). They take no time of their own beside that of the run (DESIGN CHOICE,
log entry 4). -/
def land : List HostEvent → Op Unit
  | [], s => .ok () { s with env.host := [] }
  | .pass :: es, s => .ok () { s with env.host := es }
  | .await :: es, s => .ok () { s with env.host := .await :: es }
  | .rst true :: es, s => land es s
  | .rst false :: es, s => .cut { s.assertReset with env.host := es }
  | .access a :: es, s => land es (s.hostAccess a)

/-- The host side's turn between two elementary steps of a running command. -/
def hostSlot : Op Unit := fun s => land s.env.host s

/-- The state after a `WaitBusy`: its outcome is taken and recorded (R14). -/
def State.waited (want : Bool) (budgetMs : Nat) (s : State) : State :=
  State.log (.wait want budgetMs s.nextBusy) (State.elapseWait s.nextBusy (budgetMs * 1000) s.takeBusy)

/-- The state after `SEL(v)`. No rule bounds how long a select edge takes (R15): it takes a free time (DESIGN CHOICE,
log entry 4). -/
def State.selected (v : Bool) (s : State) : State := State.log (.sel v) ({ s with sel := v }.elapse 0)

/-- The state after a `Delay` of at least `us` µs. -/
def State.delayed (us : Nat) (s : State) : State := (s.elapse us).log (.delay us)

/-- The state after `Xfer(b)` of a write byte. -/
def State.sent (b : Byte) (s : State) : State := State.log (.out b) ({ s with mosi := b }.elapse 0)

/-- The state after `Xfer(0xFF)` of a filler. -/
def State.captured (s : State) : State :=
  State.log (.filler s.nextMiso) ({ s.takeMiso with mosi := Config.filler }.elapse 0)

/-- `WaitBusy(want, budget)` (R11, R14): true for ok, false for a timeout. -/
def waitBusy (want : Bool) (budgetMs : Nat) : Op Bool :=
  hostSlot.andThen fun s => .ok s.nextBusy (s.waited want budgetMs)

/-- `SEL(v)` (R11). -/
def selectLine (v : Bool) : Op Unit := hostSlot.andThen (Op.upd (State.selected v))

/-- `Delay(t)`, with `t` in µs (R11, R15). -/
def delay (us : Nat) : Op Unit := hostSlot.andThen (Op.upd (State.delayed us))

/-- `Xfer(b)` of a write byte, the MISO byte discarded (R70). -/
def sendByte (b : Byte) : Op Unit := hostSlot.andThen (Op.upd (State.sent b))

/-- `Xfer(0xFF)` of a filler, the MISO byte captured (R71). -/
def recvByte : Op Byte := hostSlot.andThen fun s => .ok s.nextMiso s.captured

/-! ## Commands -/

/-- How the sequencer's run of an instruction ends when it raises no error. -/
inductive After where
  /-- the command completes with these values of `RESULT` and `RESULT1` -/
  | done (res res1 : Word)
  /-- the command completes with an error and this value of `RESULT1` (R132) -/
  | failed (c : ErrCode) (res1 : Word)
  /-- the block engine has read a frame of `n` bytes, which it classifies next (R113) -/
  | received (n : Nat)
  deriving DecidableEq, Repr

/-- The engine has read `n` bytes, which its next step classifies (R113); that takes no time of its own (DESIGN CHOICE,
log entry 4). -/
def State.toReceived (n : Nat) (s : State) : State := { s with seq := .received n }

/-- The end of a run: the host's accesses that land before it, then the completion (R142), or the engine's next
step. -/
def closing (f : State → State) (s : State) : State :=
  match hostSlot s with
  | .ok _ s' => f s'
  | .err _ s' => s'
  | .cut s' => s'

/-- The run of an instruction, from its first step to its completion or to the engine's next classification (R141,
R142). A run cut off by a reset records no completion (R157). -/
def runCommand (body : Op After) (s : State) : State :=
  match hostSlot.andThen body s with
  | .ok (.done res res1) s' => closing (State.complete .ok res res1) s'
  | .ok (.failed c res1) s' => closing (State.completeError c res1) s'
  | .ok (.received n) s' => s'.toReceived n
  | .err c s' => closing (State.completeError c 0#32) s'
  | .cut s' => s'

/-- A run answers a next state. -/
def command (body : Op After) (s : State) : Host.Outcome State Fault Refusal := .next (runCommand body s)

end Sys2Proof.Machine
end

