-- ==== Sys2Proof/Machine/Transport.lean ====
section
/-!
DEFINITION. The transport link (40_transport.md): the select window with its six-step handshake, the transport frame,
and the command `XCHG`.
-/

namespace Sys2Proof.Machine

/-- Step 3 (R70): clock the write bytes out, in order. -/
def sendBytes : List Byte → Op Unit
  | [] => Op.ret ()
  | b :: bs => (sendByte b).andThen (sendBytes bs)

/-- Step 4 (R71): clock `r` fillers out and capture a byte for each, in order. -/
def recvBytes : Nat → Op (List Byte)
  | 0 => Op.ret []
  | r + 1 => recvByte.bind fun b => (recvBytes r).bind fun bs => Op.ret (b :: bs)

/-- Steps 2 to 4 (R69 to R71): select, settle, write, read. -/
def windowBody (w : List Byte) (r : Nat) : Op (List Byte) :=
  (selectLine true).andThen <| (Op.get fun s => s.cfg.settleUs).bind fun t =>
    (delay t).andThen <| (sendBytes w).andThen <| recvBytes r

/-- Steps 5 and 6 (R72, R73): the latch wait, the release, the idle wait. -/
def windowRelease (rd : List Byte) : Op (List Byte) :=
  (waitBusy true Config.latchMs).bind fun latched =>
    if latched then
      (selectLine false).andThen <| (waitBusy false Config.busyBudgetMs).bind fun idle =>
        if idle then Op.ret rd else Op.raise .idleTimeout
    else (selectLine false).andThen (Op.raise .latchTimeout)

/-- `SpiWindow(w, r)` (R67 to R74). -/
def spiWindow (w : List Byte) (r : Nat) : Op (List Byte) :=
  (waitBusy false Config.busyBudgetMs).bind fun ready =>
    if ready then (windowBody w r).bind windowRelease else Op.raise .notReady

/-- `SpiFrame(w, r)` (R76). -/
def spiFrame (w : List Byte) (r : Nat) : Op (List Byte) :=
  (Op.get fun s => s.cfg.readFraming).bind fun framing =>
    if framing = .singleWindow ∨ r = 0 then spiWindow w r
    else (spiWindow w 0).andThen (spiWindow [] r)

/-- `XCHG` (R79). -/
def execXchg (s : State) : Host.Outcome State Fault Refusal :=
  command (fun s =>
    let wl := s.a.w0.toNat
    let rl := s.a.w1.toNat
    if wl > Config.bufSize ∨ rl > Config.bufSize ∨ wl + rl = 0 then .err .argLen s
    else ((spiFrame (s.txBytes 0 wl) rl).bind fun rd =>
      (Op.upd (State.storeRx 0 rd)).andThen (Op.ret (.done s.a.w1 0#32))) s) s

end Sys2Proof.Machine
end

