-- ==== Sys2Proof/Machine/RegAccess.lean ====
section
/-!
DEFINITION. Peer register access (41_register_access.md): the register read and the three register write forms, and
the commands `REG_RD`, `REG_WR`, `REG_OR` and `REG_AND`. The masking is the peer's.
-/

namespace Sys2Proof.Machine

/-- `RegRead(addr)` (R80): the four bytes in the order received. -/
def regRead (addr : Byte) : Op (List Byte) :=
  (Op.get fun s => s.cfg.opReadReg).bind fun op => spiFrame [op, addr] 4

/-- `RegWrite(op, addr, v)` (R81). -/
def regWrite (op addr : Byte) (v : Word) : Op Unit :=
  (spiFrame ([op, addr] ++ bytesLe32 v) 0).andThen (Op.ret ())

/-- A register write command: address `A0[7:0]`, value or mask `A1` (R83 to R85). -/
def regWriteCommand (op : State → Byte) : Op After := fun s =>
  ((regWrite (op s) s.operandByte s.a.w1).andThen (Op.ret (.done 0#32 0#32))) s

/-- `REG_RD` (R82). -/
def execRegRd (s : State) : Host.Outcome State Fault Refusal :=
  command (fun s => ((regRead s.operandByte).bind fun d => Op.ret (.done (le32OfList d) 0#32)) s) s

/-- `REG_WR` (R83). -/
def execRegWr (s : State) : Host.Outcome State Fault Refusal :=
  command (regWriteCommand fun s => s.cfg.opWriteReg) s

/-- `REG_OR` (R84). -/
def execRegOr (s : State) : Host.Outcome State Fault Refusal :=
  command (regWriteCommand fun s => s.cfg.opWriteRegOr) s

/-- `REG_AND` (R85). -/
def execRegAnd (s : State) : Host.Outcome State Fault Refusal :=
  command (regWriteCommand fun s => s.cfg.opWriteRegAnd) s

end Sys2Proof.Machine
end

