-- ==== Sys2Proof/Machine/FrameExchange.lean ====
section
/-!
DEFINITION. Frame exchange (42_frame_exchange.md): sending a card frame, reading one, the receive status, and the
read-with-timeout, and the commands `SEND_DATA`, `READ_DATA`, `RX_STATUS` and `READ_TMO`.
-/

namespace Sys2Proof.Machine

/-- `SendData(data, vb)` (R86). -/
def sendFrame (data : List Byte) (vb : Nat) : Op Unit :=
  if data.length > Config.maxSend then Op.raise .argLen
  else if vb < 1 ∨ vb > 8 then Op.raise .argValidBits
  else (Op.get fun s => s.cfg.opSendData).bind fun op =>
    (spiFrame ([op, validBitsCode vb] ++ data) 0).andThen (Op.ret ())

/-- `ReadData(n)` (R87). -/
def readFrame (n : Nat) : Op (List Byte) :=
  if n > Config.maxRead then Op.raise .argLen
  else (Op.get fun s => [s.cfg.opReadData, s.cfg.readDataArg]).bind fun w => spiFrame w n

/-- `GetRxStatus()` (R88): byte count and valid bits. -/
def getRxStatus : Op (Nat × Nat) :=
  (Op.get fun s => s.cfg.addrRxStatus).bind fun addr =>
    (regRead addr).bind fun d => Op.ret (rxStatusOf d)

/-- The start of a read-with-timeout: `prev <- 0; k <- 0` (R89). -/
def State.pollStart (s : State) : State := { s with prev := 0, k := 0 }

/-- A poll that does not end the loop: `prev <- cnt; k <- k + 1` (R89). -/
def State.polled (cnt : Nat) (s : State) : State := { s with prev := cnt, k := s.k + 1 }

/-- The poll loop of a read-with-timeout with `left` further polls allowed after the first, `left = T - k` (R89 to
R91): the count of the last poll. -/
def pollLoop : Nat → Op Nat
  | 0 => getRxStatus.bind fun st => Op.ret st.1
  | left + 1 => getRxStatus.bind fun st s =>
    if st.1 ≠ 0 ∧ st.1 = s.prev then .ok st.1 s
    else ((Op.upd (State.polled st.1)).andThen <|
      (delay (Config.pollMs * 1000)).andThen (pollLoop left)) s

/-- `ReadWithTimeout(cap, T)` (R89 to R93): the number of bytes read into `FRAME`, 0 for no response. -/
def readWithTimeout (cap T : Nat) : Op Nat :=
  (Op.upd State.pollStart).andThen <| (pollLoop T).bind fun cnt =>
    if cnt = 0 then Op.ret 0
    else if cnt > cap then Op.raise .rxOverflow
    else (readFrame cnt).bind fun d => (Op.upd (State.storeFrame d)).andThen (Op.ret cnt)

/-- `RXBUF[0 .. n) <- FRAME[0 .. n); RESULT <- n` (R99, R109). -/
def deliverFrame (n : Nat) : Op After :=
  (Op.upd fun s => State.storeRx 0 (s.frameBytes 0 n) s).andThen (Op.ret (.done (BitVec.ofNat 32 n) 0#32))

/-- `SEND_DATA` (R96). The length is checked before `TXBUF` is read. -/
def execSendData (s : State) : Host.Outcome State Fault Refusal :=
  command (fun s =>
    if s.a.w0.toNat > Config.maxSend then .err .argLen s
    else ((sendFrame (s.txBytes 0 s.a.w0.toNat) s.a.w1.toNat).andThen (Op.ret (.done 0#32 0#32))) s) s

/-- `READ_DATA` (R97). -/
def execReadData (s : State) : Host.Outcome State Fault Refusal :=
  command (fun s =>
    ((readFrame s.a.w0.toNat).bind fun d =>
      (Op.upd (State.storeRx 0 d)).andThen (Op.ret (.done s.a.w0 0#32))) s) s

/-- `RX_STATUS` (R98). -/
def execRxStatus (s : State) : Host.Outcome State Fault Refusal :=
  command (getRxStatus.bind fun st =>
    Op.ret (.done (BitVec.ofNat 32 st.1) (BitVec.ofNat 32 st.2))) s

/-- `READ_TMO` (R99). -/
def execReadTmo (s : State) : Host.Outcome State Fault Refusal :=
  command (fun s =>
    if s.a.w0.toNat > Config.maxRead then .err .argLen s
    else ((readWithTimeout s.a.w0.toNat s.a.w1.toNat).bind deliverFrame) s) s

end Sys2Proof.Machine
end

