-- ==== Sys2Proof/Machine/Block.lean ====
section
/-!
DEFINITION. The block-protocol engine (44_block_protocol.md). `TRANSCEIVE` checks its operands, runs the target-0 path
whole, or enters the engine: it sends the I-block and reads the answer (R113 up to the head of its loop). From there
each step of the machine is one turn of the loop of R113: the control byte in `FRAME[0]` is fetched and decoded, and
the meaning of the control byte (`PCB_I`, `PCB_I_CHAINED`, `PCB_R`, `PCB_S_WTX`) acts on the frame. `PROBE` and
`PROBE_ALL` are the keep-alive probe.
-/

namespace Sys2Proof.Machine

/-- `ESTATE <- e` (R129). -/
def State.setEState (e : EState) (s : State) : State := { s with estate := e }

/-- Engine entry: `r`, `level` and `acc` start at 0 and `ESTATE <- AwaitingResponse` (R113). -/
def State.enterEngine (s : State) : State := { s with r := 0, level := 0, acc := 0, estate := .awaitingResponse }

/-- One retry more has been used (R122). -/
def State.retried (s : State) : State := { s with r := s.r + 1 }

/-- A first part has been accepted: level 1 (R119). -/
def State.levelUp (s : State) : State := { s with level := 1 }

/-- The payload of a part, `FRAME[2 .. n)`, is taken into `RXBUF` after what is there, and the target's mark is
toggled (R118, R119). -/
def State.takePart (e : Target) (n : Nat) (s : State) : State :=
  State.setMark e.tn (!e.mark) { s.storeRx s.acc (s.frameBytes 2 (n - 2)) with acc := s.acc + (n - 2) }

/-- An error inside the engine sets `ESTATE <- Failed` before the command completes (R113). -/
def inEngine {α : Type} (x : Op α) : Op α :=
  x.catching fun c => (Op.upd (State.setEState .failed)).andThen (Op.raise c)

/-- The head of the loop of R113: read a frame from the target; the next step classifies it. -/
def readAnswer (e : Target) : Op After :=
  (readWithTimeout Config.maxRead e.timeout).bind fun n => Op.ret (.received n)

/-- Send the R-block `[0xAA | mark, tn]` with a given mark: NAK, ACK and probe alike (R59, R61). -/
def sendRBlock (mark : Bool) (tn : Byte) : Op Unit := sendFrame [pcbRByte mark, tn] 8

/-- Engine entry and step 1 (R113, R114): the I-block with the payload `TXBUF[0 .. nout)`, then the read. -/
def engineEnter (e : Target) (nout : Nat) : Op After := fun s =>
  ((Op.upd State.enterEngine).andThen <|
    (sendFrame ([pcbIByte e.mark, e.tn] ++ s.txBytes 0 nout) 8).andThen (readAnswer e)) s

/-- The target-0 path (R109, R110): no block framing, no retry, no mark, no `ESTATE`. -/
def typeA (nout cap T : Nat) : Op After := fun s =>
  if nout ≥ 1 ∧ s.txByte 0 ∈ s.cfg.authOpcodes then .err .unsupported s
  else ((sendFrame (s.txBytes 0 nout) 8).andThen <|
    (readWithTimeout (min cap Config.maxRead) T).bind deliverFrame) s

/-- The run of `TRANSCEIVE` (R107, R108, R111): the operand checks in their order, then the target-0 path or the
engine. -/
def transceiveBody : Op After := fun s =>
  let tn := s.operandByte
  let nout := s.a.w1.toNat
  let cap := s.a.w2.toNat
  if cap > Config.bufSize then .err .argLen s
  else if tn = 0#8 ∧ nout > Config.maxSend then .err .argLen s
  else if tn ≠ 0#8 ∧ nout > Config.maxTxPayload then .err .argLen s
  else if tn = 0#8 then typeA nout cap s.a.w3.toNat s
  else match s.target? tn with
    | none => .err .noTarget s
    | some e => inEngine (engineEnter e nout) s

/-- `TRANSCEIVE` (R108). -/
def execTransceive (s : State) : Host.Outcome State Fault Refusal := command transceiveBody s

/-- The frame the engine is about to classify: the target of the exchange and the number of bytes read. -/
def State.exchange? (s : State) : Option (Target × Nat) :=
  match s.seq with
  | .received n => (s.target? s.operandByte).map fun e => (e, n)
  | _ => none

/-- Step 2 (R115): no response. With retries left, count one, send the NAK with the current mark and read again. -/
def onNoResponse (e : Target) : Op After := fun s =>
  if s.r = Config.retryMax then .err .retries s
  else ((Op.upd State.retried).andThen <|
    (sendRBlock e.mark e.tn).andThen (readAnswer e)) s

/-- The checks that come before the control byte is looked at (R62, R115 to R117): no response, short, foreign. -/
def classified (e : Target) (n : Nat) (byPcb : Op After) : Op After := fun s =>
  if n = 0 then onNoResponse e s
  else if n = 1 then .err .shortFrame s
  else if s.frameByte 1 ≠ e.tn then .err .cidMismatch s
  else byPcb s

/-- Accept a part (R118, R119, R125), if the payload accepted with it does not exceed the in capacity (R124). -/
def acceptPart (e : Target) (n : Nat) : Op Unit := fun s =>
  if s.acc + (n - 2) > s.a.w2.toNat then .err .overflow s
  else .ok () (s.takePart e n)

/-- Step 4 (R118): the last, or only, block of the answer. -/
def onFinal (e : Target) (n : Nat) : Op After :=
  (acceptPart e n).andThen <| (Op.upd (State.setEState .complete)).andThen fun s =>
    .ok (.done (BitVec.ofNat 32 s.acc) 0#32) s

/-- Step 5 (R119, R120): the first part of a chained answer; the ACK carries the toggled mark. -/
def onChained (e : Target) (n : Nat) : Op After := fun s =>
  if s.level = 1 then .err .chainDepth s
  else ((acceptPart e n).andThen <|
    (Op.upd fun s => s.levelUp.setEState .chaining).andThen <|
    (sendRBlock (!e.mark) e.tn).andThen <| (Op.upd (State.setEState .awaitingResponse)).andThen (readAnswer e)) s

/-- Step 6 (R121): a waiting-time extension, echoed with the value in byte 2. -/
def onExtension (e : Target) (n : Nat) : Op After := fun s =>
  if n < 3 then .err .shortFrame s
  else if s.r = Config.retryMax then .err .retries s
  else ((Op.upd fun s => s.retried.setEState .extensionRequested).andThen <|
    (sendFrame [pcbWtxByte, e.tn, s.frameByte 2] 8).andThen <|
    (Op.upd (State.setEState .awaitingResponse)).andThen (readAnswer e)) s

/-- One turn of the engine's loop on the frame it has read (R113). -/
def engineTurn (byPcb : Target → Nat → Op After) (s : State) : Host.Outcome State Fault Refusal :=
  match s.exchange? with
  | none => .fault .noExchange
  | some (e, n) => command (inEngine (classified e n (byPcb e n))) s

/-- `PCB_I` (R118): with the current mark it ends the exchange; with the other mark it is a bad PCB (R62, R123). -/
def execPcbI (mark : Bool) (s : State) : Host.Outcome State Fault Refusal :=
  engineTurn (fun e n => if mark = e.mark then onFinal e n else Op.raise .badPcb) s

/-- `PCB_I_CHAINED` (R119): with the current mark the first part of a chained answer; with the other mark a bad PCB. -/
def execPcbIChained (mark : Bool) (s : State) : Host.Outcome State Fault Refusal :=
  engineTurn (fun e n => if mark = e.mark then onChained e n else Op.raise .badPcb) s

/-- `PCB_R` (log entry 13). Where the read brought no byte it is the R-block the engine sends, the NAK (R115, in
`classified`); a received R-block, with either mark, is a bad PCB (R62, R123). -/
def execPcbR (_mark : Bool) (s : State) : Host.Outcome State Fault Refusal :=
  engineTurn (fun _ _ => Op.raise .badPcb) s

/-- `PCB_S_WTX` (R121). -/
def execPcbSWtx (s : State) : Host.Outcome State Fault Refusal :=
  engineTurn onExtension s

/-- A control byte outside the patterns of R58 to R60 (R62, R123). -/
def unknownPcb (s : State) : Host.Outcome State Fault Refusal :=
  engineTurn (fun _ _ => Op.raise .badPcb) s

/-- The first failing check of a probe answer of `n` bytes, 0 if none fails (R130). -/
def probeReason (e : Target) (n : Nat) (s : State) : Nat :=
  if n = 0 then 1
  else if n ≠ 2 then 2
  else if s.frameByte 1 ≠ e.tn then 3
  else if (s.frameByte 0).getLsbD 0 ≠ e.mark then 4
  else 0

/-- The read of a probe: a count above 508 is not read and is reported as a length other than 2 (R130). -/
def probeRead (e : Target) : Op Nat :=
  ((readWithTimeout Config.maxRead e.timeout).bind fun n => Op.get (probeReason e n)).catching fun c =>
    if c = .rxOverflow then Op.ret 2 else Op.raise c

/-- `ProbeOne(e)` (R130): the reason of removal, 0 for a target that is alive. -/
def probeOne (e : Target) : Op Nat :=
  (sendRBlock e.mark e.tn).andThen <| (probeRead e).bind fun reason =>
    if reason = 0 then Op.ret 0
    else (Op.upd (State.removeTarget e.tn)).andThen (Op.ret reason)

/-- `PROBE` (R131). -/
def execProbe (s : State) : Host.Outcome State Fault Refusal :=
  command (fun s =>
    match s.target? s.operandByte with
    | none => .err .noTarget s
    | some e => ((probeOne e).bind fun reason =>
        Op.ret (.done (if reason = 0 then 1#32 else 0#32) (BitVec.ofNat 32 reason))) s) s

/-- The pass of `PROBE_ALL` over the entries still to be probed, with the number removed so far (R132). -/
def probeEach : List Target → Nat → Op After
  | [], removed => fun s => .ok (.done (BitVec.ofNat 32 removed) (BitVec.ofNat 32 s.regcnt)) s
  | e :: es, removed => fun s =>
    match probeOne e s with
    | .ok reason s' => probeEach es (if reason = 0 then removed else removed + 1) s'
    | .err c s' => .ok (.failed c (BitVec.ofNat 32 removed)) s'
    | .cut s' => .cut s'

/-- `PROBE_ALL` (R132): the registry entries in registry order, as they stand at accept. -/
def execProbeAll (s : State) : Host.Outcome State Fault Refusal :=
  command (fun s => probeEach s.registry 0 s) s

end Sys2Proof.Machine
end

