-- ==== Sys2Proof/Machine/Crc.lean ====
section
/-!
DEFINITION. The CRC generators (43_crc.md): the core step, the fold, the bit-serial form, and the commands `CRC_A` and
`CRC_B`.
-/

namespace Sys2Proof.Machine

/-- `UpdateCrc(crc, b)` (R100): `x` is 8 bits throughout. -/
def updateCrc (crc : Half) (b : Byte) : Half :=
  let x : Byte := b ^^^ crc.extractLsb' 0 8
  let x : Byte := x ^^^ (x <<< 4)
  (crc >>> 8) ^^^ (x.setWidth 16 <<< 8) ^^^ (x.setWidth 16 <<< 3) ^^^ (x.setWidth 16 >>> 4)

/-- `Crc(seed, data)` (R101). -/
def crc (seed : Half) (data : List Byte) : Half := data.foldl updateCrc seed

/-- One shift of the bit-serial form, with data bit `d` (R102). -/
def crcShift (c : Half) (d : Bool) : Half :=
  if xor (c.getLsbD 0) d then (c >>> 1) ^^^ 0x8408#16 else c >>> 1

/-- The bit-serial form of a byte, least-significant bit first (R102). -/
def crcSerial (c : Half) (b : Byte) : Half := (List.range 8).foldl (fun c i => crcShift c (b.getLsbD i)) c

/-- The input of a CRC command, `TXBUF[0 .. A0)`, its length checked (R104, R105). -/
def crcInput : Op (List Byte) := fun s =>
  if s.a.w0.toNat > Config.bufSize then .err .argLen s else .ok (s.txBytes 0 s.a.w0.toNat) s

/-- `CRC_A` (R104): no output inversion. -/
def execCrcA (s : State) : Host.Outcome State Fault Refusal :=
  command (crcInput.bind fun d => Op.ret (.done ((crc Config.crcASeed d).setWidth 32) 0#32)) s

/-- `CRC_B` (R105): the output is complemented once, after the last byte. -/
def execCrcB (s : State) : Host.Outcome State Fault Refusal :=
  command (crcInput.bind fun d => Op.ret (.done ((~~~(crc Config.crcBSeed d)).setWidth 32) 0#32)) s

end Sys2Proof.Machine
end

