-- ==== Sys2Proof/Machine/Registry.lean ====
section
/-!
DEFINITION. The registry commands (45_registry.md): `TGT_ALLOC`, `TGT_INSTALL`, `TGT_REMOVE` and `TGT_READ`. None uses
the bus.
-/

namespace Sys2Proof.Machine

/-- `TGT_ALLOC` (R134): the number is reported, not reserved. -/
def execTgtAlloc (s : State) : Host.Outcome State Fault Refusal :=
  command (fun s =>
    match s.lowestFree with
    | none => .err .regFull s
    | some t => .ok (.done (BitVec.ofNat 32 t) 0#32) s) s

/-- The entry a `TGT_INSTALL` adds (R135): uid `TXBUF[0..4)`, atqb `TXBUF[4..16)`, mark 0. -/
def State.newTarget (s : State) : Target where
  tn := s.operandByte
  uid := s.txBytes 0 4
  atqb := s.txBytes 4 12
  fwt := s.a.w1
  mark := false

/-- `TGT_INSTALL` (R135). -/
def execTgtInstall (s : State) : Host.Outcome State Fault Refusal :=
  command (fun s =>
    let tn := s.operandByte
    if tn.toNat < 1 ∨ tn.toNat > Config.nTargets then .err .argTarget s
    else if (s.target? tn).isSome then .err .dupTarget s
    else .ok (.done 0#32 0#32) (s.install s.newTarget)) s

/-- `TGT_REMOVE` (R136). -/
def execTgtRemove (s : State) : Host.Outcome State Fault Refusal :=
  command (fun s =>
    let tn := s.operandByte
    if (s.target? tn).isSome then .ok (.done 0#32 0#32) (s.removeTarget tn) else .err .noTarget s) s

/-- `TGT_READ` (R137). -/
def execTgtRead (s : State) : Host.Outcome State Fault Refusal :=
  command (fun s =>
    let tn := s.operandByte
    match s.target? tn with
    | none => .err .noTarget s
    | some e => .ok (.done e.fwt (targetWord e (s.targetIndex tn)))
        ((s.storeRx 0 e.uid).storeRx 4 e.atqb)) s

end Sys2Proof.Machine
end

