-- ==== Sys2Proof/Machine/Dispatch.lean ====
section
/-!
DEFINITION. The dispatch of an instruction to its meaning, one arm per row of opcode_table.json.
-/

namespace Sys2Proof.Machine

def exec (i : Instr) (s : State) : Host.Outcome State Fault Refusal :=
  match i with
  -- the CRC generators (43_crc.md)
  | .crcA => Sys2Proof.Machine.execCrcA s
  | .crcB => Sys2Proof.Machine.execCrcB s
  -- the SPI frame exchanger (40_transport.md, 41_register_access.md, 42_frame_exchange.md)
  | .xchg => Sys2Proof.Machine.execXchg s
  | .regRd => Sys2Proof.Machine.execRegRd s
  | .regWr => Sys2Proof.Machine.execRegWr s
  | .regOr => Sys2Proof.Machine.execRegOr s
  | .regAnd => Sys2Proof.Machine.execRegAnd s
  | .sendData => Sys2Proof.Machine.execSendData s
  | .readData => Sys2Proof.Machine.execReadData s
  | .rxStatus => Sys2Proof.Machine.execRxStatus s
  | .readTmo => Sys2Proof.Machine.execReadTmo s
  -- the block engine (44_block_protocol.md)
  | .transceive => Sys2Proof.Machine.execTransceive s
  | .probe => Sys2Proof.Machine.execProbe s
  | .probeAll => Sys2Proof.Machine.execProbeAll s
  -- the target registry (45_registry.md)
  | .tgtAlloc => Sys2Proof.Machine.execTgtAlloc s
  | .tgtInstall => Sys2Proof.Machine.execTgtInstall s
  | .tgtRemove => Sys2Proof.Machine.execTgtRemove s
  | .tgtRead => Sys2Proof.Machine.execTgtRead s
  -- the protocol control bytes the engine acts on (30_encoding.md R58 to R62)
  | .pcbI mark => Sys2Proof.Machine.execPcbI mark s
  | .pcbIChained mark => Sys2Proof.Machine.execPcbIChained mark s
  | .pcbR mark => Sys2Proof.Machine.execPcbR mark s
  | .pcbSWtx => Sys2Proof.Machine.execPcbSWtx s

end Sys2Proof.Machine
end

