-- ==== Sys2Proof/Machine/Fetch.lean ====
section
/-!
DEFINITION. Where the machine takes its next instruction from. The block has no program counter and fetches nothing
from a memory (R17, R49): the sequencer's first step takes the command `CMD.OPC` names (R140), and the block engine
takes the control byte of the frame it has just read, `FRAME[0]` (R62, R113).
-/

namespace Sys2Proof.Machine

/-- The instruction the sequencer's step names, if its byte decodes to one. Where the engine's read brought no byte it
is the R-block the engine itself sends, with the target's current mark (R115). -/
def fetch (s : State) : Option Instr :=
  match s.seq with
  | .idle => none
  | .start => accepted (decodeOpc s.opc)
  | .received 0 => s.exchange?.map fun x => .pcbR x.1.mark
  | .received (_ + 1) => accepted (decodePcb (s.frameByte 0))

/-- What the sequencer does where its byte is no instruction: a reserved command completes with `E_BAD_CMD` (R63), a
frame with an unknown control byte is classified like any other (R62, R123). -/
def noInstruction (s : State) : Host.Outcome State Fault Refusal :=
  match s.seq with
  | .idle => .next s
  | .start => command (Op.raise .badCmd) s
  | .received _ => unknownPcb s

/-- The target of the exchange that `inExchange` makes up. -/
def fetchTarget : Target where
  tn := 1#8
  uid := [0#8, 0#8, 0#8, 0#8]
  atqb := List.replicate 12 0#8
  fwt := 0#32
  mark := false

/-- The state in which the engine, in an exchange with target 1, has read the frame `[b, 1, 0]` and is about to act on
its control byte `b`. The target is installed if it is not. -/
def State.inExchange (b : Byte) (s : State) : State :=
  let s := if (s.target? 1#8).isSome then s else s.install fetchTarget
  let s := { s with opc := 0x40#8, busy := true, done := false, estate := .awaitingResponse,
                    seq := .received 3, r := 0, level := 0, acc := 0,
                    a := { w0 := 1#32, w1 := 0#32, w2 := 1024#32, w3 := 0#32 } }
  s.storeFrame [b, 1#8, 0#8]

/-- Place an encoded byte where the next step takes its instruction from: a control byte in the frame of an exchange,
any other byte in `CMD`, as the host's write places it (R140). -/
def State.placeByte (b : Byte) (s : State) : State :=
  match accepted (decodeOpc b), accepted (decodePcb b) with
  | none, some _ => s.inExchange b
  | _, _ => s.accept b

end Sys2Proof.Machine
end

