-- ==== Sys2Proof/Machine/Step.lean ====
section
/-!
DEFINITION. One step of the machine. While no command runs it is the host side's next event (R34 to R36, R155); while
one runs it is the instruction the sequencer's step names, run to the command's completion or to the engine's next
classification.
-/

namespace Sys2Proof.Machine

/-- One step. -/
def step (s : State) : Host.Outcome State Fault Refusal :=
  match s.seq with
  | .idle => .next s.hostTurn
  | _ =>
    match fetch s with
    | some i => exec i s
    | none => noInstruction s

/-- The instruction of `nbits` bits `w` stored where `step` takes its next instruction from (log entry 2). -/
def State.withFetchWord (s : State) (nbits w : Nat) : State := s.placeByte (BitVec.ofNat 8 (w % 2 ^ nbits))

end Sys2Proof.Machine
end

