-- ==== Sys2Proof/Safety.lean ====
section
/-!
DEFINITION. The terms the statements use: what holds of every state a run reaches (`Inv`), what the world outside may
do during a command, and what a select window and a card frame look like on the bus.
-/

namespace Sys2Proof.Machine

/-! ## The invariant -/

/-- R27 (1), R28: a registry entry as the block stores it. -/
def Target.ok (e : Target) : Bool :=
  decide (1 ≤ e.tn.toNat ∧ e.tn.toNat ≤ Config.nTargets ∧ e.uid.length = 4 ∧ e.atqb.length = 12)

/-- R27: every target number is in 1..14 (so 0 is never stored), and no two entries have the same one. -/
def registryOk (l : List Target) : Prop := (∀ e ∈ l, e.ok = true) ∧ (l.map Target.tn).Nodup

/-- What holds of the engine's state where it is about to classify a frame of `n` bytes (R30, R113). -/
structure EngineOk (s : State) (n : Nat) : Prop where
  opc : s.opc = 0x40#8
  target : (s.target? s.operandByte).isSome = true
  estate : s.estate = .awaitingResponse
  count : n ≤ Config.maxRead
  retries : s.r ≤ Config.retryMax
  level : s.level ≤ 1
  acc : s.acc ≤ s.a.w2.toNat
  cap : s.a.w2.toNat ≤ Config.bufSize

/-- What holds of every state a run from reset reaches. -/
structure Inv (s : State) : Prop where
  /-- R27 -/
  registry : registryOk s.registry
  /-- `TXBUF` and `RXBUF` are in canonical form, within the window (R18) -/
  mem : Memory.wf Config.txBase (Config.rxBase + Config.bufSize) s.mem = true
  /-- `FRAME` is in canonical form, within its 508 bytes (R29) -/
  frame : Memory.wf 0 Config.maxRead s.frame = true
  /-- R30: `seq` is `IDLE` exactly when `BUSY` = 0 -/
  busy : s.busy = true ↔ s.seq ≠ .idle
  /-- R22: `DONE` is cleared at accept and set at completion -/
  done : s.busy = true → s.done = false
  /-- R142: `RESULT` is −1 after an error -/
  sentinel : s.err ≠ .ok → s.result = failResult
  /-- R73, R74: between two steps select is deasserted -/
  sel : s.sel = false
  /-- R155: while `rst_n` = 0 the block holds the reset state; `mosi` is unspecified in it (R156), and the parameters
  and the record of the world outside are no part of it (log entry 12) -/
  held : s.rstn = false → s = { State.reset with rstn := false, mosi := s.mosi, cfg := s.cfg, env := s.env }
  /-- R30: the ranges of the sequencer's counters -/
  counters : s.prev ≤ 511 ∧ s.r ≤ Config.retryMax ∧ s.level ≤ 1 ∧ s.acc ≤ Config.bufSize
  /-- R113 -/
  engine : ∀ n, s.seq = .received n → EngineOk s n

/-! ## The world outside during a command -/

/-- The host makes no access, and no reset happens, before the running command has completed. -/
def State.quiet (s : State) : Bool :=
  match s.env.host with
  | [] => true
  | .await :: _ => true
  | _ => false

/-- `rst_n` is not driven low by any event the host side has in store. -/
def State.noReset (s : State) : Bool := s.env.host.all fun e => e != .rst false

/-- The environment has these outcomes of `WaitBusy` and these MISO bytes in store next. -/
def State.supplied (s : State) (busy : List Bool) (miso : List Byte) : Prop :=
  busy <+: s.env.busy ∧ miso <+: s.env.miso

/-- The host reads `STATUS` once while the command runs, before its elementary operation number `j` (counted from 1;
with `j` = 0 before the command's first step), and makes no other access before the completion (log entry 2). -/
def State.readsStatus (s : State) (j : Nat) : Prop :=
  s.env.host = List.replicate j .pass ++ [.access { op := .read, off := 0x018#12 }, .await]

/-- The run of `i` from `s` answers a next state, and the host's one read of `STATUS` in it has found the engine in the
state `e`, with `BUSY` = 1 and `DONE` = 0. -/
def seesEState (i : Instr) (s : State) (e : EState) : Prop :=
  ∃ t v, exec i s = .next t ∧ t.env.replies = s.env.replies ++ [.data v] ∧ v.extractLsb' 16 3 = e.code ∧
    v.getLsbD 0 = true ∧ v.getLsbD 1 = false

/-- A command is over: `BUSY` = 0, `DONE` = 1, `seq` = `IDLE` (R142). -/
def State.completed (s : State) : Bool := !s.busy && s.done && s.seq == .idle

/-- The transport errors, class 0 (R74, R148). -/
def ErrCode.isTransport (c : ErrCode) : Bool := c == .notReady || c == .latchTimeout || c == .idleTimeout

/-- What the record `e` of the world outside becomes in a run during which the host side is quiet: the peer side's
events `es` are appended, `nb` supplied outcomes of waits and `nm` supplied MISO bytes are taken, time does not go back,
and the rest that a host can observe is as before. -/
structure Env.After (e e' : Env) (es : List BusEvent) (nb nm : Nat) : Prop where
  host : e'.host = e.host
  replies : e'.replies = e.replies
  busy : e'.busy = e.busy.drop nb
  miso : e'.miso = e.miso.drop nm
  bus : e'.bus = e.bus ++ es
  time : e.time ≤ e'.time
  rxDrawn : e'.rxDrawn = e.rxDrawn
  epoch : e'.epoch = e.epoch

/-! ## The bus -/

/-- The events of steps 1 to 4 of a select window (R68 to R71), with the settle delay in µs. -/
def windowStart (settleUs : Nat) (w rd : List Byte) : List BusEvent :=
  [.wait false Config.busyBudgetMs true, .sel true, .delay settleUs] ++ w.map BusEvent.out ++ rd.map BusEvent.filler

/-- The events of a select window that succeeds (R67). -/
def windowTrace (settleUs : Nat) (w rd : List Byte) : List BusEvent :=
  windowStart settleUs w rd ++ [.wait true Config.latchMs true, .sel false, .wait false Config.busyBudgetMs true]

/-- The events of a select window whose ready wait times out (R68). -/
def notReadyTrace : List BusEvent := [.wait false Config.busyBudgetMs false]

/-- The events of a select window whose latch wait times out (R72). -/
def latchTimeoutTrace (settleUs : Nat) (w rd : List Byte) : List BusEvent :=
  windowStart settleUs w rd ++ [.wait true Config.latchMs false, .sel false]

/-- The events of a select window whose idle wait times out (R73). -/
def idleTimeoutTrace (settleUs : Nat) (w rd : List Byte) : List BusEvent :=
  windowStart settleUs w rd ++ [.wait true Config.latchMs true, .sel false, .wait false Config.busyBudgetMs false]

/-- The outcomes of `WaitBusy` that let `n` select windows succeed. -/
def readyFor (n : Nat) : List Bool := List.replicate (3 * n) true

/-- The events of a transport frame that succeeds (R76). -/
def frameTrace (cfg : Config.Params) (w rd : List Byte) : List BusEvent :=
  if cfg.readFraming = .singleWindow ∨ rd = [] then windowTrace cfg.settleUs w rd
  else windowTrace cfg.settleUs w [] ++ windowTrace cfg.settleUs [] rd

/-- The number of select windows of a transport frame with `r` read bytes (R76). -/
def frameWindows (cfg : Config.Params) (r : Nat) : Nat :=
  if cfg.readFraming = .singleWindow ∨ r = 0 then 1 else 2

/-- A way a select window or a transport frame can fail: the outcomes of its waits and the MISO bytes it captures, the
error it raises, and its bus events. -/
structure FrameFailure where
  busy : List Bool
  miso : List Byte
  code : ErrCode
  bus : List BusEvent

/-- The ways a select window with the write bytes `w`, which captures the bytes `rd`, can fail: at step 1, 5 or 6
(R68, R72, R73). -/
def windowFailures (settleUs : Nat) (w rd : List Byte) : List FrameFailure :=
  [{ busy := [false], miso := [], code := .notReady, bus := notReadyTrace },
   { busy := [true, false], miso := rd, code := .latchTimeout, bus := latchTimeoutTrace settleUs w rd },
   { busy := [true, true, false], miso := rd, code := .idleTimeout, bus := idleTimeoutTrace settleUs w rd }]

/-- The ways a transport frame can fail (R75, R76): in its one window, or in the first or the second of its two. -/
def frameFailures (cfg : Config.Params) (w rd : List Byte) : List FrameFailure :=
  if cfg.readFraming = .singleWindow ∨ rd = [] then windowFailures cfg.settleUs w rd
  else windowFailures cfg.settleUs w [] ++ (windowFailures cfg.settleUs [] rd).map fun f =>
    { f with busy := readyFor 1 ++ f.busy, bus := windowTrace cfg.settleUs w [] ++ f.bus }

/-- The MOSI bytes of a bus trace, in order: the write bytes and a filler for each byte read (R42). -/
def mosiBytes : List BusEvent → List Byte
  | [] => []
  | .out b :: es => b :: mosiBytes es
  | .filler _ :: es => Config.filler :: mosiBytes es
  | _ :: es => mosiBytes es

/-- The byte the output `mosi` is left at by a bus trace, from the byte `m` it was at before (R31, R70, R71). -/
def lastDriven : Byte → List BusEvent → Byte
  | m, [] => m
  | _, .out b :: es => lastDriven b es
  | _, .filler _ :: es => lastDriven Config.filler es
  | m, _ :: es => lastDriven m es

/-- The number of select windows opened in a bus trace. -/
def windowsOpened (es : List BusEvent) : Nat := es.count (.sel true)

/-- Whether a bus event is a `Delay`. -/
def BusEvent.isDelay : BusEvent → Bool
  | .delay _ => true
  | _ => false

/-- The number of `Delay`s in a bus trace: a settle delay for each select window (R69), and those between polls (R89). -/
def delaysMade (es : List BusEvent) : Nat := es.countP BusEvent.isDelay

/-- What bus activity leaves of a state: select deasserted, `mosi` at the last byte driven, and the record of the world
outside; all the rest as it was. -/
def State.ranBus (es : List BusEvent) (e : Env) (s : State) : State :=
  { s with sel := false, mosi := lastDriven s.mosi es, env := e }

/-- No byte of `TXBUF`, `RXBUF` and `FRAME` reads differently. -/
def sameBytes (s t : State) : Prop :=
  (∀ off, t.memByte off = s.memByte off) ∧ ∀ k, t.frameByte k = s.frameByte k

/-- `RXBUF[k .. k+len(bs))` reads as `bs`, and every other byte of `TXBUF` and `RXBUF` as before. -/
def rxStored (s t : State) (k : Nat) (bs : List Byte) : Prop :=
  (∀ i (h : i < bs.length), t.rxByte (k + i) = bs[i]) ∧
    ∀ off, ¬ (Config.rxBase + k ≤ off ∧ off < Config.rxBase + k + bs.length) → t.memByte off = s.memByte off

/-- `FRAME[0 .. len(bs))` reads as `bs`, and every other byte of `FRAME` as before. -/
def frameStored (s t : State) (bs : List Byte) : Prop :=
  (∀ i (h : i < bs.length), t.frameByte i = bs[i]) ∧ ∀ k, bs.length ≤ k → t.frameByte k = s.frameByte k

/-- The write bytes of a register read (R56). -/
def regReadBytes (cfg : Config.Params) (addr : Byte) : List Byte := [cfg.opReadReg, addr]

/-- The write bytes of a send frame with all bits of the last byte valid (R56, R114). -/
def sendBytesOf (cfg : Config.Params) (data : List Byte) : List Byte := [cfg.opSendData, 0#8] ++ data

/-- The write bytes of a read frame (R56). -/
def readFrameBytes (cfg : Config.Params) : List Byte := [cfg.opReadData, cfg.readDataArg]

/-- The events of one receive-status poll that answers the bytes `st` (R88). -/
def pollTrace (cfg : Config.Params) (st : List Byte) : List BusEvent :=
  frameTrace cfg (regReadBytes cfg cfg.addrRxStatus) st

/-- The events of a sequence of polls, a delay of 1 ms between two (R89). -/
def pollsTrace (cfg : Config.Params) : List (List Byte) → List BusEvent
  | [] => []
  | [st] => pollTrace cfg st
  | st :: sts => pollTrace cfg st ++ .delay (Config.pollMs * 1000) :: pollsTrace cfg sts

/-- The count a receive status reports (R57). -/
def pollCount (st : List Byte) : Nat := (rxStatusOf st).1

/-- Whether `counts` is the whole sequence of counts that the polls of a read-with-timeout report, with `left` polls
allowed after the first of them and `prev` the count before it (R89 to R91): it ends at the first count that is
nonzero and equal to the one before it, or when no poll is left. -/
def pollsEnd (prev left : Nat) : List Nat → Bool
  | [] => false
  | [c] => decide (left = 0 ∨ c ≠ 0 ∧ c = prev)
  | c :: cs => decide (0 < left ∧ ¬ (c ≠ 0 ∧ c = prev)) && pollsEnd c (left - 1) cs

/-- The count of the poll before the last, `p` where there is only one (R89: `prev` at the end of the loop). -/
def pollsPrev : Nat → List Nat → Nat
  | p, [] => p
  | p, [_] => p
  | _, c :: cs => pollsPrev c cs

/-- The events of a card frame sent (R86), all bits of the last byte valid. -/
def sendTrace (cfg : Config.Params) (data : List Byte) : List BusEvent :=
  frameTrace cfg (sendBytesOf cfg data) []

/-! ## The first frame of a command -/

/-- R107, R111: the operands of a `TRANSCEIVE` pass its checks and its target is installed, so that the engine is
entered (R113). -/
def State.engineRuns (s : State) : Prop :=
  s.operandByte ≠ 0#8 ∧ (s.target? s.operandByte).isSome = true ∧ s.a.w1.toNat ≤ Config.maxTxPayload ∧
    s.a.w2.toNat ≤ Config.bufSize

/-- Where the operands of the command `i` pass its checks: its first transport frame, with the write bytes `w` and `n`
read bytes, and the state `u` that an error in that frame leaves, but for what bus activity and the completion
change. -/
def firstFrame (s : State) (i : Instr) (w : List Byte) (n : Nat) (u : State) : Prop :=
  match i with
  | .xchg => s.a.w0.toNat ≤ 1024 ∧ s.a.w1.toNat ≤ 1024 ∧ 0 < s.a.w0.toNat + s.a.w1.toNat ∧
      w = s.txBytes 0 s.a.w0.toNat ∧ n = s.a.w1.toNat ∧ u = s
  | .regRd => w = regReadBytes s.cfg s.operandByte ∧ n = 4 ∧ u = s
  | .regWr => w = [s.cfg.opWriteReg, s.operandByte] ++ bytesLe32 s.a.w1 ∧ n = 0 ∧ u = s
  | .regOr => w = [s.cfg.opWriteRegOr, s.operandByte] ++ bytesLe32 s.a.w1 ∧ n = 0 ∧ u = s
  | .regAnd => w = [s.cfg.opWriteRegAnd, s.operandByte] ++ bytesLe32 s.a.w1 ∧ n = 0 ∧ u = s
  | .sendData => s.a.w0.toNat ≤ 260 ∧ 1 ≤ s.a.w1.toNat ∧ s.a.w1.toNat ≤ 8 ∧
      w = [s.cfg.opSendData, validBitsCode s.a.w1.toNat] ++ s.txBytes 0 s.a.w0.toNat ∧ n = 0 ∧ u = s
  | .readData => s.a.w0.toNat ≤ 508 ∧ w = readFrameBytes s.cfg ∧ n = s.a.w0.toNat ∧ u = s
  | .rxStatus => w = regReadBytes s.cfg s.cfg.addrRxStatus ∧ n = 4 ∧ u = s
  | .readTmo => s.a.w0.toNat ≤ 508 ∧ w = regReadBytes s.cfg s.cfg.addrRxStatus ∧ n = 4 ∧
      u = { s with k := 0, prev := 0 }
  | .transceive => n = 0 ∧
      (s.operandByte = 0#8 ∧ s.a.w1.toNat ≤ 260 ∧ s.a.w2.toNat ≤ 1024 ∧
          ¬ (1 ≤ s.a.w1.toNat ∧ s.txByte 0 ∈ s.cfg.authOpcodes) ∧
          w = sendBytesOf s.cfg (s.txBytes 0 s.a.w1.toNat) ∧ u = s ∨
        s.engineRuns ∧ (∃ e, s.target? s.operandByte = some e ∧
          w = sendBytesOf s.cfg ([pcbIByte e.mark, e.tn] ++ s.txBytes 0 s.a.w1.toNat)) ∧
          u = { s with r := 0, level := 0, acc := 0, estate := .failed })
  | .probe => (∃ e, s.target? s.operandByte = some e ∧ w = sendBytesOf s.cfg [pcbRByte e.mark, e.tn]) ∧ n = 0 ∧ u = s
  | .probeAll => (∃ e es, s.registry = e :: es ∧ w = sendBytesOf s.cfg [pcbRByte e.mark, e.tn]) ∧ n = 0 ∧ u = s
  | _ => False

/-! ## Answers to a read-with-timeout -/

/-- What the peer answers to a read-with-timeout: the bytes of the receive-status reads, four each, and the bytes of
the frame read, none where no frame is read. -/
structure Answer where
  polls : List (List Byte)
  bytes : List Byte
  deriving DecidableEq, Repr

/-- The counts the polls report. -/
def Answer.counts (a : Answer) : List Nat := a.polls.map pollCount

/-- The count of the last poll. -/
def Answer.count (a : Answer) : Nat := a.counts.getLastD 0

/-- The polls are the whole poll sequence of a read with timeout `T` (R89 to R91). -/
def Answer.polled (a : Answer) (T : Nat) : Prop :=
  (∀ st ∈ a.polls, st.length = 4) ∧ pollsEnd 0 T a.counts = true

/-- A whole answer to a read with capacity `cap` and timeout `T` whose count fits; count 0 is no response (R92). -/
def Answer.fits (a : Answer) (cap T : Nat) : Prop := a.polled T ∧ a.bytes.length = a.count ∧ a.count ≤ cap

/-- A whole answer whose count exceeds the capacity; no frame is read (R93). -/
def Answer.tooLong (a : Answer) (cap T : Nat) : Prop := a.polled T ∧ a.bytes = [] ∧ cap < a.count

/-- The number of select windows of the read. -/
def Answer.windows (cfg : Config.Params) (a : Answer) : Nat :=
  a.polls.length * frameWindows cfg 4 + if a.bytes = [] then 0 else frameWindows cfg a.bytes.length

/-- The MISO bytes of the read. -/
def Answer.miso (a : Answer) : List Byte := a.polls.flatten ++ a.bytes

/-- The events of the read. -/
def Answer.trace (cfg : Config.Params) (a : Answer) : List BusEvent :=
  pollsTrace cfg a.polls ++ if a.bytes = [] then [] else frameTrace cfg (readFrameBytes cfg) a.bytes

/-- What the read leaves in the sequencer's own state (R29, R30): the frame, the poll index and the count before the
last. -/
def State.heard (a : Answer) (s : State) : State :=
  { s.storeFrame a.bytes with k := a.polls.length - 1, prev := pollsPrev 0 a.counts }

/-- The environment supplies, after `n` select windows without read bytes, the answer `a`. -/
def State.answers (s : State) (n : Nat) (a : Answer) : Prop := s.supplied (readyFor (n + a.windows s.cfg)) a.miso

/-- The environment supplies, for each of these answers in turn, a select window without read bytes and the answer. -/
def State.answersAll (s : State) (as : List Answer) : Prop :=
  s.supplied (readyFor (as.map fun a => 1 + a.windows s.cfg).sum) (as.flatMap Answer.miso)

/-- What a probe of the entry `e` makes of an answer: the first failing check, 0 if none fails (R130). -/
def probeVerdict (e : Target) (a : Answer) : Nat :=
  if Config.maxRead < a.count then 2
  else match a.bytes with
    | [] => 1
    | [p, cid] => if cid ≠ e.tn then 3 else if p.getLsbD 0 ≠ e.mark then 4 else 0
    | _ => 2

/-- An answer to a probe of `e`, read or, with a count above 508, not read (R130). -/
def Answer.toProbe (a : Answer) (e : Target) : Prop :=
  a.fits Config.maxRead e.timeout ∨ a.tooLong Config.maxRead e.timeout

/-- The entries of a registry that a pass over it with these answers keeps (R132). -/
def probeKept (es : List Target) (as : List Answer) : List Target :=
  ((es.zip as).filter fun p => probeVerdict p.1 p.2 = 0).map Prod.fst

/-- The events of the probes of these entries in turn, with these answers (R130, R132). -/
def probesTrace (cfg : Config.Params) (es : List Target) (as : List Answer) : List BusEvent :=
  (es.zip as).flatMap fun p => sendTrace cfg [pcbRByte p.1.mark, p.1.tn] ++ p.2.trace cfg

/-- A registry with its marks wiped out: what a mark toggle leaves alone. -/
def unmarked (l : List Target) : List Target := l.map fun x => { x with mark := false }

/-- In `t` the target `e` of `s` has the other mark, and nothing else of the registry differs (R125). -/
def toggled (s t : State) (e : Target) : Prop :=
  t.target? e.tn = some { e with mark := !e.mark } ∧ (∀ tn, tn ≠ e.tn → t.target? tn = s.target? tn) ∧
    unmarked t.registry = unmarked s.registry

/-! ## Runs -/

/-- The state after `n` steps, if each answers a next state. -/
def stepN : Nat → State → Option State
  | 0, s => some s
  | n + 1, s =>
    match step s with
    | .next t => stepN n t
    | _ => none

/-- R147: the error codes each command raises; the control bytes stand for the turns of the engine of `TRANSCEIVE`. -/
def errorsOf : Instr → List ErrCode
  | .crcA | .crcB => [.argLen]
  | .xchg => [.argLen, .notReady, .latchTimeout, .idleTimeout]
  | .regRd | .regWr | .regOr | .regAnd | .rxStatus => [.notReady, .latchTimeout, .idleTimeout]
  | .sendData => [.argLen, .argValidBits, .notReady, .latchTimeout, .idleTimeout]
  | .readData => [.argLen, .notReady, .latchTimeout, .idleTimeout]
  | .readTmo => [.argLen, .rxOverflow, .notReady, .latchTimeout, .idleTimeout]
  | .transceive => [.argLen, .unsupported, .noTarget, .rxOverflow, .notReady, .latchTimeout, .idleTimeout]
  | .probe => [.noTarget, .notReady, .latchTimeout, .idleTimeout]
  | .probeAll => [.notReady, .latchTimeout, .idleTimeout]
  | .tgtAlloc => [.regFull]
  | .tgtInstall => [.argTarget, .dupTarget]
  | .tgtRemove | .tgtRead => [.noTarget]
  | .pcbI _ | .pcbIChained _ | .pcbR _ | .pcbSWtx =>
    [.retries, .cidMismatch, .badPcb, .shortFrame, .chainDepth, .overflow, .rxOverflow, .notReady, .latchTimeout,
      .idleTimeout]

end Sys2Proof.Machine
end

