-- ==== Sys2Proof/Certificates/Slice0/Obligations.lean ====
section
/-!
DEFINITION. The statements for the provers. The environment of a run is given by the tapes of supplied outcomes
(`State.supplied`, `State.answers`), where a statement needs one; a statement without such a premise holds in every
environment. `State.quiet` says that the host makes no access before the command completes. `State.complete` and
`State.completeError` let a free time pass in the record of the world outside, which is the model's choice (log
entry 4); no statement says how long it is.
-/

open Sys2Proof Sys2Proof.Machine

/-! ## Encodings -/

/-- R52, R53, R58 to R60, R62: a byte decodes, as a command code or as a protocol control byte, to exactly the
instruction it encodes; and bits 31:8 of a command word are ignored. -/
def Obligations.DecodeIsInverseOfEncode : Prop :=
  (∀ (f : Format) (b : Byte) (i : Instr), decode f b = .ok i ↔ i.wellFormed f = true ∧ encode i = b) ∧
  ∀ (hi : BitVec 24) (b : Byte), decodeCommandWord (hi ++ b : BitVec 32) = decodeOpc b

/-- R53, R58 to R60: a few words, written out from the tables. -/
def Obligations.WrittenWordsDecode : Prop :=
  decodeCommandWord 0x00000001#32 = .ok .crcA ∧ decodeCommandWord 0x00000010#32 = .ok .xchg ∧
  decodeCommandWord 0x00000022#32 = .ok .regOr ∧ decodeCommandWord 0x00000033#32 = .ok .readTmo ∧
  decodeCommandWord 0x00000040#32 = .ok .transceive ∧ decodeCommandWord 0x00000053#32 = .ok .tgtRead ∧
  decodePcb 0b00001011#8 = .ok (.pcbI true) ∧ decodePcb 0b00011010#8 = .ok (.pcbIChained false) ∧
  decodePcb 0b10101011#8 = .ok (.pcbR true) ∧ decodePcb 0b11111010#8 = .ok .pcbSWtx ∧
  decodeOpc 0x00#8 = .error (.reservedCommand 0x00#8) ∧ decodePcb 0xBA#8 = .error (.unknownPcb 0xBA#8)

/-- R57: the receive-status decode, and its place in the register value. -/
def Obligations.ReceiveStatusDecode : Prop :=
  ∀ s0 s1 s2 s3 : Byte,
    rxStatusOf [s0, s1, s2, s3] = (s0.toNat + 256 * (s1.getLsbD 0).toNat, s1.toNat / 32) ∧
    s0.toNat + 256 * (s1.getLsbD 0).toNat = ((le32 s0 s1 s2 s3).extractLsb' 0 9).toNat ∧
    s1.toNat / 32 = ((le32 s0 s1 s2 s3).extractLsb' 13 3).toNat

/-- R19, R22, R23, R147: where the fields stand in the words read at `STATUS` and `CTRL`, and the numbers of `ESTATE` and
`ERR` in them. -/
def Obligations.StatusFields : Prop :=
  ∀ s : State,
    s.statusWord.getLsbD 0 = s.busy ∧ s.statusWord.getLsbD 1 = s.done ∧ s.statusWord.getLsbD 2 = s.ovr ∧
    s.statusWord.extractLsb' 3 5 = 0#5 ∧ s.statusWord.extractLsb' 8 8 = s.err.code ∧
    s.statusWord.extractLsb' 16 3 = s.estate.code ∧ s.statusWord.extractLsb' 19 5 = 0#5 ∧
    (s.regcnt ≤ 14 → (s.statusWord.extractLsb' 24 4).toNat = s.regcnt) ∧ s.statusWord.extractLsb' 28 4 = 0#4 ∧
    s.ctrlWord.getLsbD 0 = s.crcEn ∧ s.ctrlWord.getLsbD 1 = s.ie ∧ s.ctrlWord.extractLsb' 2 30 = 0#30 ∧
    s.estate.code.toNat = (match s.estate with
      | .idle => 0 | .awaitingResponse => 1 | .chaining => 2 | .extensionRequested => 3 | .complete => 4
      | .failed => 5) ∧
    s.err.code = (match s.err with
      | .ok => 0x00#8
      | .notReady => 0x01#8 | .latchTimeout => 0x02#8 | .idleTimeout => 0x03#8
      | .argLen => 0x10#8 | .argValidBits => 0x11#8 | .argTarget => 0x12#8
      | .retries => 0x20#8 | .cidMismatch => 0x21#8 | .badPcb => 0x22#8 | .shortFrame => 0x23#8
      | .chainDepth => 0x24#8 | .overflow => 0x25#8 | .rxOverflow => 0x26#8
      | .regFull => 0x30#8 | .noTarget => 0x31#8 | .dupTarget => 0x32#8
      | .badCmd => 0x40#8 | .unsupported => 0x41#8)

/-! ## Steps -/

/-- R17, R62, R113, R140: where the byte the machine takes its next instruction from decodes to `i`, the step is `exec`
of `i`, with nothing around it; where the engine's read brought no byte the step is that of the R-block the engine
sends. While no command runs the step is the host side's next event: an access is answered (`HostReads`, `HostWrites`),
`rst_n` is driven (`ResetInput`), nothing else changes; with no event in store the state stays. How much of a run one
step is, the order of the host side's events and the time that passes before one are the model's choices (log entries 1,
2 and 4). A byte that decodes to no instruction is `ReservedCommand`'s and `RejectedFrames'`. -/
def Obligations.StepRunsDecoded : Prop :=
  ∀ s : State,
    (s.seq = .idle →
      (s.env.host = [] → step s = .next s) ∧
      ∀ ev es, s.env.host = ev :: es →
        let u := State.elapse 0 { s with env := { s.env with host := es } }
        step s = .next (match ev with
          | .access a => u.hostAccess a
          | .rst level => u.driveReset level
          | .pass => u
          | .await => u)) ∧
    (∀ i, s.seq = .start → decodeOpc s.opc = .ok i → step s = exec i s) ∧
    (∀ i n, s.seq = .received (n + 1) → decodePcb (s.frameByte 0) = .ok i → step s = exec i s) ∧
    ∀ e, s.seq = .received 0 → s.exchange? = some (e, 0) → step s = exec (.pcbR e.mark) s

/-- The model's placement of an encoded byte (log entry 2): in every state the very next step runs exactly that
instruction. -/
def Obligations.PlacedByteRuns : Prop :=
  ∀ (i : Instr) (s : State),
    step (s.withFetchWord 8 (encode i).toNat) = exec i (s.withFetchWord 8 (encode i).toNat)

/-- R63: a reserved command code completes at once with `E_BAD_CMD`, without bus activity. -/
def Obligations.ReservedCommand : Prop :=
  ∀ s : State, s.quiet = true → s.seq = .start → (∀ i : Instr, i.format = .cmd → encode i ≠ s.opc) →
    ∃ t, step s = .next t ∧ t = s.completeError .badCmd 0#32 ∧ sameBytes s t

/-! ## Reset -/

/-- R18, R156: the state after reset. -/
def Obligations.ResetState : Prop :=
  let s := State.reset
  s.crcEn = false ∧ s.ie = false ∧ s.opc = 0#8 ∧ s.arg = ⟨0#32, 0#32, 0#32, 0#32⟩ ∧ s.busy = false ∧ s.done = false ∧
  s.ovr = false ∧ s.err.code = 0x00#8 ∧ s.estate = .idle ∧ s.regcnt = 0 ∧ s.result = 0#32 ∧ s.result1 = 0#32 ∧
  s.registry = [] ∧ s.seq = .idle ∧ s.a = ⟨0#32, 0#32, 0#32, 0#32⟩ ∧ s.k = 0 ∧ s.prev = 0 ∧ s.r = 0 ∧ s.level = 0 ∧
  s.acc = 0 ∧ s.sel = false ∧ s.crcEnPin = false ∧ s.irq = false ∧ s.ctrlWord = 0#32 ∧ s.statusWord = 0#32

/-- R155, R157: what `rst_n` = 0 does while no command runs, what is held meanwhile, and the release. That the OPEN
parameters and the record of the world outside are kept is the model's choice (log entry 12); `mosi` is exempt, since
R156 leaves it unspecified (log entry 7). -/
def Obligations.ResetInput : Prop :=
  ∀ s : State,
    (s.rstn = true → ∃ t, s.driveReset false = t ∧
      t = { State.reset with rstn := false, mosi := t.mosi, cfg := s.cfg, env := t.env } ∧ t.env.host = s.env.host ∧
      t.env.bus = if s.sel then s.env.bus ++ [.sel false] else s.env.bus) ∧
    (Inv s → s.rstn = false →
      (∀ off v, s.hostAccess { op := .write v, off := off } =
        s.reply (if off.toNat % 4 = 0 then .wrote else .busError)) ∧
      (∀ off < 0x400, s.hostRead off = 0#32) ∧ s.driveReset false = s) ∧
    s.driveReset true = { s with rstn := true } ∧
    (Inv s → s.rstn = false → (s.driveReset true).busy = false ∧ (s.driveReset true).seq = .idle)

/-- R157: a reset while an instruction runs abandons it. Every next state of an instruction is either the end of its
run, with `rst_n` as it was, or the reset state, in which nothing is recorded as complete; and a reset that comes at
once always leaves the reset state. Where in a run a reset can land (log entry 2), and that the OPEN parameters and the
record of the world outside are kept (log entry 12), are the model's choices; `mosi` is exempt, since R156 leaves it
unspecified (log entry 7). -/
def Obligations.ResetAbandons : Prop :=
  ∀ (i : Instr) (s : State), s.busy = true → s.sel = false →
    (∀ t, exec i s = .next t →
      (t.rstn = s.rstn ∧ t.sel = false ∧ (t.completed = true ∨ ∃ n, t.seq = .received n)) ∨
      (t = { State.reset with rstn := false, mosi := t.mosi, cfg := s.cfg, env := t.env } ∧ s.noReset = false)) ∧
    ∀ es, s.env.host = .rst false :: es → (i.format = .cmd ∨ s.exchange?.isSome = true) →
      ∃ t, exec i s = .next t ∧ t = { State.reset with rstn := false, mosi := t.mosi, cfg := s.cfg, env := t.env } ∧
        t.env = { s.env with host := es, epoch := s.env.epoch + 1 }

/-! ## The host port -/

/-- R35, R38, R39: what a host read answers. It changes nothing but the record of answers; the word of `RXBUF` while
`BUSY` = 1 is a free value (log entry 6). -/
def Obligations.HostReads : Prop :=
  ∀ s : State,
    s.hostRead 0x000 = s.ctrlWord ∧ s.hostRead 0x004 = s.opc.setWidth 32 ∧ s.hostRead 0x008 = s.arg.w0 ∧
    s.hostRead 0x00C = s.arg.w1 ∧ s.hostRead 0x010 = s.arg.w2 ∧ s.hostRead 0x014 = s.arg.w3 ∧
    s.hostRead 0x018 = s.statusWord ∧ s.hostRead 0x01C = s.result ∧ s.hostRead 0x020 = s.result1 ∧
    (∀ k < 256, s.hostRead (0x400 + 4 * k) =
      le32 (s.txByte (4 * k)) (s.txByte (4 * k + 1)) (s.txByte (4 * k + 2)) (s.txByte (4 * k + 3))) ∧
    (s.busy = false → ∀ k < 256, s.hostRead (0x800 + 4 * k) =
      le32 (s.rxByte (4 * k)) (s.rxByte (4 * k + 1)) (s.rxByte (4 * k + 2)) (s.rxByte (4 * k + 3))) ∧
    (∀ off, (0x024 ≤ off ∧ off < 0x400 ∨ 0xC00 ≤ off) → s.hostRead off = 0#32) ∧
    (∀ off : BitVec 12, off.toNat % 4 = 0 → ∃ e, s.hostAccess { op := .read, off := off } = { s with env := e } ∧
      e = { s.env with replies := s.env.replies ++ [.data (s.hostRead off.toNat)], rxDrawn := e.rxDrawn } ∧
      (s.busy = false → e.rxDrawn = s.env.rxDrawn)) ∧
    ∀ off : BitVec 12, off.toNat % 4 ≠ 0 → s.hostAccess { op := .read, off := off } = s.reply .busError

/-- R36, R22, R144, R145: what a host write does, at every offset, whether or not a command runs. -/
def Obligations.HostWrites : Prop :=
  ∀ (s : State) (v : Word),
    s.hostWrite 0x018 v = { s with done := s.done && !v.getLsbD 1, ovr := s.ovr && !v.getLsbD 2 } ∧
    (s.busy = true → ∀ off, (off < 0x018 ∨ 0x400 ≤ off ∧ off < 0x800) → s.hostWrite off v = { s with ovr := true }) ∧
    (s.busy = false →
      s.hostWrite 0x000 v = { s with crcEn := v.getLsbD 0, ie := v.getLsbD 1 } ∧
      s.hostWrite 0x004 v = s.accept (v.extractLsb' 0 8) ∧
      s.hostWrite 0x008 v = { s with arg := { s.arg with w0 := v } } ∧
      s.hostWrite 0x00C v = { s with arg := { s.arg with w1 := v } } ∧
      s.hostWrite 0x010 v = { s with arg := { s.arg with w2 := v } } ∧
      s.hostWrite 0x014 v = { s with arg := { s.arg with w3 := v } } ∧
      ∀ off, 0x400 ≤ off → off < 0x800 → ∃ t, s.hostWrite off v = t ∧ t = { s with mem := t.mem } ∧
        (∀ i < 4, t.memByte (off + i) = v.extractLsb' (8 * i) 8) ∧
        ∀ x, ¬ (off ≤ x ∧ x < off + 4) → t.memByte x = s.memByte x) ∧
    (∀ off, (0x01C ≤ off ∧ off < 0x400 ∨ 0x800 ≤ off) → s.hostWrite off v = s) ∧
    (∀ off : BitVec 12, off.toNat % 4 = 0 → s.rstn = true →
      s.hostAccess { op := .write v, off := off } = (s.hostWrite off.toNat v).reply .wrote) ∧
    ∀ off : BitVec 12, off.toNat % 4 ≠ 0 → s.hostAccess { op := .write v, off := off } = s.reply .busError

/-- R34: an access of another width or alignment gets the bus's error response and changes no state of the block. That
the response is a recorded reply, and no stop of the machine, is the model's choice (log entry 9). -/
def Obligations.BusErrorResponse : Prop :=
  ∀ (s : State) (a : HostAccess), (a.width ≠ .w32 ∨ a.off.toNat % 4 ≠ 0) →
    s.hostAccess a = { s with env := { s.env with replies := s.env.replies ++ [.busError] } }

/-- R140: a write of `CMD` while `BUSY` = 0 is accepted, whatever its code, and what it leaves; while `BUSY` = 1 it is
not accepted, and only sets `OVR`. -/
def Obligations.AcceptsCommand : Prop :=
  ∀ (s : State) (v : Word), s.rstn = true →
    (s.busy = false → s.hostAccess { op := .write v, off := 0x004#12 } =
      { s with opc := v.extractLsb' 0 8, a := s.arg, busy := true, done := false, seq := .start,
               env := { s.env with replies := s.env.replies ++ [.wrote] } }) ∧
    (s.busy = true → s.hostAccess { op := .write v, off := 0x004#12 } =
      { s with ovr := true, env := { s.env with replies := s.env.replies ++ [.wrote] } })

/-- R150, R144: `irq` is `DONE & IE`; what raises and what drops it. -/
def Obligations.InterruptFollowsDone : Prop :=
  ∀ s : State,
    s.irq = (s.done && s.ie) ∧
    (∀ c res res1, (s.complete c res res1).irq = s.ie) ∧ (∀ opc, (s.accept opc).irq = false) ∧
    (∀ v : Word, v.getLsbD 1 = true → (s.hostWrite 0x018 v).irq = false ∧ (s.hostWrite 0x018 v).err = s.err ∧
      (s.hostWrite 0x018 v).result = s.result ∧ (s.hostWrite 0x018 v).result1 = s.result1) ∧
    ∀ v : Word, s.busy = false → (s.hostWrite 0x000 v).irq = (s.done && v.getLsbD 1) ∧
      (s.hostWrite 0x000 v).done = s.done

/-! ## The CRC generators -/

/-- R104, R103: `CRC_A`. -/
def Obligations.CrcAResult : Prop :=
  ∀ s : State, s.quiet = true →
    ∃ t, exec .crcA s = .next t ∧ sameBytes s t ∧
      t = if 1024 < s.a.w0.toNat then s.completeError .argLen 0#32
        else s.complete .ok ((crc 0x6363#16 (s.txBytes 0 s.a.w0.toNat)).setWidth 32) 0#32

/-- R105, R103: `CRC_B`. -/
def Obligations.CrcBResult : Prop :=
  ∀ s : State, s.quiet = true →
    ∃ t, exec .crcB s = .next t ∧ sameBytes s t ∧
      t = if 1024 < s.a.w0.toNat then s.completeError .argLen 0#32
        else s.complete .ok ((~~~(crc 0xFFFF#16 (s.txBytes 0 s.a.w0.toNat))).setWidth 32) 0#32

/-- R102: the byte-wise core step and the bit-serial form are the same function. -/
def Obligations.CrcBitSerial : Prop := ∀ (c : Half) (b : Byte), updateCrc c b = crcSerial c b

/-- R101, R106: the CRC of a sequence is the fold of the core step, first byte first, so the CRC of the second part of
a sequence starts from that of the first. -/
def Obligations.CrcAppend : Prop :=
  ∀ (seed : Half) (x y : List Byte), crc seed [] = seed ∧ crc seed (x ++ y) = crc (crc seed x) y ∧
    ∀ b : Byte, crc seed [b] = updateCrc seed b

/-! ## The transport link -/

/-- R67, R76, R42: a transport frame whose windows succeed returns the captured bytes and changes nothing but what the
bus activity changes; the bytes on MOSI are the same in either framing. -/
def Obligations.FrameSucceeds : Prop :=
  ∀ (s : State) (w rd : List Byte), s.quiet = true → s.supplied (readyFor (frameWindows s.cfg rd.length)) rd →
    ∃ e, spiFrame w rd.length s = .ok rd (s.ranBus (frameTrace s.cfg w rd) e) ∧
      s.env.After e (frameTrace s.cfg w rd) (3 * frameWindows s.cfg rd.length) rd.length ∧
      mosiBytes (frameTrace s.cfg w rd) = w ++ List.replicate rd.length 0xFF#8

/-- R68, R72, R73: a window whose first, second or third wait times out: the error, and what has happened on the bus. -/
def Obligations.WindowTimesOut : Prop :=
  ∀ (s : State) (w rd : List Byte), s.quiet = true →
    (s.supplied [false] [] → ∃ e, spiWindow w rd.length s = .err .notReady { s with env := e } ∧
      s.env.After e notReadyTrace 1 0) ∧
    (s.supplied [true, false] rd →
      ∃ e, spiWindow w rd.length s = .err .latchTimeout (s.ranBus (latchTimeoutTrace s.cfg.settleUs w rd) e) ∧
        s.env.After e (latchTimeoutTrace s.cfg.settleUs w rd) 2 rd.length) ∧
    (s.supplied [true, true, false] rd →
      ∃ e, spiWindow w rd.length s = .err .idleTimeout (s.ranBus (idleTimeoutTrace s.cfg.settleUs w rd) e) ∧
        s.env.After e (idleTimeoutTrace s.cfg.settleUs w rd) 3 rd.length)

/-- R74, R77: in every environment a select window ends, with bytes of the asked number, with one of the three
transport errors, or by a reset; it leaves select deasserted and opens at most one window. -/
def Obligations.WindowAlwaysReleases : Prop :=
  ∀ (s : State) (w : List Byte) (r : Nat), s.busy = true → s.sel = false →
    (∃ rd t, spiWindow w r s = .ok rd t ∧ rd.length = r ∧ t.sel = false ∧
      windowsOpened t.env.bus = windowsOpened s.env.bus + 1) ∨
    (∃ c t, spiWindow w r s = .err c t ∧ c.isTransport = true ∧ t.sel = false ∧
      windowsOpened t.env.bus ≤ windowsOpened s.env.bus + 1) ∨
    ∃ t, spiWindow w r s = .cut t ∧ t.sel = false ∧ t.rstn = false ∧ t.seq = .idle ∧ t.done = false

/-- R79: `XCHG`. -/
def Obligations.ExchangeResult : Prop :=
  ∀ s : State, s.quiet = true →
    ((1024 < s.a.w0.toNat ∨ 1024 < s.a.w1.toNat ∨ s.a.w0.toNat + s.a.w1.toNat = 0) →
      exec .xchg s = .next (s.completeError .argLen 0#32)) ∧
    ∀ rd, s.a.w0.toNat ≤ 1024 → s.a.w1.toNat ≤ 1024 → s.a.w1.toNat = rd.length → 0 < s.a.w0.toNat + rd.length →
      s.supplied (readyFor (frameWindows s.cfg rd.length)) rd →
      let es := frameTrace s.cfg (s.txBytes 0 s.a.w0.toNat) rd
      ∃ t e, exec .xchg s = .next t ∧ t = ((s.storeRx 0 rd).ranBus es e).complete .ok s.a.w1 0#32 ∧
        s.env.After e es (3 * frameWindows s.cfg rd.length) rd.length ∧ rxStored s t 0 rd ∧
        ∀ k, t.frameByte k = s.frameByte k

/-! ## Register access -/

/-- R82: `REG_RD`. -/
def Obligations.RegisterReadResult : Prop :=
  ∀ (s : State) (b0 b1 b2 b3 : Byte), s.quiet = true →
    s.supplied (readyFor (frameWindows s.cfg 4)) [b0, b1, b2, b3] →
    let es := frameTrace s.cfg [s.cfg.opReadReg, s.a.w0.extractLsb' 0 8] [b0, b1, b2, b3]
    ∃ t e, exec .regRd s = .next t ∧ t = (s.ranBus es e).complete .ok (b3 ++ b2 ++ b1 ++ b0 : BitVec 32) 0#32 ∧
      s.env.After e es (3 * frameWindows s.cfg 4) 4 ∧ sameBytes s t

/-- R81, R83, R84, R85: `REG_WR`, `REG_OR` and `REG_AND`. The command byte is the form's own; the block sends the mask
as it is given and reads nothing. -/
def Obligations.RegisterWriteResult : Prop :=
  ∀ s : State, s.quiet = true → s.supplied (readyFor 1) [] →
    ∀ i op, (i = .regWr ∧ op = s.cfg.opWriteReg ∨ i = .regOr ∧ op = s.cfg.opWriteRegOr ∨
        i = .regAnd ∧ op = s.cfg.opWriteRegAnd) →
      let v := s.a.w1
      let es := frameTrace s.cfg [op, s.a.w0.extractLsb' 0 8, v.extractLsb' 0 8, v.extractLsb' 8 8,
        v.extractLsb' 16 8, v.extractLsb' 24 8] []
      ∃ t e, exec i s = .next t ∧ t = (s.ranBus es e).complete .ok 0#32 0#32 ∧ s.env.After e es 3 0 ∧ sameBytes s t

/-- R68, R72 to R75, R142: a failure of the first transport frame of a command (`firstFrame`), in any of its windows,
ends the command with that error, after exactly the bus events of that failure and with select deasserted; what else has
changed is what `firstFrame` says. And in every environment, whichever frame of a command fails, `RESULT` is −1 and no
byte of `TXBUF` and `RXBUF` has changed (R79, R97); for a `TRANSCEIVE` that enters the engine this is said of the entry,
since a part accepted in a later turn stays. -/
def Obligations.TransportErrorsSurface : Prop :=
  (∀ s : State, s.quiet = true → s.sel = false →
    ∀ i w n u rd, firstFrame s i w n u → rd.length = n → ∀ f ∈ frameFailures s.cfg w rd, s.supplied f.busy f.miso →
      ∃ t e, exec i s = .next t ∧ t = (u.ranBus f.bus e).completeError f.code 0#32 ∧
        s.env.After e f.bus f.busy.length f.miso.length) ∧
  ∀ (i : Instr) (s t : State), i.format = .cmd → s.busy = true → s.noReset = true → exec i s = .next t →
    t.completed = true → t.err.isTransport = true →
      t.result = 0xFFFFFFFF#32 ∧ ∀ off, t.memByte off = s.memByte off

/-! ## Frame exchange -/

/-- R86, R96: `SEND_DATA`. -/
def Obligations.SendDataResult : Prop :=
  ∀ s : State, s.quiet = true →
    (260 < s.a.w0.toNat → exec .sendData s = .next (s.completeError .argLen 0#32)) ∧
    (s.a.w0.toNat ≤ 260 → (s.a.w1.toNat = 0 ∨ 8 < s.a.w1.toNat) →
      exec .sendData s = .next (s.completeError .argValidBits 0#32)) ∧
    ∀ vb : Byte, s.a.w0.toNat ≤ 260 → (1 ≤ s.a.w1.toNat ∧ s.a.w1.toNat ≤ 7 ∧ vb.toNat = s.a.w1.toNat ∨
        s.a.w1.toNat = 8 ∧ vb = 0#8) →
      s.supplied (readyFor 1) [] →
      let es := frameTrace s.cfg ([s.cfg.opSendData, vb] ++ s.txBytes 0 s.a.w0.toNat) []
      ∃ t e, exec .sendData s = .next t ∧ t = (s.ranBus es e).complete .ok 0#32 0#32 ∧ s.env.After e es 3 0 ∧
        sameBytes s t

/-- R87, R97: `READ_DATA`. -/
def Obligations.ReadDataResult : Prop :=
  ∀ s : State, s.quiet = true →
    (508 < s.a.w0.toNat → exec .readData s = .next (s.completeError .argLen 0#32)) ∧
    ∀ rd, s.a.w0.toNat = rd.length → rd.length ≤ 508 → s.supplied (readyFor (frameWindows s.cfg rd.length)) rd →
      let es := frameTrace s.cfg [s.cfg.opReadData, s.cfg.readDataArg] rd
      ∃ t e, exec .readData s = .next t ∧ t = ((s.storeRx 0 rd).ranBus es e).complete .ok s.a.w0 0#32 ∧
        s.env.After e es (3 * frameWindows s.cfg rd.length) rd.length ∧ rxStored s t 0 rd ∧
        ∀ k, t.frameByte k = s.frameByte k

/-- R57, R88, R98: `RX_STATUS`. -/
def Obligations.RxStatusResult : Prop :=
  ∀ (s : State) (b0 b1 b2 b3 : Byte), s.quiet = true →
    s.supplied (readyFor (frameWindows s.cfg 4)) [b0, b1, b2, b3] →
    let es := frameTrace s.cfg [s.cfg.opReadReg, s.cfg.addrRxStatus] [b0, b1, b2, b3]
    ∃ t e, exec .rxStatus s = .next t ∧
      t = (s.ranBus es e).complete .ok (BitVec.ofNat 32 (b0.toNat + 256 * (b1.getLsbD 0).toNat))
        (BitVec.ofNat 32 (b1.toNat / 32)) ∧
      s.env.After e es (3 * frameWindows s.cfg 4) 4 ∧ sameBytes s t

/-- R89 to R93, R99: `READ_TMO`. The polls end as R90 and R91 say (`Answer.polled`); a count of 0 is no response, a
count within the capacity is read, a count above it is an error without a read. -/
def Obligations.ReadTimeoutResult : Prop :=
  ∀ s : State, s.quiet = true →
    (508 < s.a.w0.toNat → exec .readTmo s = .next (s.completeError .argLen 0#32)) ∧
    ∀ a : Answer, s.a.w0.toNat ≤ 508 → s.answers 0 a →
      (a.fits s.a.w0.toNat s.a.w1.toNat → ∃ t e, exec .readTmo s = .next t ∧
        t = (((s.heard a).storeRx 0 a.bytes).ranBus (a.trace s.cfg) e).complete .ok
          (BitVec.ofNat 32 a.bytes.length) 0#32 ∧
        s.env.After e (a.trace s.cfg) (3 * a.windows s.cfg) a.miso.length ∧ rxStored s t 0 a.bytes ∧
        frameStored s t a.bytes) ∧
      (a.tooLong s.a.w0.toNat s.a.w1.toNat → ∃ t e, exec .readTmo s = .next t ∧
        t = ((s.heard a).ranBus (a.trace s.cfg) e).completeError .rxOverflow 0#32 ∧
        s.env.After e (a.trace s.cfg) (3 * a.windows s.cfg) a.miso.length ∧ sameBytes s t)

/-- R94: in every environment a read-with-timeout ends, and however it ends it has opened at most the windows of `T` + 1
polls and of one frame read, and made at most `T` delays besides the settle delays of its windows; a read that ends with
a count has made at least one poll, and the count is within `cap`. -/
def Obligations.ReadTimeoutIsBounded : Prop :=
  ∀ (s : State) (cap T : Nat), s.busy = true → s.sel = false → cap ≤ 508 →
    let spent (t : State) : Prop := t.sel = false ∧
      windowsOpened t.env.bus ≤ windowsOpened s.env.bus + (T + 1) * frameWindows s.cfg 4 + frameWindows s.cfg 1 ∧
      delaysMade t.env.bus + windowsOpened s.env.bus ≤ delaysMade s.env.bus + windowsOpened t.env.bus + T
    (∃ n t, readWithTimeout cap T s = .ok n t ∧ spent t ∧ n ≤ cap ∧
      windowsOpened s.env.bus + frameWindows s.cfg 4 ≤ windowsOpened t.env.bus ∧
      windowsOpened t.env.bus ≤ windowsOpened s.env.bus + (T + 1) * frameWindows s.cfg 4 +
        (if n = 0 then 0 else frameWindows s.cfg n)) ∨
    (∃ c t, readWithTimeout cap T s = .err c t ∧ spent t ∧ (c.isTransport = true ∨ c = .rxOverflow)) ∨
    ∃ t, readWithTimeout cap T s = .cut t ∧ spent t ∧ t.rstn = false

/-! ## TRANSCEIVE -/

/-- R107, R110, R111, R149: the checks of `TRANSCEIVE`, in their order; each fails before any bus activity and leaves
`ESTATE` and the registry alone. -/
def Obligations.TransceiveChecks : Prop :=
  ∀ s : State, s.quiet = true →
    let tn := s.operandByte
    let tooLong := 1024 < s.a.w2.toNat ∨ tn = 0#8 ∧ 260 < s.a.w1.toNat ∨ tn ≠ 0#8 ∧ 258 < s.a.w1.toNat
    (tooLong → exec .transceive s = .next (s.completeError .argLen 0#32)) ∧
    (¬ tooLong → tn = 0#8 → 1 ≤ s.a.w1.toNat → s.txByte 0 ∈ s.cfg.authOpcodes →
      exec .transceive s = .next (s.completeError .unsupported 0#32)) ∧
    (¬ tooLong → tn ≠ 0#8 → s.target? tn = none → exec .transceive s = .next (s.completeError .noTarget 0#32))

/-- R109: the target-0 path. -/
def Obligations.TransceiveTypeA : Prop :=
  ∀ (s : State) (a : Answer), s.quiet = true → s.operandByte = 0#8 → s.a.w1.toNat ≤ 260 → s.a.w2.toNat ≤ 1024 →
    ¬ (1 ≤ s.a.w1.toNat ∧ s.txByte 0 ∈ s.cfg.authOpcodes) → s.answers 1 a →
    let cap := min s.a.w2.toNat 508
    let es := sendTrace s.cfg (s.txBytes 0 s.a.w1.toNat) ++ a.trace s.cfg
    (a.fits cap s.a.w3.toNat → ∃ t e, exec .transceive s = .next t ∧
      t = (((s.heard a).storeRx 0 a.bytes).ranBus es e).complete .ok (BitVec.ofNat 32 a.bytes.length) 0#32 ∧
      s.env.After e es (3 + 3 * a.windows s.cfg) a.miso.length ∧ rxStored s t 0 a.bytes ∧ frameStored s t a.bytes) ∧
    (a.tooLong cap s.a.w3.toNat → ∃ t e, exec .transceive s = .next t ∧
      t = ((s.heard a).ranBus es e).completeError .rxOverflow 0#32 ∧
      s.env.After e es (3 + 3 * a.windows s.cfg) a.miso.length ∧ sameBytes s t)

/-- R112, R113, R114, R126: a `TRANSCEIVE` to an installed target enters the engine: it sends one I-block and reads the
answer with the target's timeout. The frame read is then classified (the next step); an error before that sets `ESTATE`
to `Failed` and completes the command. -/
def Obligations.TransceiveEntersEngine : Prop :=
  ∀ (s : State) (e : Target), s.quiet = true → s.operandByte ≠ 0#8 → s.a.w1.toNat ≤ 258 → s.a.w2.toNat ≤ 1024 →
    s.target? s.operandByte = some e →
    let block := [pcbIByte e.mark, e.tn] ++ s.txBytes 0 s.a.w1.toNat
    let u := { s with r := 0, level := 0, acc := 0 }
    (∀ a : Answer, s.answers 1 a →
      let es := sendTrace s.cfg block ++ a.trace s.cfg
      (a.fits 508 (e.fwt.toNat / 1000) → ∃ t env, exec .transceive s = .next t ∧
        t = { ((u.heard a).ranBus es env) with estate := .awaitingResponse, seq := .received a.bytes.length } ∧
        s.env.After env es (3 + 3 * a.windows s.cfg) a.miso.length ∧ frameStored s t a.bytes) ∧
      (a.tooLong 508 (e.fwt.toNat / 1000) → ∃ t env, exec .transceive s = .next t ∧
        t = ({ ((u.heard a).ranBus es env) with estate := .failed }).completeError .rxOverflow 0#32 ∧
        s.env.After env es (3 + 3 * a.windows s.cfg) a.miso.length)) ∧
    (s.supplied [false] [] → s.sel = false → ∃ t env, exec .transceive s = .next t ∧
      t = ({ (u.ranBus notReadyTrace env) with estate := .failed }).completeError .notReady 0#32 ∧
      s.env.After env notReadyTrace 1 0)

/-! ## The engine's turns -/

/-- R118, R123, R124, R125: an I-block with the chaining flag 0, received from the target. -/
def Obligations.FinalBlock : Prop :=
  ∀ (s : State) (e : Target) (n : Nat), s.quiet = true → s.seq = .received n → s.target? s.operandByte = some e →
    2 ≤ n → s.frameByte 1 = e.tn →
    (s.acc + (n - 2) ≤ s.a.w2.toNat → ∃ t, exec (.pcbI e.mark) s = .next t ∧
      t = ({ s with mem := t.mem, registry := t.registry, acc := s.acc + (n - 2), estate := .complete }).complete .ok
        (BitVec.ofNat 32 (s.acc + (n - 2))) 0#32 ∧
      rxStored s t s.acc (s.frameBytes 2 (n - 2)) ∧ toggled s t e) ∧
    (s.a.w2.toNat < s.acc + (n - 2) →
      exec (.pcbI e.mark) s = .next (({ s with estate := .failed }).completeError .overflow 0#32)) ∧
    exec (.pcbI (!e.mark)) s = .next (({ s with estate := .failed }).completeError .badPcb 0#32)

/-- R119, R120, R123, R124, R125: an I-block with the chaining flag 1, received from the target: its payload is taken,
the mark toggled, the ACK with the toggled mark sent, and the next frame read; at level 1 the exchange fails. -/
def Obligations.ChainedBlock : Prop :=
  ∀ (s : State) (e : Target) (n : Nat), s.quiet = true → s.seq = .received n → s.target? s.operandByte = some e →
    2 ≤ n → s.frameByte 1 = e.tn →
    (s.level ≠ 1 → s.acc + (n - 2) ≤ s.a.w2.toNat → ∀ a : Answer, a.fits 508 (e.fwt.toNat / 1000) → s.answers 1 a →
      let es := sendTrace s.cfg [pcbRByte (!e.mark), e.tn] ++ a.trace s.cfg
      ∃ t env, exec (.pcbIChained e.mark) s = .next t ∧
        t = { ((s.heard a).ranBus es env) with
          mem := t.mem, registry := t.registry, acc := s.acc + (n - 2), level := 1
          estate := .awaitingResponse, seq := .received a.bytes.length } ∧
        s.env.After env es (3 + 3 * a.windows s.cfg) a.miso.length ∧
        rxStored s t s.acc (s.frameBytes 2 (n - 2)) ∧ frameStored s t a.bytes ∧ toggled s t e) ∧
    (s.level = 1 → exec (.pcbIChained e.mark) s = .next (({ s with estate := .failed }).completeError .chainDepth 0#32)) ∧
    (s.level ≠ 1 → s.a.w2.toNat < s.acc + (n - 2) →
      exec (.pcbIChained e.mark) s = .next (({ s with estate := .failed }).completeError .overflow 0#32)) ∧
    exec (.pcbIChained (!e.mark)) s = .next (({ s with estate := .failed }).completeError .badPcb 0#32)

/-- R115, R122, R123: the R-block. Where the read brought no byte the engine sends it, as NAK with the current mark, and
reads again, unless the retries are used up; a received one, with either mark, fails the exchange. -/
def Obligations.RBlock : Prop :=
  ∀ (s : State) (e : Target), s.quiet = true → s.target? s.operandByte = some e →
    (s.seq = .received 0 → s.r < 5 → ∀ a : Answer, a.fits 508 (e.fwt.toNat / 1000) → s.answers 1 a →
      let es := sendTrace s.cfg [pcbRByte e.mark, e.tn] ++ a.trace s.cfg
      ∃ t env, exec (.pcbR e.mark) s = .next t ∧
        t = { ((s.heard a).ranBus es env) with r := s.r + 1, seq := .received a.bytes.length } ∧
        s.env.After env es (3 + 3 * a.windows s.cfg) a.miso.length ∧ frameStored s t a.bytes ∧
        ∀ off, t.memByte off = s.memByte off) ∧
    (s.seq = .received 0 → s.r = 5 →
      exec (.pcbR e.mark) s = .next (({ s with estate := .failed }).completeError .retries 0#32)) ∧
    ∀ n m, s.seq = .received n → 2 ≤ n → s.frameByte 1 = e.tn →
      exec (.pcbR m) s = .next (({ s with estate := .failed }).completeError .badPcb 0#32)

/-- R121, R122, R112: the S(WTX) block: counted as a retry, echoed with its third byte, and the next frame read with the
same timeout. -/
def Obligations.ExtensionBlock : Prop :=
  ∀ (s : State) (e : Target) (n : Nat), s.quiet = true → s.seq = .received n → s.target? s.operandByte = some e →
    s.frameByte 1 = e.tn →
    (3 ≤ n → s.r < 5 → ∀ a : Answer, a.fits 508 (e.fwt.toNat / 1000) → s.answers 1 a →
      let es := sendTrace s.cfg [0xFA#8, e.tn, s.frameByte 2] ++ a.trace s.cfg
      ∃ t env, exec .pcbSWtx s = .next t ∧
        t = { ((s.heard a).ranBus es env) with
          r := s.r + 1, estate := .awaitingResponse, seq := .received a.bytes.length } ∧
        s.env.After env es (3 + 3 * a.windows s.cfg) a.miso.length ∧ frameStored s t a.bytes ∧
        ∀ off, t.memByte off = s.memByte off) ∧
    (n = 2 → exec .pcbSWtx s = .next (({ s with estate := .failed }).completeError .shortFrame 0#32)) ∧
    (3 ≤ n → s.r = 5 → exec .pcbSWtx s = .next (({ s with estate := .failed }).completeError .retries 0#32))

/-- R62, R116, R117, R123: a frame of one byte, a frame for another target, whatever its control byte, and a frame with
a control byte that is none of the engine's. -/
def Obligations.RejectedFrames : Prop :=
  ∀ (s : State) (e : Target) (n : Nat), s.quiet = true → s.seq = .received n → s.target? s.operandByte = some e →
    (∀ i : Instr, i.format = .pcb →
      (n = 1 → exec i s = .next (({ s with estate := .failed }).completeError .shortFrame 0#32)) ∧
      (2 ≤ n → s.frameByte 1 ≠ e.tn →
        exec i s = .next (({ s with estate := .failed }).completeError .cidMismatch 0#32))) ∧
    ((∀ i : Instr, i.format = .pcb → encode i ≠ s.frameByte 0) →
      (n = 1 → step s = .next (({ s with estate := .failed }).completeError .shortFrame 0#32)) ∧
      (2 ≤ n → s.frameByte 1 ≠ e.tn → step s = .next (({ s with estate := .failed }).completeError .cidMismatch 0#32)) ∧
      (2 ≤ n → s.frameByte 1 = e.tn → step s = .next (({ s with estate := .failed }).completeError .badPcb 0#32)))

/-! ## Whole exchanges -/

/-- R108, R118, R127: an exchange whose answer is one block. That it takes two steps of the machine is the model's choice
(log entry 1). -/
def Obligations.SingleBlockExchange : Prop :=
  ∀ (s : State) (e : Target) (a : Answer) (p : List Byte), s.quiet = true → s.seq = .start → s.opc = 0x40#8 →
    s.operandByte ≠ 0#8 → s.a.w1.toNat ≤ 258 → s.a.w2.toNat ≤ 1024 → s.target? s.operandByte = some e →
    a.fits 508 (e.fwt.toNat / 1000) → s.answers 1 a → a.bytes = [pcbIByte e.mark, e.tn] ++ p →
    p.length ≤ s.a.w2.toNat →
    ∃ t, stepN 2 s = some t ∧ t.completed = true ∧ t.err = .ok ∧ t.result = BitVec.ofNat 32 p.length ∧
      t.result1 = 0#32 ∧ t.estate = .complete ∧ rxStored s t 0 p ∧
      toggled s t e ∧
      t.env.bus = s.env.bus ++ sendTrace s.cfg ([pcbIByte e.mark, e.tn] ++ s.txBytes 0 s.a.w1.toNat) ++ a.trace s.cfg

/-- R119, R125: an exchange whose answer is chained in two parts: the parts are delivered as one contiguous payload, the
ACK carries the toggled mark, and the mark toggles twice. That it takes three steps of the machine is the model's choice
(log entry 1). -/
def Obligations.ChainedExchange : Prop :=
  ∀ (s : State) (e : Target) (a b : Answer) (p q : List Byte), s.quiet = true → s.seq = .start → s.opc = 0x40#8 →
    s.operandByte ≠ 0#8 → s.a.w1.toNat ≤ 258 → s.a.w2.toNat ≤ 1024 → s.target? s.operandByte = some e →
    a.fits 508 (e.fwt.toNat / 1000) → b.fits 508 (e.fwt.toNat / 1000) → s.answersAll [a, b] →
    a.bytes = [pcbIChainedByte e.mark, e.tn] ++ p → b.bytes = [pcbIByte (!e.mark), e.tn] ++ q →
    p.length + q.length ≤ s.a.w2.toNat →
    ∃ t, stepN 3 s = some t ∧ t.completed = true ∧ t.err = .ok ∧ t.result = BitVec.ofNat 32 (p.length + q.length) ∧
      t.estate = .complete ∧ rxStored s t 0 (p ++ q) ∧ (∀ tn, t.target? tn = s.target? tn) ∧
      t.env.bus = s.env.bus ++ sendTrace s.cfg ([pcbIByte e.mark, e.tn] ++ s.txBytes 0 s.a.w1.toNat) ++ a.trace s.cfg ++
        sendTrace s.cfg [pcbRByte (!e.mark), e.tn] ++ b.trace s.cfg

/-- R115, R122, R123, R127: a card that never answers sees the I-block and exactly five R-blocks, the engine makes
exactly six reads, and the exchange fails with `E_RETRIES`; the target stays as it was. That it takes seven steps of the
machine is the model's choice (log entry 1). -/
def Obligations.CardNeverAnswers : Prop :=
  ∀ (s : State) (e : Target) (a : Answer) (as : List Answer), s.quiet = true → s.seq = .start → s.opc = 0x40#8 →
    s.operandByte ≠ 0#8 → s.a.w1.toNat ≤ 258 → s.a.w2.toNat ≤ 1024 → s.target? s.operandByte = some e →
    as.length = 5 → (∀ x ∈ a :: as, x.fits 508 (e.fwt.toNat / 1000) ∧ x.bytes = []) → s.answersAll (a :: as) →
    ∃ t, stepN 7 s = some t ∧ t.completed = true ∧ t.err = .retries ∧ t.result = 0xFFFFFFFF#32 ∧ t.result1 = 0#32 ∧
      t.estate = .failed ∧ t.registry = s.registry ∧ sameBytes s t ∧
      t.env.bus = s.env.bus ++ sendTrace s.cfg ([pcbIByte e.mark, e.tn] ++ s.txBytes 0 s.a.w1.toNat) ++ a.trace s.cfg ++
        as.flatMap fun x => sendTrace s.cfg [pcbRByte e.mark, e.tn] ++ x.trace s.cfg

/-! ## The keep-alive probe -/

/-- R130, R131: `PROBE`. -/
def Obligations.ProbeResult : Prop :=
  ∀ s : State, s.quiet = true →
    (s.target? s.operandByte = none → exec .probe s = .next (s.completeError .noTarget 0#32)) ∧
    ∀ e, s.target? s.operandByte = some e →
      (∀ a : Answer, a.toProbe e → s.answers 1 a →
        let es := sendTrace s.cfg [pcbRByte e.mark, e.tn] ++ a.trace s.cfg
        ∃ t env, exec .probe s = .next t ∧ s.env.After env es (3 + 3 * a.windows s.cfg) a.miso.length ∧
          (probeVerdict e a = 0 → t = ((s.heard a).ranBus es env).complete .ok 1#32 0#32) ∧
          (probeVerdict e a ≠ 0 → t = (((s.heard a).ranBus es env).removeTarget e.tn).complete .ok 0#32
            (BitVec.ofNat 32 (probeVerdict e a))) ∧
          frameStored s t a.bytes ∧ ∀ off, t.memByte off = s.memByte off) ∧
      (s.supplied [false] [] → s.sel = false → ∃ t env, exec .probe s = .next t ∧
        t = (s.ranBus notReadyTrace env).completeError .notReady 0#32 ∧ s.env.After env notReadyTrace 1 0)

/-- R132, R142: `PROBE_ALL`: each entry is probed in registry order, and the entries whose answer fails a check are
removed. A transport error in the probe of an entry `e` ends the pass: the entries removed before it stay removed, `e`
and those after it stay, `RESULT1` is the number removed so far. That is said for a supplied environment, the send of
`e`'s probe failing, and for every environment. -/
def Obligations.ProbeAllResult : Prop :=
  (∀ s : State, s.quiet = true → registryOk s.registry →
    let left (u : State) (l : List Target) : Prop :=
      u = { s with registry := l, frame := u.frame, k := u.k, prev := u.prev, sel := u.sel, mosi := u.mosi,
                   env := u.env } ∧
      (s.sel = false → u.sel = false) ∧ ∀ off, u.memByte off = s.memByte off
    (∀ as, as.length = s.registry.length → (∀ p ∈ s.registry.zip as, p.2.toProbe p.1) → s.answersAll as →
      let kept := probeKept s.registry as
      ∃ u, exec .probeAll s = .next (u.complete .ok (BitVec.ofNat 32 (s.registry.length - kept.length))
          (BitVec.ofNat 32 kept.length)) ∧
        left u kept ∧
        s.env.After u.env (probesTrace s.cfg s.registry as) (3 * (as.map fun a => 1 + a.windows s.cfg).sum)
          (as.flatMap Answer.miso).length) ∧
    ∀ pre e post as, s.registry = pre ++ e :: post → as.length = pre.length → (∀ p ∈ pre.zip as, p.2.toProbe p.1) →
      ∀ f ∈ frameFailures s.cfg (sendBytesOf s.cfg [pcbRByte e.mark, e.tn]) [], s.sel = false →
        s.supplied (readyFor (as.map fun a => 1 + a.windows s.cfg).sum ++ f.busy) (as.flatMap Answer.miso) →
        let kept := probeKept pre as
        ∃ u, exec .probeAll s = .next (u.completeError f.code (BitVec.ofNat 32 (pre.length - kept.length))) ∧
          left u (kept ++ e :: post) ∧
          s.env.After u.env (probesTrace s.cfg pre as ++ f.bus)
            (3 * (as.map fun a => 1 + a.windows s.cfg).sum + f.busy.length) (as.flatMap Answer.miso).length) ∧
  ∀ s t : State, registryOk s.registry → s.busy = true → s.noReset = true → exec .probeAll s = .next t →
    t.completed = true ∧
    ((t.err = .ok ∧ t.registry.Sublist s.registry ∧
        t.result = BitVec.ofNat 32 (s.registry.length - t.registry.length) ∧
        t.result1 = BitVec.ofNat 32 t.registry.length) ∨
      (t.err.isTransport = true ∧ t.result = 0xFFFFFFFF#32 ∧ ∃ pre e post kept, s.registry = pre ++ e :: post ∧
        kept.Sublist pre ∧ t.registry = kept ++ e :: post ∧
        t.result1 = BitVec.ofNat 32 (pre.length - kept.length)))

/-! ## The registry -/

/-- R133, R134: `TGT_ALLOC` reports the smallest number in 1..14 that no entry holds, and changes nothing. -/
def Obligations.AllocResult : Prop :=
  ∀ s : State, s.quiet = true →
    let held (n : Nat) : Prop := ∃ e ∈ s.registry, e.tn.toNat = n
    (∀ n, 1 ≤ n → n ≤ 14 → ¬ held n → (∀ m, 1 ≤ m → m < n → held m) →
      exec .tgtAlloc s = .next (s.complete .ok (BitVec.ofNat 32 n) 0#32)) ∧
    ((∀ n, 1 ≤ n → n ≤ 14 → held n) → exec .tgtAlloc s = .next (s.completeError .regFull 0#32))

/-- R135: `TGT_INSTALL`. -/
def Obligations.InstallResult : Prop :=
  ∀ s : State, s.quiet = true →
    let tn := s.a.w0.extractLsb' 0 8
    (tn.toNat = 0 ∨ 14 < tn.toNat → exec .tgtInstall s = .next (s.completeError .argTarget 0#32)) ∧
    (1 ≤ tn.toNat → tn.toNat ≤ 14 → (∃ e ∈ s.registry, e.tn = tn) →
      exec .tgtInstall s = .next (s.completeError .dupTarget 0#32)) ∧
    (1 ≤ tn.toNat → tn.toNat ≤ 14 → (∀ e ∈ s.registry, e.tn ≠ tn) →
      exec .tgtInstall s = .next (State.complete .ok 0#32 0#32 { s with registry := s.registry ++
        [{ tn := tn, uid := s.txBytes 0 4, atqb := s.txBytes 4 12, fwt := s.a.w1, mark := false }] }))

/-- R136: `TGT_REMOVE`: the others keep their order. -/
def Obligations.RemoveResult : Prop :=
  ∀ s : State, s.quiet = true →
    ((∀ e ∈ s.registry, e.tn ≠ s.operandByte) → exec .tgtRemove s = .next (s.completeError .noTarget 0#32)) ∧
    ∀ pre e post, s.registry = pre ++ e :: post → e.tn = s.operandByte → registryOk s.registry →
      exec .tgtRemove s = .next (({ s with registry := pre ++ post } : State).complete .ok 0#32 0#32)

/-- R137: `TGT_READ`. -/
def Obligations.TargetReadResult : Prop :=
  ∀ s : State, s.quiet = true →
    ((∀ e ∈ s.registry, e.tn ≠ s.operandByte) → exec .tgtRead s = .next (s.completeError .noTarget 0#32)) ∧
    ∀ pre e post, s.registry = pre ++ e :: post → e.tn = s.operandByte → registryOk s.registry →
      ∃ t, exec .tgtRead s = .next t ∧ t = ({ s with mem := t.mem }).complete .ok e.fwt
          (e.tn.setWidth 32 ||| (if e.mark then 0x100#32 else 0#32) ||| (BitVec.ofNat 32 pre.length <<< 16)) ∧
        rxStored s t 0 (e.uid ++ e.atqb) ∧ ∀ k, t.frameByte k = s.frameByte k

/-! ## What holds in every environment -/

/-- R140 to R143, R24: how an instruction ends. With no reset in store, every next state of an instruction is the end of
its run: the command is complete, with −1 in `RESULT` and 0 in `RESULT1` (but for `PROBE_ALL`) if with an error, and
`CMD.OPC` and the operands as they were; or, in the engine of `TRANSCEIVE`, a frame has been read. -/
def Obligations.InstructionEnds : Prop :=
  ∀ (i : Instr) (s t : State), s.busy = true → s.noReset = true → exec i s = .next t →
    t.opc = s.opc ∧ t.arg = s.arg ∧ t.a = s.a ∧ t.crcEn = s.crcEn ∧ t.ie = s.ie ∧ t.rstn = s.rstn ∧ t.cfg = s.cfg ∧
    ((t.busy = false ∧ t.done = true ∧ t.seq = .idle ∧
        (t.err ≠ .ok → t.result = 0xFFFFFFFF#32 ∧ (i ≠ .probeAll → t.result1 = 0#32))) ∨
      ((i = .transceive ∨ i.format = .pcb) ∧ t.busy = true ∧ t.err = s.err ∧ t.result = s.result ∧
        t.result1 = s.result1 ∧ ∃ n ≤ 508, t.seq = .received n))

/-- R147: which error codes an instruction raises, in every environment. -/
def Obligations.ErrorCodes : Prop :=
  ∀ (i : Instr) (s t : State), s.busy = true → exec i s = .next t → t.completed = true →
    t.err = .ok ∨ t.err ∈ errorsOf i

/-- R148, R149: an error of class 1, 3 or 4 is detected before any bus activity and before any state changes. -/
def Obligations.EarlyErrors : Prop :=
  ∀ (i : Instr) (s t : State), s.quiet = true → exec i s = .next t → t.completed = true →
    (t.err.errClass = 1#4 ∨ t.err.errClass = 3#4 ∨ t.err.errClass = 4#4) → t = s.completeError t.err 0#32

/-- R27, R125, R136, R139: how an instruction may change the registry. Only the I-blocks the engine accepts toggle a
mark, and only that of the target of the exchange; nothing restores one. -/
def Obligations.RegistryChanges : Prop :=
  ∀ (i : Instr) (s t : State), s.busy = true → s.noReset = true → exec i s = .next t →
    match i with
    | .pcbI _ | .pcbIChained _ => t.registry = s.registry ∨ ∃ e, s.target? s.operandByte = some e ∧
        t.registry = s.registry.map fun x => if x.tn = e.tn then { x with mark := !e.mark } else x
    | .tgtInstall => t.registry = s.registry ∨ ∃ e, t.registry = s.registry ++ [e] ∧ e.mark = false
    | .tgtRemove | .probe => t.registry = s.registry ∨ t.registry = s.registry.filter fun x => x.tn != s.operandByte
    | .probeAll => t.registry.Sublist s.registry
    | _ => t.registry = s.registry

/-- R23, R109, R129: `ESTATE` changes only in a `TRANSCEIVE` whose operands pass its checks and whose target is
installed (`State.engineRuns`). There a normal completion leaves `Complete`, one with an error `Failed`, and a frame read
`AwaitingResponse` (an engine's turn begins in `AwaitingResponse`: `StepKeepsInvariant`). -/
def Obligations.EngineStates : Prop :=
  ∀ (i : Instr) (s t : State), s.busy = true → s.noReset = true → exec i s = .next t →
    (i.format = .cmd → (i ≠ .transceive ∨ ¬ s.engineRuns) → t.estate = s.estate) ∧
    (i.format = .pcb ∨ i = .transceive ∧ s.engineRuns →
      (t.completed = true ∧ t.err = .ok ∧ t.estate = .complete) ∨
      (t.completed = true ∧ t.err ≠ .ok ∧ t.estate = .failed) ∨
      (t.busy = true ∧ (∃ n, t.seq = .received n) ∧
        (i.format = .cmd ∨ s.estate = .awaitingResponse → t.estate = .awaitingResponse)))

/-- R129, R23, R35: what a host that reads `STATUS` while the engine runs finds in `ESTATE`, where the frame the engine
sends goes out: `AwaitingResponse` while the I-block or a NAK is sent, `Chaining` while the ACK is sent,
`ExtensionRequested` while the echo of an S(WTX) is sent, and `AwaitingResponse` again at the first poll after it. The
frame of `n` bytes takes the elementary operations 1 to `n` + 6 of the run (R67). Where in a run a read can land is the
model's choice (log entry 2). -/
def Obligations.EngineStatesSeen : Prop :=
  ∀ (s : State) (e : Target) (j : Nat), s.busy = true → s.done = false → s.target? s.operandByte = some e →
    s.supplied (readyFor 1) [] → s.readsStatus j →
    (s.engineRuns → (1 ≤ j ∧ j ≤ s.a.w1.toNat + 11 → seesEState .transceive s .awaitingResponse) ∧
      (j = 0 → seesEState .transceive s s.estate)) ∧
    (∀ n, s.seq = .received n → 2 ≤ n → s.frameByte 1 = e.tn → s.level ≠ 1 → s.acc + (n - 2) ≤ s.a.w2.toNat →
      (1 ≤ j ∧ j ≤ 10 → seesEState (.pcbIChained e.mark) s .chaining) ∧
      (j = 11 → seesEState (.pcbIChained e.mark) s .awaitingResponse)) ∧
    (∀ n, s.seq = .received n → 3 ≤ n → s.frameByte 1 = e.tn → s.r < 5 →
      (1 ≤ j ∧ j ≤ 11 → seesEState .pcbSWtx s .extensionRequested) ∧
      (j = 12 → seesEState .pcbSWtx s .awaitingResponse)) ∧
    (s.seq = .received 0 → s.r < 5 → s.estate = .awaitingResponse → j ≤ 11 →
      seesEState (.pcbR e.mark) s .awaitingResponse)

/-- R36, R145, R35: an access that lands while a command runs is answered there as the host port answers it
(`HostReads`, `HostWrites`): each elementary operation of the sequencer, the end of a run and every instruction go on
from the state it leaves; in particular a write to `CTRL`, `CMD`, `ARG0`..`ARG3` or `TXBUF` is discarded and sets `OVR`.
Where no further access lands, `OVR` and the answers stand at the end of the run. Where in a run an access can land, and
that it takes no time of its own, are the model's choices (log entries 2 and 4). -/
def Obligations.AccessesLand : Prop :=
  ∀ (s : State) (a : HostAccess) (es : List HostEvent), s.busy = true → s.env.host = .access a :: es →
    let u := State.hostAccess a { s with env := { s.env with host := es } }
    (∀ want ms, waitBusy want ms s = waitBusy want ms u) ∧ (∀ v, selectLine v s = selectLine v u) ∧
    (∀ us, delay us s = delay us u) ∧ (∀ b, sendByte b s = sendByte b u) ∧ recvByte s = recvByte u ∧
    (∀ f, closing f s = closing f u) ∧ (∀ i, exec i s = exec i u) ∧
    (∀ off v, a = { op := .write v, off := off } → off.toNat % 4 = 0 → s.rstn = true →
      (off.toNat < 0x018 ∨ 0x400 ≤ off.toNat ∧ off.toNat < 0x800) →
      u = { s with ovr := true, env := { s.env with host := es, replies := s.env.replies ++ [.wrote] } }) ∧
    ∀ i t, u.quiet = true → exec i s = .next t → t.ovr = u.ovr ∧ t.env.replies = u.env.replies

/-- R37, R141, R145, R45: the host's accesses while a command runs change neither what the command does nor what it
leaves: every next state is, but for `OVR`, the answers the host got and the events the host has left, the one with a
host that makes no access. Where in a run an access can land is the model's choice (log entry 2). -/
def Obligations.AccessesDoNotInterfere : Prop :=
  ∀ (i : Instr) (s t : State), s.busy = true → s.done = false → s.noReset = true → exec i s = .next t →
    ∃ u, exec i { s with env := { s.env with host := [] } } = .next u ∧
      t = { u with ovr := t.ovr,
                   env := { u.env with host := t.env.host, replies := t.env.replies, rxDrawn := t.env.rxDrawn } }

/-! ## Invariants and runs -/

/-- The invariant `Inv` holds of the state after reset. -/
def Obligations.ResetMeetsInvariant : Prop := Inv State.reset

/-- R27, R30, R22, R155: every step keeps the invariant. -/
def Obligations.StepKeepsInvariant : Prop := ∀ s t : State, Inv s → step s = .next t → Inv t

/-- In a state that meets the invariant no step stops the machine: the one fault (log entry 10) is out of reach. -/
def Obligations.StepNeverStops : Prop := ∀ s : State, Inv s → ∃ t, step s = .next t

/-- R128, R146: whatever the environment does, a running command is over after at most eight steps of the machine: the
entry of the engine and at most seven reads. How much of a run one step is is the model's choice (log entry 1). -/
def Obligations.CommandsEnd : Prop :=
  ∀ s : State, Inv s → s.busy = true → ∃ n ≤ 8, ∃ t, stepN n s = some t ∧ t.busy = false ∧ t.seq = .idle
end

