-- ==== Sys2Proof/Laws/Memory.lean ====
section
/-!
SUPPORT. The memory operations: reading after writing, and the canonical form every operation keeps.
-/

namespace Sys2Proof.Machine

theorem Memory.get?_set (m : Memory) (a a' : Nat) (b : Byte) :
    Memory.get? (Memory.set m a b) a' = if a' = a then some b else Memory.get? m a' := by
  induction m with
  | nil => simp only [Memory.set, Memory.get?, eq_comm]
  | cons c m ih =>
    unfold Memory.set
    split
    · simp only [Memory.get?, eq_comm]
    · split
      · next h => subst h; simp only [Memory.get?, eq_comm]; split <;> rfl
      · next h => simp only [Memory.get?, ih]; grind

/-- A store lists its bytes and leaves every other address alone. -/
theorem Memory.get?_store (m : Memory) (a a' : Nat) (bs : List Byte) :
    Memory.get? (Memory.store m a bs) a' =
      if a ≤ a' ∧ a' < a + bs.length then bs[a' - a]? else Memory.get? m a' := by
  induction bs generalizing m a with
  | nil =>
    have h : ¬ (a ≤ a' ∧ a' < a + ([] : List Byte).length) := by simp
    rw [if_neg h]; rfl
  | cons b bs ih =>
    rw [Memory.store, ih, Memory.get?_set, List.length_cons]
    by_cases h : a' = a
    · subst h
      rw [if_neg (by omega), if_pos rfl, if_pos (by omega), Nat.sub_self, List.getElem?_cons_zero]
    · by_cases h1 : a + 1 ≤ a' ∧ a' < a + 1 + bs.length
      · rw [if_pos h1, if_pos (by omega), show a' - a = (a' - (a + 1)) + 1 by omega, List.getElem?_cons_succ]
      · rw [if_neg h1, if_neg h, if_neg (by omega)]

theorem Memory.rising_cons (c : Host.Cell) (m : Memory) :
    Memory.rising (c :: m) = true ↔ (∀ d ∈ m.head?, c.1 < d.1) ∧ Memory.rising m = true := by
  cases m with
  | nil => simp [Memory.rising]
  | cons d m => simp [Memory.rising]

theorem Memory.head?_set (m : Memory) (a : Nat) (b : Byte) (d : Host.Cell)
    (h : d ∈ (Memory.set m a b).head?) : d.1 = a ∨ d ∈ m.head? := by
  cases m with
  | nil => simp only [Memory.set, List.head?_cons, Option.mem_some_iff] at h; exact .inl (h ▸ rfl)
  | cons c m =>
    unfold Memory.set at h
    split at h
    · simp only [List.head?_cons, Option.mem_some_iff] at h; exact .inl (h ▸ rfl)
    · split at h <;> simp only [List.head?_cons, Option.mem_some_iff] at h
      · exact .inl (h ▸ rfl)
      · exact .inr (by simpa using h)

theorem Memory.rising_set (m : Memory) (a : Nat) (b : Byte) (h : Memory.rising m = true) :
    Memory.rising (Memory.set m a b) = true := by
  induction m with
  | nil => rfl
  | cons c m ih =>
    rw [Memory.rising_cons] at h
    unfold Memory.set
    split
    · next hac =>
      rw [Memory.rising_cons, Memory.rising_cons]
      exact ⟨by simpa using hac, h⟩
    · split
      · next hac => rw [Memory.rising_cons]; exact ⟨fun d hd => hac ▸ h.1 d hd, h.2⟩
      · next h1 h2 =>
        rw [Memory.rising_cons]
        refine ⟨fun d hd => ?_, ih h.2⟩
        rcases Memory.head?_set m a b d hd with he | he
        · omega
        · exact h.1 d he

theorem Memory.mem_set (m : Memory) (a : Nat) (b : Byte) (c : Host.Cell) (h : c ∈ Memory.set m a b) :
    c = (a, b) ∨ c ∈ m := by
  induction m with
  | nil => exact .inl (by simpa [Memory.set] using h)
  | cons d m ih =>
    unfold Memory.set at h
    split at h
    · simpa using h
    · split at h
      · rcases List.mem_cons.mp h with h | h
        · exact .inl h
        · exact .inr (List.mem_cons_of_mem _ h)
      · rcases List.mem_cons.mp h with h | h
        · exact .inr (h ▸ List.mem_cons_self)
        · exact (ih h).imp id (List.mem_cons_of_mem _)

/-- A write within the bounds keeps the canonical form. -/
theorem Memory.wf_set {lo hi : Nat} {m : Memory} (h : Memory.wf lo hi m = true) {a : Nat} (ha : lo ≤ a ∧ a < hi)
    (b : Byte) : Memory.wf lo hi (Memory.set m a b) = true := by
  simp only [Memory.wf, Bool.and_eq_true, List.all_eq_true, decide_eq_true_eq] at h ⊢
  refine ⟨Memory.rising_set m a b h.1, fun c hc => ?_⟩
  rcases Memory.mem_set m a b c hc with rfl | hc
  · exact ha
  · exact h.2 c hc

/-- A store within the bounds keeps the canonical form. -/
theorem Memory.wf_store {lo hi : Nat} {m : Memory} (h : Memory.wf lo hi m = true) {a : Nat} {bs : List Byte}
    (ha : lo ≤ a) (hb : a + bs.length ≤ hi) : Memory.wf lo hi (Memory.store m a bs) = true := by
  induction bs generalizing m a with
  | nil => exact h
  | cons b bs ih =>
    simp only [List.length_cons] at hb
    exact ih (Memory.wf_set h ⟨ha, by omega⟩ b) (by omega) (by omega)

/-- Reading a byte of the window after a store into `RXBUF`. -/
theorem State.memByte_storeRx (s : State) (k off : Nat) (bs : List Byte) :
    (State.storeRx k bs s).memByte off =
      if h : Config.rxBase + k ≤ off ∧ off < Config.rxBase + k + bs.length then
        bs[off - (Config.rxBase + k)]'(by omega)
      else s.memByte off := by
  simp only [State.memByte, State.storeRx, Memory.get?_store]
  split
  · next h => rw [List.getElem?_eq_getElem (by omega)]; rfl
  · rfl

/-- Reading a byte of `FRAME` after a frame has been stored. -/
theorem State.frameByte_storeFrame (s : State) (k : Nat) (bs : List Byte) :
    (State.storeFrame bs s).frameByte k = if h : k < bs.length then bs[k] else s.frameByte k := by
  simp only [State.frameByte, State.storeFrame, Memory.get?_store]
  split
  · next h => simp only [Nat.sub_zero]; rw [List.getElem?_eq_getElem (by omega)]; simp [show k < bs.length by omega]
  · next h => simp [show ¬ k < bs.length by omega]

theorem State.frameBytes_storeFrame (s : State) (bs : List Byte) :
    (State.storeFrame bs s).frameBytes 0 bs.length = bs := by
  apply List.ext_getElem
  · simp [State.frameBytes]
  · intro i h1 h2
    simp [State.frameBytes, State.frameByte_storeFrame, h2]

theorem State.length_txBytes (s : State) (i n : Nat) : (s.txBytes i n).length = n := by
  simp [State.txBytes]

theorem State.length_frameBytes (s : State) (i n : Nat) : (s.frameBytes i n).length = n := by
  simp [State.frameBytes]

end Sys2Proof.Machine
end

