-- ==== Sys2Proof/Laws/State.lean ====
section
/-!
SUPPORT. What every named update of the state does to every field, for simp: one equation per field per update, the
equations of an update gathered in one conjunction. No later proof unfolds a record update.
-/

namespace Sys2Proof.Machine

variable (s : State)

@[simp] theorem State.log_fields (e : BusEvent) :
    (State.log e s).crcEn = s.crcEn ∧ (State.log e s).ie = s.ie ∧ (State.log e s).opc = s.opc ∧
    (State.log e s).arg = s.arg ∧ (State.log e s).busy = s.busy ∧ (State.log e s).done = s.done ∧
    (State.log e s).ovr = s.ovr ∧ (State.log e s).err = s.err ∧ (State.log e s).estate = s.estate ∧
    (State.log e s).result = s.result ∧ (State.log e s).result1 = s.result1 ∧ (State.log e s).mem = s.mem ∧
    (State.log e s).frame = s.frame ∧ (State.log e s).registry = s.registry ∧ (State.log e s).seq = s.seq ∧
    (State.log e s).a = s.a ∧ (State.log e s).k = s.k ∧ (State.log e s).prev = s.prev ∧ (State.log e s).r = s.r ∧
    (State.log e s).level = s.level ∧ (State.log e s).acc = s.acc ∧ (State.log e s).sel = s.sel ∧
    (State.log e s).mosi = s.mosi ∧ (State.log e s).rstn = s.rstn ∧ (State.log e s).cfg = s.cfg ∧
    (State.log e s).env.host = s.env.host ∧ (State.log e s).env.replies = s.env.replies ∧
    (State.log e s).env.busy = s.env.busy ∧ (State.log e s).env.miso = s.env.miso ∧
    (State.log e s).env.bus = s.env.bus ++ [e] ∧ (State.log e s).env.time = s.env.time ∧
    (State.log e s).env.drawn = s.env.drawn ∧ (State.log e s).env.rxDrawn = s.env.rxDrawn ∧
    (State.log e s).env.epoch = s.env.epoch :=
  ⟨rfl, rfl, rfl, rfl, rfl, rfl, rfl, rfl, rfl, rfl, rfl, rfl, rfl, rfl, rfl, rfl, rfl, rfl, rfl, rfl, rfl, rfl, rfl, rfl, rfl, rfl, rfl, rfl, rfl, rfl, rfl, rfl, rfl, rfl⟩

@[simp] theorem State.reply_fields (x : HostReply) :
    (State.reply x s).crcEn = s.crcEn ∧ (State.reply x s).ie = s.ie ∧ (State.reply x s).opc = s.opc ∧
    (State.reply x s).arg = s.arg ∧ (State.reply x s).busy = s.busy ∧ (State.reply x s).done = s.done ∧
    (State.reply x s).ovr = s.ovr ∧ (State.reply x s).err = s.err ∧ (State.reply x s).estate = s.estate ∧
    (State.reply x s).result = s.result ∧ (State.reply x s).result1 = s.result1 ∧ (State.reply x s).mem = s.mem ∧
    (State.reply x s).frame = s.frame ∧ (State.reply x s).registry = s.registry ∧ (State.reply x s).seq = s.seq ∧
    (State.reply x s).a = s.a ∧ (State.reply x s).k = s.k ∧ (State.reply x s).prev = s.prev ∧
    (State.reply x s).r = s.r ∧ (State.reply x s).level = s.level ∧ (State.reply x s).acc = s.acc ∧
    (State.reply x s).sel = s.sel ∧ (State.reply x s).mosi = s.mosi ∧ (State.reply x s).rstn = s.rstn ∧
    (State.reply x s).cfg = s.cfg ∧ (State.reply x s).env.host = s.env.host ∧
    (State.reply x s).env.replies = s.env.replies ++ [x] ∧ (State.reply x s).env.busy = s.env.busy ∧
    (State.reply x s).env.miso = s.env.miso ∧ (State.reply x s).env.bus = s.env.bus ∧
    (State.reply x s).env.time = s.env.time ∧ (State.reply x s).env.drawn = s.env.drawn ∧
    (State.reply x s).env.rxDrawn = s.env.rxDrawn ∧ (State.reply x s).env.epoch = s.env.epoch :=
  ⟨rfl, rfl, rfl, rfl, rfl, rfl, rfl, rfl, rfl, rfl, rfl, rfl, rfl, rfl, rfl, rfl, rfl, rfl, rfl, rfl, rfl, rfl, rfl, rfl, rfl, rfl, rfl, rfl, rfl, rfl, rfl, rfl, rfl, rfl⟩

@[simp] theorem State.elapse_fields (us : Nat) :
    (State.elapse us s).crcEn = s.crcEn ∧ (State.elapse us s).ie = s.ie ∧ (State.elapse us s).opc = s.opc ∧
    (State.elapse us s).arg = s.arg ∧ (State.elapse us s).busy = s.busy ∧ (State.elapse us s).done = s.done ∧
    (State.elapse us s).ovr = s.ovr ∧ (State.elapse us s).err = s.err ∧ (State.elapse us s).estate = s.estate ∧
    (State.elapse us s).result = s.result ∧ (State.elapse us s).result1 = s.result1 ∧
    (State.elapse us s).mem = s.mem ∧ (State.elapse us s).frame = s.frame ∧
    (State.elapse us s).registry = s.registry ∧ (State.elapse us s).seq = s.seq ∧ (State.elapse us s).a = s.a ∧
    (State.elapse us s).k = s.k ∧ (State.elapse us s).prev = s.prev ∧ (State.elapse us s).r = s.r ∧
    (State.elapse us s).level = s.level ∧ (State.elapse us s).acc = s.acc ∧ (State.elapse us s).sel = s.sel ∧
    (State.elapse us s).mosi = s.mosi ∧ (State.elapse us s).rstn = s.rstn ∧ (State.elapse us s).cfg = s.cfg ∧
    (State.elapse us s).env.host = s.env.host ∧ (State.elapse us s).env.replies = s.env.replies ∧
    (State.elapse us s).env.busy = s.env.busy ∧ (State.elapse us s).env.miso = s.env.miso ∧
    (State.elapse us s).env.bus = s.env.bus ∧
    (State.elapse us s).env.time = s.env.time + us + Config.timeDraw s.env.drawn ∧
    (State.elapse us s).env.drawn = s.env.drawn + 1 ∧ (State.elapse us s).env.rxDrawn = s.env.rxDrawn ∧
    (State.elapse us s).env.epoch = s.env.epoch :=
  ⟨rfl, rfl, rfl, rfl, rfl, rfl, rfl, rfl, rfl, rfl, rfl, rfl, rfl, rfl, rfl, rfl, rfl, rfl, rfl, rfl, rfl, rfl, rfl, rfl, rfl, rfl, rfl, rfl, rfl, rfl, rfl, rfl, rfl, rfl⟩

@[simp] theorem State.elapseWait_fields (ok : Bool) (us : Nat) :
    (State.elapseWait ok us s).crcEn = s.crcEn ∧ (State.elapseWait ok us s).ie = s.ie ∧
    (State.elapseWait ok us s).opc = s.opc ∧ (State.elapseWait ok us s).arg = s.arg ∧
    (State.elapseWait ok us s).busy = s.busy ∧ (State.elapseWait ok us s).done = s.done ∧
    (State.elapseWait ok us s).ovr = s.ovr ∧ (State.elapseWait ok us s).err = s.err ∧
    (State.elapseWait ok us s).estate = s.estate ∧ (State.elapseWait ok us s).result = s.result ∧
    (State.elapseWait ok us s).result1 = s.result1 ∧ (State.elapseWait ok us s).mem = s.mem ∧
    (State.elapseWait ok us s).frame = s.frame ∧ (State.elapseWait ok us s).registry = s.registry ∧
    (State.elapseWait ok us s).seq = s.seq ∧ (State.elapseWait ok us s).a = s.a ∧
    (State.elapseWait ok us s).k = s.k ∧ (State.elapseWait ok us s).prev = s.prev ∧
    (State.elapseWait ok us s).r = s.r ∧ (State.elapseWait ok us s).level = s.level ∧
    (State.elapseWait ok us s).acc = s.acc ∧ (State.elapseWait ok us s).sel = s.sel ∧
    (State.elapseWait ok us s).mosi = s.mosi ∧ (State.elapseWait ok us s).rstn = s.rstn ∧
    (State.elapseWait ok us s).cfg = s.cfg ∧ (State.elapseWait ok us s).env.host = s.env.host ∧
    (State.elapseWait ok us s).env.replies = s.env.replies ∧ (State.elapseWait ok us s).env.busy = s.env.busy ∧
    (State.elapseWait ok us s).env.miso = s.env.miso ∧ (State.elapseWait ok us s).env.bus = s.env.bus ∧
    (State.elapseWait ok us s).env.time = s.env.time + waitTime ok us (Config.timeDraw s.env.drawn) ∧
    (State.elapseWait ok us s).env.drawn = s.env.drawn + 1 ∧
    (State.elapseWait ok us s).env.rxDrawn = s.env.rxDrawn ∧ (State.elapseWait ok us s).env.epoch = s.env.epoch :=
  ⟨rfl, rfl, rfl, rfl, rfl, rfl, rfl, rfl, rfl, rfl, rfl, rfl, rfl, rfl, rfl, rfl, rfl, rfl, rfl, rfl, rfl, rfl, rfl, rfl, rfl, rfl, rfl, rfl, rfl, rfl, rfl, rfl, rfl, rfl⟩

@[simp] theorem State.takeBusy_fields :
    (State.takeBusy s).crcEn = s.crcEn ∧ (State.takeBusy s).ie = s.ie ∧ (State.takeBusy s).opc = s.opc ∧
    (State.takeBusy s).arg = s.arg ∧ (State.takeBusy s).busy = s.busy ∧ (State.takeBusy s).done = s.done ∧
    (State.takeBusy s).ovr = s.ovr ∧ (State.takeBusy s).err = s.err ∧ (State.takeBusy s).estate = s.estate ∧
    (State.takeBusy s).result = s.result ∧ (State.takeBusy s).result1 = s.result1 ∧ (State.takeBusy s).mem = s.mem ∧
    (State.takeBusy s).frame = s.frame ∧ (State.takeBusy s).registry = s.registry ∧ (State.takeBusy s).seq = s.seq ∧
    (State.takeBusy s).a = s.a ∧ (State.takeBusy s).k = s.k ∧ (State.takeBusy s).prev = s.prev ∧
    (State.takeBusy s).r = s.r ∧ (State.takeBusy s).level = s.level ∧ (State.takeBusy s).acc = s.acc ∧
    (State.takeBusy s).sel = s.sel ∧ (State.takeBusy s).mosi = s.mosi ∧ (State.takeBusy s).rstn = s.rstn ∧
    (State.takeBusy s).cfg = s.cfg ∧ (State.takeBusy s).env.host = s.env.host ∧
    (State.takeBusy s).env.replies = s.env.replies ∧ (State.takeBusy s).env.busy = s.env.busy.tail ∧
    (State.takeBusy s).env.miso = s.env.miso ∧ (State.takeBusy s).env.bus = s.env.bus ∧
    (State.takeBusy s).env.time = s.env.time ∧ (State.takeBusy s).env.drawn = s.env.drawn + 1 ∧
    (State.takeBusy s).env.rxDrawn = s.env.rxDrawn ∧ (State.takeBusy s).env.epoch = s.env.epoch :=
  ⟨rfl, rfl, rfl, rfl, rfl, rfl, rfl, rfl, rfl, rfl, rfl, rfl, rfl, rfl, rfl, rfl, rfl, rfl, rfl, rfl, rfl, rfl, rfl, rfl, rfl, rfl, rfl, rfl, rfl, rfl, rfl, rfl, rfl, rfl⟩

@[simp] theorem State.takeMiso_fields :
    (State.takeMiso s).crcEn = s.crcEn ∧ (State.takeMiso s).ie = s.ie ∧ (State.takeMiso s).opc = s.opc ∧
    (State.takeMiso s).arg = s.arg ∧ (State.takeMiso s).busy = s.busy ∧ (State.takeMiso s).done = s.done ∧
    (State.takeMiso s).ovr = s.ovr ∧ (State.takeMiso s).err = s.err ∧ (State.takeMiso s).estate = s.estate ∧
    (State.takeMiso s).result = s.result ∧ (State.takeMiso s).result1 = s.result1 ∧ (State.takeMiso s).mem = s.mem ∧
    (State.takeMiso s).frame = s.frame ∧ (State.takeMiso s).registry = s.registry ∧ (State.takeMiso s).seq = s.seq ∧
    (State.takeMiso s).a = s.a ∧ (State.takeMiso s).k = s.k ∧ (State.takeMiso s).prev = s.prev ∧
    (State.takeMiso s).r = s.r ∧ (State.takeMiso s).level = s.level ∧ (State.takeMiso s).acc = s.acc ∧
    (State.takeMiso s).sel = s.sel ∧ (State.takeMiso s).mosi = s.mosi ∧ (State.takeMiso s).rstn = s.rstn ∧
    (State.takeMiso s).cfg = s.cfg ∧ (State.takeMiso s).env.host = s.env.host ∧
    (State.takeMiso s).env.replies = s.env.replies ∧ (State.takeMiso s).env.busy = s.env.busy ∧
    (State.takeMiso s).env.miso = s.env.miso.tail ∧ (State.takeMiso s).env.bus = s.env.bus ∧
    (State.takeMiso s).env.time = s.env.time ∧ (State.takeMiso s).env.drawn = s.env.drawn + 1 ∧
    (State.takeMiso s).env.rxDrawn = s.env.rxDrawn ∧ (State.takeMiso s).env.epoch = s.env.epoch :=
  ⟨rfl, rfl, rfl, rfl, rfl, rfl, rfl, rfl, rfl, rfl, rfl, rfl, rfl, rfl, rfl, rfl, rfl, rfl, rfl, rfl, rfl, rfl, rfl, rfl, rfl, rfl, rfl, rfl, rfl, rfl, rfl, rfl, rfl, rfl⟩

@[simp] theorem State.selected_fields (v : Bool) :
    (State.selected v s).crcEn = s.crcEn ∧ (State.selected v s).ie = s.ie ∧ (State.selected v s).opc = s.opc ∧
    (State.selected v s).arg = s.arg ∧ (State.selected v s).busy = s.busy ∧ (State.selected v s).done = s.done ∧
    (State.selected v s).ovr = s.ovr ∧ (State.selected v s).err = s.err ∧ (State.selected v s).estate = s.estate ∧
    (State.selected v s).result = s.result ∧ (State.selected v s).result1 = s.result1 ∧
    (State.selected v s).mem = s.mem ∧ (State.selected v s).frame = s.frame ∧
    (State.selected v s).registry = s.registry ∧ (State.selected v s).seq = s.seq ∧ (State.selected v s).a = s.a ∧
    (State.selected v s).k = s.k ∧ (State.selected v s).prev = s.prev ∧ (State.selected v s).r = s.r ∧
    (State.selected v s).level = s.level ∧ (State.selected v s).acc = s.acc ∧ (State.selected v s).sel = v ∧
    (State.selected v s).mosi = s.mosi ∧ (State.selected v s).rstn = s.rstn ∧ (State.selected v s).cfg = s.cfg ∧
    (State.selected v s).env.host = s.env.host ∧ (State.selected v s).env.replies = s.env.replies ∧
    (State.selected v s).env.busy = s.env.busy ∧ (State.selected v s).env.miso = s.env.miso ∧
    (State.selected v s).env.bus = s.env.bus ++ [.sel v] ∧
    (State.selected v s).env.time = s.env.time + Config.timeDraw s.env.drawn ∧
    (State.selected v s).env.drawn = s.env.drawn + 1 ∧ (State.selected v s).env.rxDrawn = s.env.rxDrawn ∧
    (State.selected v s).env.epoch = s.env.epoch :=
  ⟨rfl, rfl, rfl, rfl, rfl, rfl, rfl, rfl, rfl, rfl, rfl, rfl, rfl, rfl, rfl, rfl, rfl, rfl, rfl, rfl, rfl, rfl, rfl, rfl, rfl, rfl, rfl, rfl, rfl, rfl, rfl, rfl, rfl, rfl⟩

@[simp] theorem State.waited_fields (want : Bool) (ms : Nat) :
    (State.waited want ms s).crcEn = s.crcEn ∧ (State.waited want ms s).ie = s.ie ∧
    (State.waited want ms s).opc = s.opc ∧ (State.waited want ms s).arg = s.arg ∧
    (State.waited want ms s).busy = s.busy ∧ (State.waited want ms s).done = s.done ∧
    (State.waited want ms s).ovr = s.ovr ∧ (State.waited want ms s).err = s.err ∧
    (State.waited want ms s).estate = s.estate ∧ (State.waited want ms s).result = s.result ∧
    (State.waited want ms s).result1 = s.result1 ∧ (State.waited want ms s).mem = s.mem ∧
    (State.waited want ms s).frame = s.frame ∧ (State.waited want ms s).registry = s.registry ∧
    (State.waited want ms s).seq = s.seq ∧ (State.waited want ms s).a = s.a ∧ (State.waited want ms s).k = s.k ∧
    (State.waited want ms s).prev = s.prev ∧ (State.waited want ms s).r = s.r ∧
    (State.waited want ms s).level = s.level ∧ (State.waited want ms s).acc = s.acc ∧
    (State.waited want ms s).sel = s.sel ∧ (State.waited want ms s).mosi = s.mosi ∧
    (State.waited want ms s).rstn = s.rstn ∧ (State.waited want ms s).cfg = s.cfg ∧
    (State.waited want ms s).env.host = s.env.host ∧ (State.waited want ms s).env.replies = s.env.replies ∧
    (State.waited want ms s).env.busy = s.env.busy.tail ∧ (State.waited want ms s).env.miso = s.env.miso ∧
    (State.waited want ms s).env.bus = s.env.bus ++ [.wait want ms s.nextBusy] ∧
    (State.waited want ms s).env.time = s.env.time + waitTime s.nextBusy (ms * 1000) (Config.timeDraw (s.env.drawn + 1)) ∧
    (State.waited want ms s).env.drawn = s.env.drawn + 2 ∧ (State.waited want ms s).env.rxDrawn = s.env.rxDrawn ∧
    (State.waited want ms s).env.epoch = s.env.epoch :=
  ⟨rfl, rfl, rfl, rfl, rfl, rfl, rfl, rfl, rfl, rfl, rfl, rfl, rfl, rfl, rfl, rfl, rfl, rfl, rfl, rfl, rfl, rfl, rfl, rfl, rfl, rfl, rfl, rfl, rfl, rfl, rfl, rfl, rfl, rfl⟩

@[simp] theorem State.delayed_fields (us : Nat) :
    (State.delayed us s).crcEn = s.crcEn ∧ (State.delayed us s).ie = s.ie ∧ (State.delayed us s).opc = s.opc ∧
    (State.delayed us s).arg = s.arg ∧ (State.delayed us s).busy = s.busy ∧ (State.delayed us s).done = s.done ∧
    (State.delayed us s).ovr = s.ovr ∧ (State.delayed us s).err = s.err ∧ (State.delayed us s).estate = s.estate ∧
    (State.delayed us s).result = s.result ∧ (State.delayed us s).result1 = s.result1 ∧
    (State.delayed us s).mem = s.mem ∧ (State.delayed us s).frame = s.frame ∧
    (State.delayed us s).registry = s.registry ∧ (State.delayed us s).seq = s.seq ∧ (State.delayed us s).a = s.a ∧
    (State.delayed us s).k = s.k ∧ (State.delayed us s).prev = s.prev ∧ (State.delayed us s).r = s.r ∧
    (State.delayed us s).level = s.level ∧ (State.delayed us s).acc = s.acc ∧ (State.delayed us s).sel = s.sel ∧
    (State.delayed us s).mosi = s.mosi ∧ (State.delayed us s).rstn = s.rstn ∧ (State.delayed us s).cfg = s.cfg ∧
    (State.delayed us s).env.host = s.env.host ∧ (State.delayed us s).env.replies = s.env.replies ∧
    (State.delayed us s).env.busy = s.env.busy ∧ (State.delayed us s).env.miso = s.env.miso ∧
    (State.delayed us s).env.bus = s.env.bus ++ [.delay us] ∧
    (State.delayed us s).env.time = s.env.time + us + Config.timeDraw s.env.drawn ∧
    (State.delayed us s).env.drawn = s.env.drawn + 1 ∧ (State.delayed us s).env.rxDrawn = s.env.rxDrawn ∧
    (State.delayed us s).env.epoch = s.env.epoch :=
  ⟨rfl, rfl, rfl, rfl, rfl, rfl, rfl, rfl, rfl, rfl, rfl, rfl, rfl, rfl, rfl, rfl, rfl, rfl, rfl, rfl, rfl, rfl, rfl, rfl, rfl, rfl, rfl, rfl, rfl, rfl, rfl, rfl, rfl, rfl⟩

@[simp] theorem State.sent_fields (b : Byte) :
    (State.sent b s).crcEn = s.crcEn ∧ (State.sent b s).ie = s.ie ∧ (State.sent b s).opc = s.opc ∧
    (State.sent b s).arg = s.arg ∧ (State.sent b s).busy = s.busy ∧ (State.sent b s).done = s.done ∧
    (State.sent b s).ovr = s.ovr ∧ (State.sent b s).err = s.err ∧ (State.sent b s).estate = s.estate ∧
    (State.sent b s).result = s.result ∧ (State.sent b s).result1 = s.result1 ∧ (State.sent b s).mem = s.mem ∧
    (State.sent b s).frame = s.frame ∧ (State.sent b s).registry = s.registry ∧ (State.sent b s).seq = s.seq ∧
    (State.sent b s).a = s.a ∧ (State.sent b s).k = s.k ∧ (State.sent b s).prev = s.prev ∧
    (State.sent b s).r = s.r ∧ (State.sent b s).level = s.level ∧ (State.sent b s).acc = s.acc ∧
    (State.sent b s).sel = s.sel ∧ (State.sent b s).mosi = b ∧ (State.sent b s).rstn = s.rstn ∧
    (State.sent b s).cfg = s.cfg ∧ (State.sent b s).env.host = s.env.host ∧
    (State.sent b s).env.replies = s.env.replies ∧ (State.sent b s).env.busy = s.env.busy ∧
    (State.sent b s).env.miso = s.env.miso ∧ (State.sent b s).env.bus = s.env.bus ++ [.out b] ∧
    (State.sent b s).env.time = s.env.time + 0 + Config.timeDraw s.env.drawn ∧
    (State.sent b s).env.drawn = s.env.drawn + 1 ∧ (State.sent b s).env.rxDrawn = s.env.rxDrawn ∧
    (State.sent b s).env.epoch = s.env.epoch :=
  ⟨rfl, rfl, rfl, rfl, rfl, rfl, rfl, rfl, rfl, rfl, rfl, rfl, rfl, rfl, rfl, rfl, rfl, rfl, rfl, rfl, rfl, rfl, rfl, rfl, rfl, rfl, rfl, rfl, rfl, rfl, rfl, rfl, rfl, rfl⟩

@[simp] theorem State.captured_fields :
    (State.captured s).crcEn = s.crcEn ∧ (State.captured s).ie = s.ie ∧ (State.captured s).opc = s.opc ∧
    (State.captured s).arg = s.arg ∧ (State.captured s).busy = s.busy ∧ (State.captured s).done = s.done ∧
    (State.captured s).ovr = s.ovr ∧ (State.captured s).err = s.err ∧ (State.captured s).estate = s.estate ∧
    (State.captured s).result = s.result ∧ (State.captured s).result1 = s.result1 ∧ (State.captured s).mem = s.mem ∧
    (State.captured s).frame = s.frame ∧ (State.captured s).registry = s.registry ∧ (State.captured s).seq = s.seq ∧
    (State.captured s).a = s.a ∧ (State.captured s).k = s.k ∧ (State.captured s).prev = s.prev ∧
    (State.captured s).r = s.r ∧ (State.captured s).level = s.level ∧ (State.captured s).acc = s.acc ∧
    (State.captured s).sel = s.sel ∧ (State.captured s).mosi = Config.filler ∧ (State.captured s).rstn = s.rstn ∧
    (State.captured s).cfg = s.cfg ∧ (State.captured s).env.host = s.env.host ∧
    (State.captured s).env.replies = s.env.replies ∧ (State.captured s).env.busy = s.env.busy ∧
    (State.captured s).env.miso = s.env.miso.tail ∧ (State.captured s).env.bus = s.env.bus ++ [.filler s.nextMiso] ∧
    (State.captured s).env.time = s.env.time + 0 + Config.timeDraw (s.env.drawn + 1) ∧
    (State.captured s).env.drawn = s.env.drawn + 2 ∧ (State.captured s).env.rxDrawn = s.env.rxDrawn ∧
    (State.captured s).env.epoch = s.env.epoch :=
  ⟨rfl, rfl, rfl, rfl, rfl, rfl, rfl, rfl, rfl, rfl, rfl, rfl, rfl, rfl, rfl, rfl, rfl, rfl, rfl, rfl, rfl, rfl, rfl, rfl, rfl, rfl, rfl, rfl, rfl, rfl, rfl, rfl, rfl, rfl⟩

@[simp] theorem State.storeRx_fields (k : Nat) (bs : List Byte) :
    (State.storeRx k bs s).crcEn = s.crcEn ∧ (State.storeRx k bs s).ie = s.ie ∧ (State.storeRx k bs s).opc = s.opc ∧
    (State.storeRx k bs s).arg = s.arg ∧ (State.storeRx k bs s).busy = s.busy ∧
    (State.storeRx k bs s).done = s.done ∧ (State.storeRx k bs s).ovr = s.ovr ∧ (State.storeRx k bs s).err = s.err ∧
    (State.storeRx k bs s).estate = s.estate ∧ (State.storeRx k bs s).result = s.result ∧
    (State.storeRx k bs s).result1 = s.result1 ∧
    (State.storeRx k bs s).mem = Memory.store s.mem (Config.rxBase + k) bs ∧
    (State.storeRx k bs s).frame = s.frame ∧ (State.storeRx k bs s).registry = s.registry ∧
    (State.storeRx k bs s).seq = s.seq ∧ (State.storeRx k bs s).a = s.a ∧ (State.storeRx k bs s).k = s.k ∧
    (State.storeRx k bs s).prev = s.prev ∧ (State.storeRx k bs s).r = s.r ∧ (State.storeRx k bs s).level = s.level ∧
    (State.storeRx k bs s).acc = s.acc ∧ (State.storeRx k bs s).sel = s.sel ∧ (State.storeRx k bs s).mosi = s.mosi ∧
    (State.storeRx k bs s).rstn = s.rstn ∧ (State.storeRx k bs s).cfg = s.cfg ∧ (State.storeRx k bs s).env = s.env :=
  ⟨rfl, rfl, rfl, rfl, rfl, rfl, rfl, rfl, rfl, rfl, rfl, rfl, rfl, rfl, rfl, rfl, rfl, rfl, rfl, rfl, rfl, rfl, rfl, rfl, rfl, rfl⟩

@[simp] theorem State.storeFrame_fields (bs : List Byte) :
    (State.storeFrame bs s).crcEn = s.crcEn ∧ (State.storeFrame bs s).ie = s.ie ∧
    (State.storeFrame bs s).opc = s.opc ∧ (State.storeFrame bs s).arg = s.arg ∧
    (State.storeFrame bs s).busy = s.busy ∧ (State.storeFrame bs s).done = s.done ∧
    (State.storeFrame bs s).ovr = s.ovr ∧ (State.storeFrame bs s).err = s.err ∧
    (State.storeFrame bs s).estate = s.estate ∧ (State.storeFrame bs s).result = s.result ∧
    (State.storeFrame bs s).result1 = s.result1 ∧ (State.storeFrame bs s).mem = s.mem ∧
    (State.storeFrame bs s).frame = Memory.store s.frame 0 bs ∧ (State.storeFrame bs s).registry = s.registry ∧
    (State.storeFrame bs s).seq = s.seq ∧ (State.storeFrame bs s).a = s.a ∧ (State.storeFrame bs s).k = s.k ∧
    (State.storeFrame bs s).prev = s.prev ∧ (State.storeFrame bs s).r = s.r ∧
    (State.storeFrame bs s).level = s.level ∧ (State.storeFrame bs s).acc = s.acc ∧
    (State.storeFrame bs s).sel = s.sel ∧ (State.storeFrame bs s).mosi = s.mosi ∧
    (State.storeFrame bs s).rstn = s.rstn ∧ (State.storeFrame bs s).cfg = s.cfg ∧
    (State.storeFrame bs s).env = s.env :=
  ⟨rfl, rfl, rfl, rfl, rfl, rfl, rfl, rfl, rfl, rfl, rfl, rfl, rfl, rfl, rfl, rfl, rfl, rfl, rfl, rfl, rfl, rfl, rfl, rfl, rfl, rfl⟩

@[simp] theorem State.install_fields (e : Target) :
    (State.install e s).crcEn = s.crcEn ∧ (State.install e s).ie = s.ie ∧ (State.install e s).opc = s.opc ∧
    (State.install e s).arg = s.arg ∧ (State.install e s).busy = s.busy ∧ (State.install e s).done = s.done ∧
    (State.install e s).ovr = s.ovr ∧ (State.install e s).err = s.err ∧ (State.install e s).estate = s.estate ∧
    (State.install e s).result = s.result ∧ (State.install e s).result1 = s.result1 ∧
    (State.install e s).mem = s.mem ∧ (State.install e s).frame = s.frame ∧
    (State.install e s).registry = s.registry ++ [e] ∧ (State.install e s).seq = s.seq ∧
    (State.install e s).a = s.a ∧ (State.install e s).k = s.k ∧ (State.install e s).prev = s.prev ∧
    (State.install e s).r = s.r ∧ (State.install e s).level = s.level ∧ (State.install e s).acc = s.acc ∧
    (State.install e s).sel = s.sel ∧ (State.install e s).mosi = s.mosi ∧ (State.install e s).rstn = s.rstn ∧
    (State.install e s).cfg = s.cfg ∧ (State.install e s).env = s.env :=
  ⟨rfl, rfl, rfl, rfl, rfl, rfl, rfl, rfl, rfl, rfl, rfl, rfl, rfl, rfl, rfl, rfl, rfl, rfl, rfl, rfl, rfl, rfl, rfl, rfl, rfl, rfl⟩

@[simp] theorem State.removeTarget_fields (tn : Byte) :
    (State.removeTarget tn s).crcEn = s.crcEn ∧ (State.removeTarget tn s).ie = s.ie ∧
    (State.removeTarget tn s).opc = s.opc ∧ (State.removeTarget tn s).arg = s.arg ∧
    (State.removeTarget tn s).busy = s.busy ∧ (State.removeTarget tn s).done = s.done ∧
    (State.removeTarget tn s).ovr = s.ovr ∧ (State.removeTarget tn s).err = s.err ∧
    (State.removeTarget tn s).estate = s.estate ∧ (State.removeTarget tn s).result = s.result ∧
    (State.removeTarget tn s).result1 = s.result1 ∧ (State.removeTarget tn s).mem = s.mem ∧
    (State.removeTarget tn s).frame = s.frame ∧
    (State.removeTarget tn s).registry = (s.registry.filter fun e => e.tn != tn) ∧
    (State.removeTarget tn s).seq = s.seq ∧ (State.removeTarget tn s).a = s.a ∧ (State.removeTarget tn s).k = s.k ∧
    (State.removeTarget tn s).prev = s.prev ∧ (State.removeTarget tn s).r = s.r ∧
    (State.removeTarget tn s).level = s.level ∧ (State.removeTarget tn s).acc = s.acc ∧
    (State.removeTarget tn s).sel = s.sel ∧ (State.removeTarget tn s).mosi = s.mosi ∧
    (State.removeTarget tn s).rstn = s.rstn ∧ (State.removeTarget tn s).cfg = s.cfg ∧
    (State.removeTarget tn s).env = s.env :=
  ⟨rfl, rfl, rfl, rfl, rfl, rfl, rfl, rfl, rfl, rfl, rfl, rfl, rfl, rfl, rfl, rfl, rfl, rfl, rfl, rfl, rfl, rfl, rfl, rfl, rfl, rfl⟩

@[simp] theorem State.setMark_fields (tn : Byte) (m : Bool) :
    (State.setMark tn m s).crcEn = s.crcEn ∧ (State.setMark tn m s).ie = s.ie ∧ (State.setMark tn m s).opc = s.opc ∧
    (State.setMark tn m s).arg = s.arg ∧ (State.setMark tn m s).busy = s.busy ∧
    (State.setMark tn m s).done = s.done ∧ (State.setMark tn m s).ovr = s.ovr ∧ (State.setMark tn m s).err = s.err ∧
    (State.setMark tn m s).estate = s.estate ∧ (State.setMark tn m s).result = s.result ∧
    (State.setMark tn m s).result1 = s.result1 ∧ (State.setMark tn m s).mem = s.mem ∧
    (State.setMark tn m s).frame = s.frame ∧
    (State.setMark tn m s).registry = (s.registry.map fun e => if e.tn = tn then { e with mark := m } else e) ∧
    (State.setMark tn m s).seq = s.seq ∧ (State.setMark tn m s).a = s.a ∧ (State.setMark tn m s).k = s.k ∧
    (State.setMark tn m s).prev = s.prev ∧ (State.setMark tn m s).r = s.r ∧ (State.setMark tn m s).level = s.level ∧
    (State.setMark tn m s).acc = s.acc ∧ (State.setMark tn m s).sel = s.sel ∧ (State.setMark tn m s).mosi = s.mosi ∧
    (State.setMark tn m s).rstn = s.rstn ∧ (State.setMark tn m s).cfg = s.cfg ∧ (State.setMark tn m s).env = s.env :=
  ⟨rfl, rfl, rfl, rfl, rfl, rfl, rfl, rfl, rfl, rfl, rfl, rfl, rfl, rfl, rfl, rfl, rfl, rfl, rfl, rfl, rfl, rfl, rfl, rfl, rfl, rfl⟩

@[simp] theorem State.writeStatus_fields (v : Word) :
    (State.writeStatus v s).crcEn = s.crcEn ∧ (State.writeStatus v s).ie = s.ie ∧
    (State.writeStatus v s).opc = s.opc ∧ (State.writeStatus v s).arg = s.arg ∧
    (State.writeStatus v s).busy = s.busy ∧ (State.writeStatus v s).done = (s.done && !v.getLsbD 1) ∧
    (State.writeStatus v s).ovr = (s.ovr && !v.getLsbD 2) ∧ (State.writeStatus v s).err = s.err ∧
    (State.writeStatus v s).estate = s.estate ∧ (State.writeStatus v s).result = s.result ∧
    (State.writeStatus v s).result1 = s.result1 ∧ (State.writeStatus v s).mem = s.mem ∧
    (State.writeStatus v s).frame = s.frame ∧ (State.writeStatus v s).registry = s.registry ∧
    (State.writeStatus v s).seq = s.seq ∧ (State.writeStatus v s).a = s.a ∧ (State.writeStatus v s).k = s.k ∧
    (State.writeStatus v s).prev = s.prev ∧ (State.writeStatus v s).r = s.r ∧
    (State.writeStatus v s).level = s.level ∧ (State.writeStatus v s).acc = s.acc ∧
    (State.writeStatus v s).sel = s.sel ∧ (State.writeStatus v s).mosi = s.mosi ∧
    (State.writeStatus v s).rstn = s.rstn ∧ (State.writeStatus v s).cfg = s.cfg ∧
    (State.writeStatus v s).env = s.env :=
  ⟨rfl, rfl, rfl, rfl, rfl, rfl, rfl, rfl, rfl, rfl, rfl, rfl, rfl, rfl, rfl, rfl, rfl, rfl, rfl, rfl, rfl, rfl, rfl, rfl, rfl, rfl⟩

@[simp] theorem State.pollStart_fields :
    (State.pollStart s).crcEn = s.crcEn ∧ (State.pollStart s).ie = s.ie ∧ (State.pollStart s).opc = s.opc ∧
    (State.pollStart s).arg = s.arg ∧ (State.pollStart s).busy = s.busy ∧ (State.pollStart s).done = s.done ∧
    (State.pollStart s).ovr = s.ovr ∧ (State.pollStart s).err = s.err ∧ (State.pollStart s).estate = s.estate ∧
    (State.pollStart s).result = s.result ∧ (State.pollStart s).result1 = s.result1 ∧
    (State.pollStart s).mem = s.mem ∧ (State.pollStart s).frame = s.frame ∧
    (State.pollStart s).registry = s.registry ∧ (State.pollStart s).seq = s.seq ∧ (State.pollStart s).a = s.a ∧
    (State.pollStart s).k = 0 ∧ (State.pollStart s).prev = 0 ∧ (State.pollStart s).r = s.r ∧
    (State.pollStart s).level = s.level ∧ (State.pollStart s).acc = s.acc ∧ (State.pollStart s).sel = s.sel ∧
    (State.pollStart s).mosi = s.mosi ∧ (State.pollStart s).rstn = s.rstn ∧ (State.pollStart s).cfg = s.cfg ∧
    (State.pollStart s).env = s.env :=
  ⟨rfl, rfl, rfl, rfl, rfl, rfl, rfl, rfl, rfl, rfl, rfl, rfl, rfl, rfl, rfl, rfl, rfl, rfl, rfl, rfl, rfl, rfl, rfl, rfl, rfl, rfl⟩

@[simp] theorem State.polled_fields (c : Nat) :
    (State.polled c s).crcEn = s.crcEn ∧ (State.polled c s).ie = s.ie ∧ (State.polled c s).opc = s.opc ∧
    (State.polled c s).arg = s.arg ∧ (State.polled c s).busy = s.busy ∧ (State.polled c s).done = s.done ∧
    (State.polled c s).ovr = s.ovr ∧ (State.polled c s).err = s.err ∧ (State.polled c s).estate = s.estate ∧
    (State.polled c s).result = s.result ∧ (State.polled c s).result1 = s.result1 ∧ (State.polled c s).mem = s.mem ∧
    (State.polled c s).frame = s.frame ∧ (State.polled c s).registry = s.registry ∧ (State.polled c s).seq = s.seq ∧
    (State.polled c s).a = s.a ∧ (State.polled c s).k = s.k + 1 ∧ (State.polled c s).prev = c ∧
    (State.polled c s).r = s.r ∧ (State.polled c s).level = s.level ∧ (State.polled c s).acc = s.acc ∧
    (State.polled c s).sel = s.sel ∧ (State.polled c s).mosi = s.mosi ∧ (State.polled c s).rstn = s.rstn ∧
    (State.polled c s).cfg = s.cfg ∧ (State.polled c s).env = s.env :=
  ⟨rfl, rfl, rfl, rfl, rfl, rfl, rfl, rfl, rfl, rfl, rfl, rfl, rfl, rfl, rfl, rfl, rfl, rfl, rfl, rfl, rfl, rfl, rfl, rfl, rfl, rfl⟩

@[simp] theorem State.setEState_fields (e : EState) :
    (State.setEState e s).crcEn = s.crcEn ∧ (State.setEState e s).ie = s.ie ∧ (State.setEState e s).opc = s.opc ∧
    (State.setEState e s).arg = s.arg ∧ (State.setEState e s).busy = s.busy ∧ (State.setEState e s).done = s.done ∧
    (State.setEState e s).ovr = s.ovr ∧ (State.setEState e s).err = s.err ∧ (State.setEState e s).estate = e ∧
    (State.setEState e s).result = s.result ∧ (State.setEState e s).result1 = s.result1 ∧
    (State.setEState e s).mem = s.mem ∧ (State.setEState e s).frame = s.frame ∧
    (State.setEState e s).registry = s.registry ∧ (State.setEState e s).seq = s.seq ∧
    (State.setEState e s).a = s.a ∧ (State.setEState e s).k = s.k ∧ (State.setEState e s).prev = s.prev ∧
    (State.setEState e s).r = s.r ∧ (State.setEState e s).level = s.level ∧ (State.setEState e s).acc = s.acc ∧
    (State.setEState e s).sel = s.sel ∧ (State.setEState e s).mosi = s.mosi ∧ (State.setEState e s).rstn = s.rstn ∧
    (State.setEState e s).cfg = s.cfg ∧ (State.setEState e s).env = s.env :=
  ⟨rfl, rfl, rfl, rfl, rfl, rfl, rfl, rfl, rfl, rfl, rfl, rfl, rfl, rfl, rfl, rfl, rfl, rfl, rfl, rfl, rfl, rfl, rfl, rfl, rfl, rfl⟩

@[simp] theorem State.enterEngine_fields :
    (State.enterEngine s).crcEn = s.crcEn ∧ (State.enterEngine s).ie = s.ie ∧ (State.enterEngine s).opc = s.opc ∧
    (State.enterEngine s).arg = s.arg ∧ (State.enterEngine s).busy = s.busy ∧ (State.enterEngine s).done = s.done ∧
    (State.enterEngine s).ovr = s.ovr ∧ (State.enterEngine s).err = s.err ∧
    (State.enterEngine s).estate = .awaitingResponse ∧ (State.enterEngine s).result = s.result ∧
    (State.enterEngine s).result1 = s.result1 ∧ (State.enterEngine s).mem = s.mem ∧
    (State.enterEngine s).frame = s.frame ∧ (State.enterEngine s).registry = s.registry ∧
    (State.enterEngine s).seq = s.seq ∧ (State.enterEngine s).a = s.a ∧ (State.enterEngine s).k = s.k ∧
    (State.enterEngine s).prev = s.prev ∧ (State.enterEngine s).r = 0 ∧ (State.enterEngine s).level = 0 ∧
    (State.enterEngine s).acc = 0 ∧ (State.enterEngine s).sel = s.sel ∧ (State.enterEngine s).mosi = s.mosi ∧
    (State.enterEngine s).rstn = s.rstn ∧ (State.enterEngine s).cfg = s.cfg ∧ (State.enterEngine s).env = s.env :=
  ⟨rfl, rfl, rfl, rfl, rfl, rfl, rfl, rfl, rfl, rfl, rfl, rfl, rfl, rfl, rfl, rfl, rfl, rfl, rfl, rfl, rfl, rfl, rfl, rfl, rfl, rfl⟩

@[simp] theorem State.retried_fields :
    (State.retried s).crcEn = s.crcEn ∧ (State.retried s).ie = s.ie ∧ (State.retried s).opc = s.opc ∧
    (State.retried s).arg = s.arg ∧ (State.retried s).busy = s.busy ∧ (State.retried s).done = s.done ∧
    (State.retried s).ovr = s.ovr ∧ (State.retried s).err = s.err ∧ (State.retried s).estate = s.estate ∧
    (State.retried s).result = s.result ∧ (State.retried s).result1 = s.result1 ∧ (State.retried s).mem = s.mem ∧
    (State.retried s).frame = s.frame ∧ (State.retried s).registry = s.registry ∧ (State.retried s).seq = s.seq ∧
    (State.retried s).a = s.a ∧ (State.retried s).k = s.k ∧ (State.retried s).prev = s.prev ∧
    (State.retried s).r = s.r + 1 ∧ (State.retried s).level = s.level ∧ (State.retried s).acc = s.acc ∧
    (State.retried s).sel = s.sel ∧ (State.retried s).mosi = s.mosi ∧ (State.retried s).rstn = s.rstn ∧
    (State.retried s).cfg = s.cfg ∧ (State.retried s).env = s.env :=
  ⟨rfl, rfl, rfl, rfl, rfl, rfl, rfl, rfl, rfl, rfl, rfl, rfl, rfl, rfl, rfl, rfl, rfl, rfl, rfl, rfl, rfl, rfl, rfl, rfl, rfl, rfl⟩

@[simp] theorem State.levelUp_fields :
    (State.levelUp s).crcEn = s.crcEn ∧ (State.levelUp s).ie = s.ie ∧ (State.levelUp s).opc = s.opc ∧
    (State.levelUp s).arg = s.arg ∧ (State.levelUp s).busy = s.busy ∧ (State.levelUp s).done = s.done ∧
    (State.levelUp s).ovr = s.ovr ∧ (State.levelUp s).err = s.err ∧ (State.levelUp s).estate = s.estate ∧
    (State.levelUp s).result = s.result ∧ (State.levelUp s).result1 = s.result1 ∧ (State.levelUp s).mem = s.mem ∧
    (State.levelUp s).frame = s.frame ∧ (State.levelUp s).registry = s.registry ∧ (State.levelUp s).seq = s.seq ∧
    (State.levelUp s).a = s.a ∧ (State.levelUp s).k = s.k ∧ (State.levelUp s).prev = s.prev ∧
    (State.levelUp s).r = s.r ∧ (State.levelUp s).level = 1 ∧ (State.levelUp s).acc = s.acc ∧
    (State.levelUp s).sel = s.sel ∧ (State.levelUp s).mosi = s.mosi ∧ (State.levelUp s).rstn = s.rstn ∧
    (State.levelUp s).cfg = s.cfg ∧ (State.levelUp s).env = s.env :=
  ⟨rfl, rfl, rfl, rfl, rfl, rfl, rfl, rfl, rfl, rfl, rfl, rfl, rfl, rfl, rfl, rfl, rfl, rfl, rfl, rfl, rfl, rfl, rfl, rfl, rfl, rfl⟩

@[simp] theorem State.takePart_fields (e : Target) (n : Nat) :
    (State.takePart e n s).crcEn = s.crcEn ∧ (State.takePart e n s).ie = s.ie ∧ (State.takePart e n s).opc = s.opc ∧
    (State.takePart e n s).arg = s.arg ∧ (State.takePart e n s).busy = s.busy ∧
    (State.takePart e n s).done = s.done ∧ (State.takePart e n s).ovr = s.ovr ∧ (State.takePart e n s).err = s.err ∧
    (State.takePart e n s).estate = s.estate ∧ (State.takePart e n s).result = s.result ∧
    (State.takePart e n s).result1 = s.result1 ∧
    (State.takePart e n s).mem = Memory.store s.mem (Config.rxBase + s.acc) (s.frameBytes 2 (n - 2)) ∧
    (State.takePart e n s).frame = s.frame ∧
    (State.takePart e n s).registry = (s.registry.map fun x => if x.tn = e.tn then { x with mark := !e.mark } else x) ∧
    (State.takePart e n s).seq = s.seq ∧ (State.takePart e n s).a = s.a ∧ (State.takePart e n s).k = s.k ∧
    (State.takePart e n s).prev = s.prev ∧ (State.takePart e n s).r = s.r ∧ (State.takePart e n s).level = s.level ∧
    (State.takePart e n s).acc = s.acc + (n - 2) ∧ (State.takePart e n s).sel = s.sel ∧
    (State.takePart e n s).mosi = s.mosi ∧ (State.takePart e n s).rstn = s.rstn ∧
    (State.takePart e n s).cfg = s.cfg ∧ (State.takePart e n s).env = s.env :=
  ⟨rfl, rfl, rfl, rfl, rfl, rfl, rfl, rfl, rfl, rfl, rfl, rfl, rfl, rfl, rfl, rfl, rfl, rfl, rfl, rfl, rfl, rfl, rfl, rfl, rfl, rfl⟩

@[simp] theorem State.toReceived_fields (n : Nat) :
    (State.toReceived n s).crcEn = s.crcEn ∧ (State.toReceived n s).ie = s.ie ∧ (State.toReceived n s).opc = s.opc ∧
    (State.toReceived n s).arg = s.arg ∧ (State.toReceived n s).busy = s.busy ∧
    (State.toReceived n s).done = s.done ∧ (State.toReceived n s).ovr = s.ovr ∧ (State.toReceived n s).err = s.err ∧
    (State.toReceived n s).estate = s.estate ∧ (State.toReceived n s).result = s.result ∧
    (State.toReceived n s).result1 = s.result1 ∧ (State.toReceived n s).mem = s.mem ∧
    (State.toReceived n s).frame = s.frame ∧ (State.toReceived n s).registry = s.registry ∧
    (State.toReceived n s).seq = .received n ∧ (State.toReceived n s).a = s.a ∧ (State.toReceived n s).k = s.k ∧
    (State.toReceived n s).prev = s.prev ∧ (State.toReceived n s).r = s.r ∧ (State.toReceived n s).level = s.level ∧
    (State.toReceived n s).acc = s.acc ∧ (State.toReceived n s).sel = s.sel ∧ (State.toReceived n s).mosi = s.mosi ∧
    (State.toReceived n s).rstn = s.rstn ∧ (State.toReceived n s).cfg = s.cfg ∧ (State.toReceived n s).env = s.env :=
  ⟨rfl, rfl, rfl, rfl, rfl, rfl, rfl, rfl, rfl, rfl, rfl, rfl, rfl, rfl, rfl, rfl, rfl, rfl, rfl, rfl, rfl, rfl, rfl, rfl, rfl, rfl⟩

@[simp] theorem State.overrun_fields :
    (State.overrun s).crcEn = s.crcEn ∧ (State.overrun s).ie = s.ie ∧ (State.overrun s).opc = s.opc ∧
    (State.overrun s).arg = s.arg ∧ (State.overrun s).busy = s.busy ∧ (State.overrun s).done = s.done ∧
    (State.overrun s).ovr = true ∧ (State.overrun s).err = s.err ∧ (State.overrun s).estate = s.estate ∧
    (State.overrun s).result = s.result ∧ (State.overrun s).result1 = s.result1 ∧ (State.overrun s).mem = s.mem ∧
    (State.overrun s).frame = s.frame ∧ (State.overrun s).registry = s.registry ∧ (State.overrun s).seq = s.seq ∧
    (State.overrun s).a = s.a ∧ (State.overrun s).k = s.k ∧ (State.overrun s).prev = s.prev ∧
    (State.overrun s).r = s.r ∧ (State.overrun s).level = s.level ∧ (State.overrun s).acc = s.acc ∧
    (State.overrun s).sel = s.sel ∧ (State.overrun s).mosi = s.mosi ∧ (State.overrun s).rstn = s.rstn ∧
    (State.overrun s).cfg = s.cfg ∧ (State.overrun s).env = s.env :=
  ⟨rfl, rfl, rfl, rfl, rfl, rfl, rfl, rfl, rfl, rfl, rfl, rfl, rfl, rfl, rfl, rfl, rfl, rfl, rfl, rfl, rfl, rfl, rfl, rfl, rfl, rfl⟩

@[simp] theorem State.accept_fields (opc : Byte) :
    (State.accept opc s).crcEn = s.crcEn ∧ (State.accept opc s).ie = s.ie ∧ (State.accept opc s).opc = opc ∧
    (State.accept opc s).arg = s.arg ∧ (State.accept opc s).busy = true ∧ (State.accept opc s).done = false ∧
    (State.accept opc s).ovr = s.ovr ∧ (State.accept opc s).err = s.err ∧ (State.accept opc s).estate = s.estate ∧
    (State.accept opc s).result = s.result ∧ (State.accept opc s).result1 = s.result1 ∧
    (State.accept opc s).mem = s.mem ∧ (State.accept opc s).frame = s.frame ∧
    (State.accept opc s).registry = s.registry ∧ (State.accept opc s).seq = .start ∧
    (State.accept opc s).a = s.arg ∧ (State.accept opc s).k = s.k ∧ (State.accept opc s).prev = s.prev ∧
    (State.accept opc s).r = s.r ∧ (State.accept opc s).level = s.level ∧ (State.accept opc s).acc = s.acc ∧
    (State.accept opc s).sel = s.sel ∧ (State.accept opc s).mosi = s.mosi ∧ (State.accept opc s).rstn = s.rstn ∧
    (State.accept opc s).cfg = s.cfg ∧ (State.accept opc s).env = s.env :=
  ⟨rfl, rfl, rfl, rfl, rfl, rfl, rfl, rfl, rfl, rfl, rfl, rfl, rfl, rfl, rfl, rfl, rfl, rfl, rfl, rfl, rfl, rfl, rfl, rfl, rfl, rfl⟩

@[simp] theorem State.complete_fields (c : ErrCode) (res res1 : Word) :
    (State.complete c res res1 s).crcEn = s.crcEn ∧ (State.complete c res res1 s).ie = s.ie ∧
    (State.complete c res res1 s).opc = s.opc ∧ (State.complete c res res1 s).arg = s.arg ∧
    (State.complete c res res1 s).busy = false ∧ (State.complete c res res1 s).done = true ∧
    (State.complete c res res1 s).ovr = s.ovr ∧ (State.complete c res res1 s).err = c ∧
    (State.complete c res res1 s).estate = s.estate ∧ (State.complete c res res1 s).result = res ∧
    (State.complete c res res1 s).result1 = res1 ∧ (State.complete c res res1 s).mem = s.mem ∧
    (State.complete c res res1 s).frame = s.frame ∧ (State.complete c res res1 s).registry = s.registry ∧
    (State.complete c res res1 s).seq = .idle ∧ (State.complete c res res1 s).a = s.a ∧
    (State.complete c res res1 s).k = s.k ∧ (State.complete c res res1 s).prev = s.prev ∧
    (State.complete c res res1 s).r = s.r ∧ (State.complete c res res1 s).level = s.level ∧
    (State.complete c res res1 s).acc = s.acc ∧ (State.complete c res res1 s).sel = s.sel ∧
    (State.complete c res res1 s).mosi = s.mosi ∧ (State.complete c res res1 s).rstn = s.rstn ∧
    (State.complete c res res1 s).cfg = s.cfg ∧ (State.complete c res res1 s).env.host = s.env.host ∧ (State.complete c res res1 s).env.replies = s.env.replies ∧
    (State.complete c res res1 s).env.busy = s.env.busy ∧ (State.complete c res res1 s).env.miso = s.env.miso ∧
    (State.complete c res res1 s).env.bus = s.env.bus ∧
    (State.complete c res res1 s).env.time = s.env.time + Config.timeDraw s.env.drawn ∧
    (State.complete c res res1 s).env.drawn = s.env.drawn + 1 ∧ (State.complete c res res1 s).env.rxDrawn = s.env.rxDrawn ∧
    (State.complete c res res1 s).env.epoch = s.env.epoch :=
  ⟨rfl, rfl, rfl, rfl, rfl, rfl, rfl, rfl, rfl, rfl, rfl, rfl, rfl, rfl, rfl, rfl, rfl, rfl, rfl, rfl, rfl, rfl, rfl, rfl, rfl, rfl, rfl, rfl, rfl, rfl, rfl, rfl, rfl, rfl⟩

@[simp] theorem State.completeError_fields (c : ErrCode) (res1 : Word) :
    (State.completeError c res1 s).crcEn = s.crcEn ∧ (State.completeError c res1 s).ie = s.ie ∧
    (State.completeError c res1 s).opc = s.opc ∧ (State.completeError c res1 s).arg = s.arg ∧
    (State.completeError c res1 s).busy = false ∧ (State.completeError c res1 s).done = true ∧
    (State.completeError c res1 s).ovr = s.ovr ∧ (State.completeError c res1 s).err = c ∧
    (State.completeError c res1 s).estate = s.estate ∧ (State.completeError c res1 s).result = failResult ∧
    (State.completeError c res1 s).result1 = res1 ∧ (State.completeError c res1 s).mem = s.mem ∧
    (State.completeError c res1 s).frame = s.frame ∧ (State.completeError c res1 s).registry = s.registry ∧
    (State.completeError c res1 s).seq = .idle ∧ (State.completeError c res1 s).a = s.a ∧
    (State.completeError c res1 s).k = s.k ∧ (State.completeError c res1 s).prev = s.prev ∧
    (State.completeError c res1 s).r = s.r ∧ (State.completeError c res1 s).level = s.level ∧
    (State.completeError c res1 s).acc = s.acc ∧ (State.completeError c res1 s).sel = s.sel ∧
    (State.completeError c res1 s).mosi = s.mosi ∧ (State.completeError c res1 s).rstn = s.rstn ∧
    (State.completeError c res1 s).cfg = s.cfg ∧ (State.completeError c res1 s).env.host = s.env.host ∧ (State.completeError c res1 s).env.replies = s.env.replies ∧
    (State.completeError c res1 s).env.busy = s.env.busy ∧ (State.completeError c res1 s).env.miso = s.env.miso ∧
    (State.completeError c res1 s).env.bus = s.env.bus ∧
    (State.completeError c res1 s).env.time = s.env.time + Config.timeDraw s.env.drawn ∧
    (State.completeError c res1 s).env.drawn = s.env.drawn + 1 ∧ (State.completeError c res1 s).env.rxDrawn = s.env.rxDrawn ∧
    (State.completeError c res1 s).env.epoch = s.env.epoch :=
  ⟨rfl, rfl, rfl, rfl, rfl, rfl, rfl, rfl, rfl, rfl, rfl, rfl, rfl, rfl, rfl, rfl, rfl, rfl, rfl, rfl, rfl, rfl, rfl, rfl, rfl, rfl, rfl, rfl, rfl, rfl, rfl, rfl, rfl, rfl⟩

/-- R153: a wait that succeeds takes at most its budget, one that times out at least that. -/
theorem waitTime_bounds (us d : Nat) : waitTime true us d ≤ us ∧ us ≤ waitTime false us d :=
  ⟨Nat.lt_succ_iff.mp (Nat.mod_lt _ (Nat.succ_pos _)), Nat.le_add_right _ _⟩

theorem State.memByte_congr {s t : State} (hm : t.mem = s.mem) (he : t.env.epoch = s.env.epoch) :
    t.memByte = s.memByte := by
  funext off; simp only [State.memByte, hm, he]

end Sys2Proof.Machine
end

