-- ==== Sys2Proof/Laws/Sequencer.lean ====
section
/-!
SUPPORT. Reasoning about sequencer steps: how `Op`s compose, what they can do (`Res.Sat`), and what the host side's
turn between two elementary steps can do. A later proof cites the `_sat` lemma of an operation instead of unfolding it.
-/

namespace Sys2Proof.Machine

/-- What holds of the end of a sequencer step: `P` of a value and the state, `E` of an error and the state, `C` of
the state a reset left. -/
def Res.Sat {α : Type} (x : Res α) (P : α → State → Prop) (E : ErrCode → State → Prop) (C : State → Prop) : Prop :=
  match x with
  | .ok v t => P v t
  | .err c t => E c t
  | .cut t => C t

section
variable {α β : Type} {P P' : α → State → Prop} {E E' : ErrCode → State → Prop} {C C' : State → Prop}

theorem Res.Sat.mono {x : Res α} (h : x.Sat P E C) (hp : ∀ v t, P v t → P' v t) (he : ∀ c t, E c t → E' c t)
    (hc : ∀ t, C t → C' t) : x.Sat P' E' C' := by
  cases x <;> simp only [Res.Sat] at h ⊢
  · exact hp _ _ h
  · exact he _ _ h
  · exact hc _ h

theorem Op.bind_sat {x : Op α} {f : α → Op β} {Q : β → State → Prop} {s : State}
    (h : (x s).Sat P E C) (hf : ∀ v t, P v t → (f v t).Sat Q E C) : ((x.bind f) s).Sat Q E C := by
  unfold Op.bind
  cases hx : x s <;> simp only [hx, Res.Sat] at h ⊢
  · exact hf _ _ h
  · exact h
  · exact h

theorem Op.andThen_sat {x : Op α} {y : Op β} {Q : β → State → Prop} {s : State}
    (h : (x s).Sat P E C) (hf : ∀ v t, P v t → (y t).Sat Q E C) : ((x.andThen y) s).Sat Q E C :=
  Op.bind_sat h hf

theorem Op.catching_sat {x : Op α} {h : ErrCode → Op α} {s : State}
    (hx : (x s).Sat P E' C) (hh : ∀ c t, E' c t → (h c t).Sat P E C) : ((x.catching h) s).Sat P E C := by
  unfold Op.catching
  cases hy : x s <;> simp only [hy, Res.Sat] at hx ⊢
  · exact hx
  · exact hh _ _ hx
  · exact hx

theorem Op.bind_ok {x : Op α} {f : α → Op β} {s t : State} {v : α} (h : x s = .ok v t) : (x.bind f) s = f v t := by
  simp only [Op.bind, h]

theorem Op.bind_err {x : Op α} {f : α → Op β} {s t : State} {c : ErrCode} (h : x s = .err c t) :
    (x.bind f) s = .err c t := by
  simp only [Op.bind, h]

theorem Op.bind_cut {x : Op α} {f : α → Op β} {s t : State} (h : x s = .cut t) : (x.bind f) s = .cut t := by
  simp only [Op.bind, h]

theorem Op.andThen_ok {x : Op α} {y : Op β} {s t : State} {v : α} (h : x s = .ok v t) : (x.andThen y) s = y t :=
  Op.bind_ok h

theorem Op.andThen_err {x : Op α} {y : Op β} {s t : State} {c : ErrCode} (h : x s = .err c t) :
    (x.andThen y) s = .err c t :=
  Op.bind_err h

@[simp] theorem Op.ret_apply (v : α) (s : State) : Op.ret v s = .ok v s := rfl

@[simp] theorem Op.raise_apply (c : ErrCode) (s : State) : (Op.raise c : Op α) s = .err c s := rfl

@[simp] theorem Op.upd_apply (f : State → State) (s : State) : Op.upd f s = .ok () (f s) := rfl

@[simp] theorem Op.get_apply (f : State → α) (s : State) : Op.get f s = .ok (f s) s := rfl

@[simp] theorem Op.get_bind (f : State → α) (g : α → Op β) (s : State) : ((Op.get f).bind g) s = g (f s) s := rfl

@[simp] theorem Op.upd_andThen (f : State → State) (y : Op β) (s : State) :
    ((Op.upd f).andThen y) s = y (f s) := rfl

@[simp] theorem Op.ret_bind (v : α) (g : α → Op β) (s : State) : ((Op.ret v).bind g) s = g v s := rfl

@[simp] theorem Op.raise_bind (c : ErrCode) (g : α → Op β) (s : State) :
    ((Op.raise c : Op α).bind g) s = .err c s := rfl

theorem Op.bind_assoc {γ : Type} (x : Op α) (f : α → Op β) (g : β → Op γ) :
    (x.bind f).bind g = x.bind fun v => (f v).bind g := by
  funext s; simp only [Op.bind]; cases x s <;> rfl

end

/-! ## The host side's turn -/

/-- What is left of a state when all that the host side and bus activity can change in a running command is wiped
out. -/
def State.still (s : State) : State :=
  { s with ovr := false, done := false, sel := false, mosi := 0#8, env := {} }

/-- A command is running, or the host side is quiet: the host side's turn cannot start a command. -/
def State.steady (s : State) : Prop := s.busy = true ∨ s.quiet = true

/-- What holds between the beginning and the end of any sequencer step that is not cut off: the buffers' reset epoch
and the host's remaining events, and, where the host side is quiet, all that only the host changes. -/
structure World (s t : State) : Prop where
  epoch : t.env.epoch = s.env.epoch
  cfg : t.cfg = s.cfg
  busy : t.busy = s.busy
  done : s.done = false → t.done = false
  sel : s.sel = false → t.sel = false
  events : s.noReset = true → t.noReset = true
  calm : s.quiet = true → t.env.host = s.env.host ∧ t.ovr = s.ovr ∧ t.done = s.done ∧
    t.env.replies = s.env.replies ∧ t.env.rxDrawn = s.env.rxDrawn
  trace : s.env.bus <+: t.env.bus
  time : s.env.time ≤ t.env.time

/-- `quiet` looks at the host's events alone. -/
theorem State.quiet_congr {s t : State} (h : t.env.host = s.env.host) : t.quiet = s.quiet := by
  simp only [State.quiet, h]

theorem World.refl (s : State) : World s s :=
  ⟨rfl, rfl, rfl, id, id, id, fun _ => ⟨rfl, rfl, rfl, rfl, rfl⟩, List.prefix_rfl, Nat.le_refl _⟩

theorem World.quiet {s t : State} (h : World s t) (hq : s.quiet = true) : t.quiet = true :=
  (State.quiet_congr (h.calm hq).1).trans hq

theorem World.trans {s t u : State} (h : World s t) (h' : World t u) : World s u :=
  ⟨h'.epoch.trans h.epoch, h'.cfg.trans h.cfg, h'.busy.trans h.busy, fun hd => h'.done (h.done hd),
    fun hd => h'.sel (h.sel hd), fun hn => h'.events (h.events hn),
    fun hq =>
      let c := h.calm hq
      let c' := h'.calm (h.quiet hq)
      ⟨c'.1.trans c.1, c'.2.1.trans c.2.1, c'.2.2.1.trans c.2.2.1, c'.2.2.2.1.trans c.2.2.2.1,
        c'.2.2.2.2.trans c.2.2.2.2⟩, h.trace.trans h'.trace, h.time.trans h'.time⟩

/-- A step that leaves the world outside, the flags and select alone. -/
theorem World.of_env {s t : State} (he : t.env = s.env) (hc : t.cfg = s.cfg) (hb : t.busy = s.busy)
    (hd : t.done = s.done) (ho : t.ovr = s.ovr) (hsel : t.sel = s.sel) : World s t :=
  ⟨by rw [he], hc, hb, hd.trans, hsel.trans, fun h => by simpa only [State.noReset, he] using h,
    fun _ => ⟨by rw [he], ho, hd, by rw [he], by rw [he]⟩, by rw [he], by rw [he]⟩

theorem World.steady {s t : State} (h : World s t) (hs : s.steady) : t.steady := hs.imp h.busy.trans h.quiet

/-- `t` comes from `s` by bus activity and by accesses of the host during a command. `sel` may end as it likes. -/
structure Ran (s t : State) : Prop where
  still : t.still = s.still
  epoch : t.env.epoch = s.env.epoch
  done : s.done = false → t.done = false
  events : s.noReset = true → t.noReset = true
  calm : s.quiet = true → t.env.host = s.env.host ∧ t.ovr = s.ovr ∧ t.done = s.done ∧
    t.env.replies = s.env.replies ∧ t.env.rxDrawn = s.env.rxDrawn
  trace : s.env.bus <+: t.env.bus
  time : s.env.time ≤ t.env.time

theorem Ran.refl (s : State) : Ran s s :=
  ⟨rfl, rfl, id, id, fun _ => ⟨rfl, rfl, rfl, rfl, rfl⟩, List.prefix_rfl, Nat.le_refl _⟩

theorem Ran.quiet {s t : State} (h : Ran s t) (hq : s.quiet = true) : t.quiet = true :=
  (State.quiet_congr (h.calm hq).1).trans hq

theorem Ran.trans {s t u : State} (h : Ran s t) (h' : Ran t u) : Ran s u :=
  ⟨h'.still.trans h.still, h'.epoch.trans h.epoch, fun hd => h'.done (h.done hd), fun hn => h'.events (h.events hn),
    fun hq =>
      let c := h.calm hq
      let c' := h'.calm (h.quiet hq)
      ⟨c'.1.trans c.1, c'.2.1.trans c.2.1, c'.2.2.1.trans c.2.2.1, c'.2.2.2.1.trans c.2.2.2.1,
        c'.2.2.2.2.trans c.2.2.2.2⟩, h.trace.trans h'.trace, h.time.trans h'.time⟩

theorem Ran.eq {s t : State} (h : Ran s t) :
    t = { s with ovr := t.ovr, done := t.done, sel := t.sel, mosi := t.mosi, env := t.env } := by
  have := h.still
  cases s; cases t
  simp only [State.still, State.mk.injEq] at this ⊢
  simp only [this, and_self]

/-- A field that `still` keeps is the same. -/
theorem Ran.field {α : Type} {s t : State} (h : Ran s t) (f : State → α) (hf : ∀ u, f u.still = f u) : f t = f s := by
  rw [← hf t, h.still, hf s]

theorem Ran.steady {s t : State} (h : Ran s t) (hs : s.steady) : t.steady :=
  hs.imp (h.field State.busy fun _ => rfl).trans h.quiet

theorem Ran.world {s t : State} (h : Ran s t) (hsel : s.sel = false → t.sel = false) : World s t :=
  ⟨h.epoch, h.field State.cfg fun _ => rfl, h.field State.busy fun _ => rfl, h.done, hsel, h.events, h.calm, h.trace,
    h.time⟩

/-- Bus activity alone. -/
theorem Ran.of_bus {s t : State} (h : t.still = s.still) (henv : t.env.epoch = s.env.epoch) (ho : t.ovr = s.ovr)
    (hd : t.done = s.done) (hh : t.env.host = s.env.host) (hr : t.env.replies = s.env.replies)
    (hx : t.env.rxDrawn = s.env.rxDrawn) (hb : s.env.bus <+: t.env.bus) (ht : s.env.time ≤ t.env.time) : Ran s t :=
  ⟨h, henv, fun hs => hd.trans hs, fun hn => by simpa only [State.noReset, hh] using hn,
    fun _ => ⟨hh, ho, hd, hr, hx⟩, hb, ht⟩

/-- `t` is what a reset in a command that began in `s` has left; `rst_n` was driven low by an event `s` had in
store, with a host that was not quiet. -/
def CutFrom (s t : State) : Prop :=
  t = { State.reset with rstn := false, cfg := s.cfg, env := t.env } ∧ s.noReset = false ∧ s.quiet = false

theorem CutFrom.of_events {s t u : State} (hcfg : t.cfg = s.cfg) (he : s.noReset = true → t.noReset = true)
    (hq : s.quiet = true → t.quiet = true) (hc : CutFrom t u) : CutFrom s u := by
  refine ⟨by rw [← hcfg]; exact hc.1, ?_, ?_⟩
  · by_contra hn
    have := he (by simpa using hn)
    rw [hc.2.1] at this
    cases this
  · by_contra hn
    have := hq (by simpa using hn)
    rw [hc.2.2] at this
    cases this

theorem CutFrom.of_ran {s t u : State} (h : Ran s t) (hc : CutFrom t u) : CutFrom s u :=
  hc.of_events (h.field State.cfg fun _ => rfl) h.events h.quiet

theorem CutFrom.of_world {s t u : State} (h : World s t) (hc : CutFrom t u) : CutFrom s u :=
  hc.of_events h.cfg h.events h.quiet

/-- R36 while `BUSY` = 1. -/
theorem State.hostWrite_busy {s : State} (hb : s.busy = true) (off : Nat) (v : Word) :
    s.hostWrite off v =
      if off = 0x018 then s.writeStatus v else if guardedOffset off then s.overrun else s := by
  simp only [State.hostWrite, hb, if_true]

/-- A host access while `BUSY` = 1 changes `OVR`, `DONE` and the record of the world outside at most (R37, R145). -/
theorem State.hostAccess_busy {s : State} (hb : s.busy = true) (a : HostAccess) :
    (s.hostAccess a).still = s.still ∧ (s.hostAccess a).env.epoch = s.env.epoch ∧
      (s.done = false → (s.hostAccess a).done = false) ∧ (s.hostAccess a).sel = s.sel ∧
      (s.hostAccess a).env.bus = s.env.bus ∧ (s.hostAccess a).env.time = s.env.time := by
  unfold State.hostAccess
  split
  · split
    · unfold State.afterRead
      split <;> exact ⟨rfl, rfl, id, rfl, rfl, rfl⟩
    · split
      · rw [State.hostWrite_busy hb]
        split
        · exact ⟨rfl, rfl, fun h => by simp [h], rfl, rfl, rfl⟩
        · split <;> exact ⟨rfl, rfl, id, rfl, rfl, rfl⟩
      · exact ⟨rfl, rfl, id, rfl, rfl, rfl⟩
  · exact ⟨rfl, rfl, id, rfl, rfl, rfl⟩

theorem State.busy_hostAccess {s : State} (hb : s.busy = true) (a : HostAccess) : (s.hostAccess a).busy = true := by
  have : (s.hostAccess a).still.busy = s.still.busy := by rw [(State.hostAccess_busy hb a).1]
  exact this.trans hb

/-- `s` with these events of the host side in store. -/
abbrev State.withHost (s : State) (es : List HostEvent) : State := { s with env := { s.env with host := es } }

/-- An access does not look at what the host side does next. -/
theorem State.hostAccess_withHost {s : State} (hb : s.busy = true) (a : HostAccess) (es : List HostEvent) :
    (s.withHost es).hostAccess a = (s.hostAccess a).withHost es := by
  unfold State.hostAccess
  split
  · split
    · unfold State.afterRead
      by_cases h : (rxOffset a.off.toNat && s.busy) = true <;> simp only [h, if_true] <;> rfl
    · by_cases h : s.rstn = true
      · simp only [h, if_true, State.hostWrite_busy hb, State.hostWrite_busy (s := s.withHost es) hb]
        split
        · rfl
        · split <;> rfl
      · simp only [h]; rfl
  · rfl

/-- Only the events given to `land` land, whatever else the host side has in store. -/
theorem land_withHost (es es' : List HostEvent) {s : State} (hb : s.busy = true) :
    land es (s.withHost es') = land es s := by
  induction es generalizing s with
  | nil => rfl
  | cons e es ih =>
    match e with
    | .pass => rfl
    | .await => rfl
    | .rst true => exact ih hb
    | .rst false => rfl
    | .access a => rw [land, State.hostAccess_withHost hb, ih (State.busy_hostAccess hb a), land]

/-- R36, R145: an access lands, and the host side's turn goes on from there. -/
theorem hostSlot_access {s : State} (hb : s.busy = true) {a : HostAccess} {es : List HostEvent}
    (h : s.env.host = .access a :: es) : hostSlot s = hostSlot ((s.withHost es).hostAccess a) := by
  calc hostSlot s = land es (s.hostAccess a) := by rw [hostSlot, h, land]
    _ = hostSlot ((s.hostAccess a).withHost es) := (land_withHost es es (State.busy_hostAccess hb a)).symm
    _ = _ := congrArg hostSlot (State.hostAccess_withHost hb a es).symm

/-- What the host side's turn can do while a command runs: accesses, or a reset that cuts the command off. -/
theorem land_sat (es : List HostEvent) {s : State} (hb : s.busy = true) :
    (land es s).Sat
      (fun _ t => t.still = s.still ∧ t.env.epoch = s.env.epoch ∧ (s.done = false → t.done = false) ∧
        t.sel = s.sel ∧ t.env.bus = s.env.bus ∧ t.env.time = s.env.time ∧ t.env.host <:+ es)
      (fun _ _ => False)
      (fun t => t = { State.reset with rstn := false, cfg := s.cfg, env := t.env } ∧ HostEvent.rst false ∈ es) := by
  induction es generalizing s with
  | nil => exact ⟨rfl, rfl, id, rfl, rfl, rfl, List.nil_suffix⟩
  | cons e es ih =>
    match e with
    | .pass => exact ⟨rfl, rfl, id, rfl, rfl, rfl, List.suffix_cons _ _⟩
    | .await => exact ⟨rfl, rfl, id, rfl, rfl, rfl, List.suffix_rfl⟩
    | .rst true =>
      refine (ih hb).mono (fun _ t h => ?_) (fun _ _ h => h) (fun t h => ⟨h.1, List.mem_cons_of_mem _ h.2⟩)
      obtain ⟨g1, g2, g3, g4, g5, g6, g7⟩ := h
      exact ⟨g1, g2, g3, g4, g5, g6, g7.trans (List.suffix_cons _ _)⟩
    | .rst false => exact ⟨rfl, List.mem_cons_self⟩
    | .access a =>
      obtain ⟨h1, h2, h3, h4, h5, h6⟩ := State.hostAccess_busy hb a
      have hf : ∀ {α : Type} (f : State → α), (∀ u, f u.still = f u) → f (s.hostAccess a) = f s := fun f hf => by
        rw [← hf (s.hostAccess a), h1, hf s]
      refine (ih ((hf State.busy fun _ => rfl).trans hb)).mono (fun _ t h => ?_) (fun _ _ h => h)
        (fun t h => ⟨?_, List.mem_cons_of_mem _ h.2⟩)
      · obtain ⟨g1, g2, g3, g4, g5, g6, g7⟩ := h
        exact ⟨g1.trans h1, g2.trans h2, fun hd => g3 (h3 hd), g4.trans h4, g5.trans h5, g6.trans h6,
          g7.trans (List.suffix_cons _ _)⟩
      · rw [← hf State.cfg fun _ => rfl]; exact h.1

/-- With a quiet host the host side's turn changes nothing. -/
theorem hostSlot_quiet {s : State} (hq : s.quiet = true) : hostSlot s = .ok () s := by
  obtain ⟨⟩ := s
  rename_i env
  obtain ⟨host⟩ := env
  unfold State.quiet at hq
  cases host with
  | nil => rfl
  | cons e es => cases e <;> first | rfl | simp at hq

/-- What the host side's turn can do during a command. -/
theorem hostSlot_sat {s : State} (hs : s.steady) :
    (hostSlot s).Sat (fun _ t => Ran s t ∧ t.sel = s.sel ∧ t.env.bus = s.env.bus) (fun _ _ => False) (CutFrom s) := by
  by_cases hq : s.quiet = true
  · rw [hostSlot_quiet hq]; exact ⟨Ran.refl s, rfl, rfl⟩
  · refine (land_sat s.env.host (hs.resolve_right hq)).mono (fun _ t h => ?_) (fun _ _ h => h) (fun t h => ⟨h.1, ?_, by simpa using hq⟩)
    · obtain ⟨g1, g2, g3, g4, g5, g6, g7⟩ := h
      refine ⟨⟨g1, g2, g3, fun hn => ?_, fun h => absurd h hq, g5 ▸ List.prefix_rfl, g6.ge⟩, g4, g5⟩
      simp only [State.noReset, List.all_eq_true] at hn ⊢
      exact fun e he => hn e (g7.subset he)
    · simp only [State.noReset, List.all_eq_false]
      exact ⟨_, h.2, by simp⟩

/-- An elementary step: the host side's turn, then bus activity. -/
theorem elementary_sat {α : Type} {s : State} (hs : s.steady) (v : State → α) (f : State → State)
    (hf : ∀ t, Ran t (f t)) :
    ((hostSlot.andThen fun t => .ok (v t) (f t)) s).Sat
      (fun w u => Ran s u ∧ ∃ t, Ran s t ∧ t.sel = s.sel ∧ t.env.bus = s.env.bus ∧ w = v t ∧ u = f t)
      (fun _ _ => False) (CutFrom s) :=
  Op.andThen_sat (hostSlot_sat hs) fun _ t h => ⟨h.1.trans (hf t), t, h.1, h.2.1, h.2.2, rfl, rfl⟩

theorem hostSlot_quiet_andThen {α : Type} {s : State} (hq : s.quiet = true) (y : Op α) :
    (hostSlot.andThen y) s = y s := Op.andThen_ok (hostSlot_quiet hq)

theorem closing_quiet {f : State → State} {s : State} (hq : s.quiet = true) : closing f s = f s := by
  simp only [closing, hostSlot_quiet hq]

/-- The run of an instruction whose host side is quiet throughout. -/
theorem runCommand_quiet {body : Op After} {s : State} (hq : s.quiet = true)
    (hk : (body s).Sat (fun _ t => t.quiet = true) (fun _ t => t.quiet = true) (fun _ => True)) :
    runCommand body s =
      match body s with
      | .ok (.done res res1) t => t.complete .ok res res1
      | .ok (.failed c res1) t => t.completeError c res1
      | .ok (.received n) t => t.toReceived n
      | .err c t => t.completeError c 0#32
      | .cut t => t := by
  unfold runCommand
  rw [hostSlot_quiet_andThen hq]
  cases hb : body s with
  | ok v t => cases v <;> simp only [hb, Res.Sat] at hk ⊢ <;> simp only [closing_quiet hk]
  | err c t => simp only [hb, Res.Sat] at hk ⊢; simp only [closing_quiet hk]
  | cut t => rfl

end Sys2Proof.Machine
end

