-- ==== Sys2Proof/Laws/Transport.lean ====
section
/-!
SUPPORT. What the transport link can do: the select window and the transport frame, under every environment
(`spiWindow_sat`, `spiFrame_sat`), and their exact effect where the peer answers (`spiWindow_ok`, `spiFrame_ok`) or a
wait times out.
-/

namespace Sys2Proof.Machine

/-- The number of select windows opened so far. -/
def State.opened (s : State) : Nat := windowsOpened s.env.bus

theorem State.waited_ran (want : Bool) (ms : Nat) (s : State) : Ran s (s.waited want ms) :=
  Ran.of_bus rfl rfl rfl rfl rfl rfl rfl (by simp) (by simp)

theorem State.selected_ran (v : Bool) (s : State) : Ran s (s.selected v) :=
  Ran.of_bus rfl rfl rfl rfl rfl rfl rfl (by simp) (by simp)

theorem State.delayed_ran (us : Nat) (s : State) : Ran s (s.delayed us) :=
  Ran.of_bus rfl rfl rfl rfl rfl rfl rfl (by simp) (by simp; omega)

theorem State.sent_ran (b : Byte) (s : State) : Ran s (s.sent b) :=
  Ran.of_bus rfl rfl rfl rfl rfl rfl rfl (by simp) (by simp)

theorem State.captured_ran (s : State) : Ran s s.captured :=
  Ran.of_bus rfl rfl rfl rfl rfl rfl rfl (by simp) (by simp)

theorem waitBusy_sat {s : State} (hs : s.steady) (want : Bool) (ms : Nat) :
    (waitBusy want ms s).Sat (fun _ t => Ran s t ∧ t.sel = s.sel ∧ t.opened = s.opened) (fun _ _ => False)
      (CutFrom s) :=
  (elementary_sat hs State.nextBusy (State.waited want ms) (State.waited_ran want ms)).mono
    (fun _ u h => by
      obtain ⟨h, t, -, h1, h2, -, rfl⟩ := h
      exact ⟨h, by simp [h1], by simp [State.opened, windowsOpened, h2]⟩)
    (fun _ _ h => h) (fun _ h => h)

theorem selectLine_sat {s : State} (hs : s.steady) (v : Bool) :
    (selectLine v s).Sat (fun _ t => Ran s t ∧ t.sel = v ∧ t.opened = s.opened + if v then 1 else 0)
      (fun _ _ => False) (CutFrom s) :=
  (elementary_sat hs (fun _ => ()) (State.selected v) (State.selected_ran v)).mono
    (fun _ u h => by
      obtain ⟨h, t, -, -, h2, -, rfl⟩ := h
      refine ⟨h, rfl, ?_⟩
      simp only [State.opened, windowsOpened, State.selected_fields, h2, List.count_append]
      cases v <;> rfl)
    (fun _ _ h => h) (fun _ h => h)

theorem delay_sat {s : State} (hs : s.steady) (us : Nat) :
    (delay us s).Sat (fun _ t => Ran s t ∧ t.sel = s.sel ∧ t.opened = s.opened) (fun _ _ => False) (CutFrom s) :=
  (elementary_sat hs (fun _ => ()) (State.delayed us) (State.delayed_ran us)).mono
    (fun _ u h => by
      obtain ⟨h, t, -, h1, h2, -, rfl⟩ := h
      exact ⟨h, by simp [h1], by simp [State.opened, windowsOpened, h2]⟩)
    (fun _ _ h => h) (fun _ h => h)

theorem sendByte_sat {s : State} (hs : s.steady) (b : Byte) :
    (sendByte b s).Sat (fun _ t => Ran s t ∧ t.sel = s.sel ∧ t.opened = s.opened) (fun _ _ => False) (CutFrom s) :=
  (elementary_sat hs (fun _ => ()) (State.sent b) (State.sent_ran b)).mono
    (fun _ u h => by
      obtain ⟨h, t, -, h1, h2, -, rfl⟩ := h
      exact ⟨h, by simp [h1], by simp [State.opened, windowsOpened, h2]⟩)
    (fun _ _ h => h) (fun _ h => h)

theorem recvByte_sat {s : State} (hs : s.steady) :
    (recvByte s).Sat (fun _ t => Ran s t ∧ t.sel = s.sel ∧ t.opened = s.opened) (fun _ _ => False) (CutFrom s) :=
  (elementary_sat hs State.nextMiso State.captured State.captured_ran).mono
    (fun _ u h => by
      obtain ⟨h, t, -, h1, h2, -, rfl⟩ := h
      exact ⟨h, by simp [h1], by simp [State.opened, windowsOpened, h2]⟩)
    (fun _ _ h => h) (fun _ h => h)

/-- Two steps in a row, the second judged from where the first has left the machine. -/
theorem ran_bind_sat {α β : Type} {x : Op α} {f : α → Op β} {s : State} {P : α → State → Prop}
    {E : ErrCode → State → Prop} {Q : β → State → Prop} (hs : s.steady)
    (h : (x s).Sat (fun v t => Ran s t ∧ P v t) E (CutFrom s))
    (hf : ∀ v t, Ran s t → t.steady → P v t → (f v t).Sat Q E (CutFrom t)) :
    ((x.bind f) s).Sat Q E (CutFrom s) :=
  Op.bind_sat h fun v t ht =>
    (hf v t ht.1 (ht.1.steady hs) ht.2).mono (fun _ _ h => h) (fun _ _ h => h) (fun _ h => h.of_ran ht.1)

theorem sendBytes_sat (w : List Byte) {s : State} (hs : s.steady) :
    (sendBytes w s).Sat (fun _ t => Ran s t ∧ t.sel = s.sel ∧ t.opened = s.opened) (fun _ _ => False) (CutFrom s) := by
  induction w generalizing s with
  | nil => exact ⟨Ran.refl s, rfl, rfl⟩
  | cons b w ih =>
    refine ran_bind_sat hs (sendByte_sat hs b) fun _ t ht hst h => ?_
    exact (ih hst).mono (fun _ u g => ⟨ht.trans g.1, g.2.1.trans h.1, g.2.2.trans h.2⟩) (fun _ _ h => h) (fun _ h => h)

theorem recvBytes_sat (r : Nat) {s : State} (hs : s.steady) :
    (recvBytes r s).Sat (fun rd t => Ran s t ∧ t.sel = s.sel ∧ t.opened = s.opened ∧ rd.length = r)
      (fun _ _ => False) (CutFrom s) := by
  induction r generalizing s with
  | zero => exact ⟨Ran.refl s, rfl, rfl, rfl⟩
  | succ r ih =>
    refine ran_bind_sat hs (recvByte_sat hs) fun b t ht hst h => ?_
    refine ran_bind_sat hst (ih hst) fun rd u hu _ g => ?_
    exact ⟨ht.trans hu, g.1.trans h.1, g.2.1.trans h.2, by simp [g.2.2]⟩

/-- R67 to R77: every select window ends, in a value of the asked length, in one of the three transport errors, or by
a reset; it leaves select deasserted and opens at most one window. -/
theorem spiWindow_sat (w : List Byte) (r : Nat) {s : State} (hs : s.steady) :
    (spiWindow w r s).Sat
      (fun rd t => Ran s t ∧ (s.sel = false → t.sel = false) ∧ t.opened = s.opened + 1 ∧ rd.length = r)
      (fun c t => Ran s t ∧ (s.sel = false → t.sel = false) ∧ t.opened ≤ s.opened + 1 ∧ c.isTransport = true)
      (CutFrom s) := by
  have weaken : ∀ {α : Type} {x : Op α} {s : State} {P : α → State → Prop} {E : ErrCode → State → Prop},
      (x s).Sat P (fun _ _ => False) (CutFrom s) → (x s).Sat P E (CutFrom s) := fun h =>
    h.mono (fun _ _ h => h) (fun _ _ h => h.elim) (fun _ h => h)
  refine ran_bind_sat hs (weaken (waitBusy_sat hs _ _)) fun ready t ht hst h => ?_
  split
  · refine ran_bind_sat hst (P := fun rd u => u.opened = s.opened + 1 ∧ rd.length = r) ?_ ?_
    · refine ran_bind_sat hst (weaken (selectLine_sat hst true)) fun _ u hu hsu g => ?_
      rw [Op.get_bind]
      refine ran_bind_sat hsu (weaken (delay_sat hsu _)) fun _ u' hu' hsu' g' => ?_
      refine ran_bind_sat hsu' (weaken (sendBytes_sat w hsu')) fun _ u2 hu2 hsu2 g2 => ?_
      refine (weaken (recvBytes_sat r hsu2)).mono (fun rd u3 g3 => ?_) (fun _ _ h => h) (fun _ h => h)
      refine ⟨((hu.trans hu').trans hu2).trans g3.1, ?_, g3.2.2.2⟩
      rw [g3.2.2.1, g2.2, g'.2, g.2, h.2]; rfl
    · intro rd u hu hsu g
      have hsu0 : Ran s u := ht.trans hu
      refine ran_bind_sat hsu (weaken (waitBusy_sat hsu _ _)) fun latched u1 hu1 hsu1 g1 => ?_
      split
      · refine ran_bind_sat hsu1 (weaken (selectLine_sat hsu1 false)) fun _ u2 hu2 hsu2 g2 => ?_
        refine ran_bind_sat hsu2 (weaken (waitBusy_sat hsu2 _ _)) fun idle u3 hu3 hsu3 g3 => ?_
        have hr := hsu0.trans (hu1.trans (hu2.trans hu3))
        have hsel : u3.sel = false := g3.1.trans g2.1
        have hop : u3.opened = s.opened + 1 := by rw [g3.2, g2.2, g1.2, g.1]; rfl
        split
        · exact ⟨hr, fun _ => hsel, hop, g.2⟩
        · exact ⟨hr, fun _ => hsel, hop.le, rfl⟩
      · refine ran_bind_sat hsu1 (weaken (selectLine_sat hsu1 false)) fun _ u2 hu2 hsu2 g2 => ?_
        have hop : u2.opened = s.opened + 1 := by rw [g2.2, g1.2, g.1]; rfl
        exact ⟨hsu0.trans (hu1.trans hu2), fun _ => g2.1, hop.le, rfl⟩
  · exact ⟨ht, fun hsel => h.1.trans hsel, by rw [h.2]; omega, rfl⟩

/-- R76: what a transport frame can do. -/
theorem spiFrame_sat (w : List Byte) (r : Nat) {s : State} (hs : s.steady) :
    (spiFrame w r s).Sat
      (fun rd t => Ran s t ∧ (s.sel = false → t.sel = false) ∧ t.opened = s.opened + frameWindows s.cfg r ∧
        rd.length = r)
      (fun c t => Ran s t ∧ (s.sel = false → t.sel = false) ∧ t.opened ≤ s.opened + frameWindows s.cfg r ∧
        c.isTransport = true)
      (CutFrom s) := by
  unfold spiFrame frameWindows
  simp only [Op.get_bind]
  split
  · exact spiWindow_sat w r hs
  · refine ran_bind_sat hs (P := fun _ t => (s.sel = false → t.sel = false) ∧ t.opened = s.opened + 1) ?_ ?_
    · exact (spiWindow_sat w 0 hs).mono (fun _ _ h => ⟨h.1, h.2.1, h.2.2.1⟩)
        (fun _ _ h => ⟨h.1, h.2.1, by omega, h.2.2.2⟩) (fun _ h => h)
    · intro _ t ht hst h
      exact (spiWindow_sat [] r hst).mono
        (fun _ u g => ⟨ht.trans g.1, fun hsel => g.2.1 (h.1 hsel), by omega, g.2.2.2⟩)
        (fun _ u g => ⟨ht.trans g.1, fun hsel => g.2.1 (h.1 hsel), by omega, g.2.2.2⟩) (fun _ h => h)

/-! ## The exact effect, with a quiet host -/

/-- `t` comes from `s` by the bus events `es`, in which the environment supplied `nb` outcomes of waits and `nm` MISO
bytes; the host was quiet. -/
structure Took (s t : State) (es : List BusEvent) (nb nm : Nat) : Prop where
  ran : Ran s t
  quiet : t.quiet = true
  bus : t.env.bus = s.env.bus ++ es
  busy : t.env.busy = s.env.busy.drop nb
  miso : t.env.miso = s.env.miso.drop nm
  mosi : t.mosi = lastDriven s.mosi es

theorem lastDriven_append (m : Byte) (es es' : List BusEvent) :
    lastDriven m (es ++ es') = lastDriven (lastDriven m es) es' := by
  induction es generalizing m with
  | nil => rfl
  | cons e es ih => cases e <;> exact ih _

theorem Took.refl {s : State} (hq : s.quiet = true) : Took s s [] 0 0 := ⟨Ran.refl s, hq, by simp, rfl, rfl, rfl⟩

theorem Took.trans {s t u : State} {es es' : List BusEvent} {nb nb' nm nm' : Nat} (h : Took s t es nb nm)
    (h' : Took t u es' nb' nm') : Took s u (es ++ es') (nb + nb') (nm + nm') :=
  ⟨h.ran.trans h'.ran, h'.quiet, by rw [h'.bus, h.bus, List.append_assoc], by rw [h'.busy, h.busy, List.drop_drop],
    by rw [h'.miso, h.miso, List.drop_drop], by rw [h'.mosi, h.mosi, lastDriven_append]⟩

/-- What the environment has in store after a part has been taken. -/
theorem Took.supplied {s t : State} {es : List BusEvent} {bs bs' : List Bool} {ms ms' : List Byte}
    (h : Took s t es bs.length ms.length) (hs : s.supplied (bs ++ bs') (ms ++ ms')) : t.supplied bs' ms' := by
  obtain ⟨⟨b, hb⟩, ⟨m, hm⟩⟩ := hs
  refine ⟨⟨b, ?_⟩, ⟨m, ?_⟩⟩
  · rw [h.busy, ← hb, List.append_assoc, List.drop_left]
  · rw [h.miso, ← hm, List.append_assoc, List.drop_left]

theorem Took.cfg {s t : State} {es : List BusEvent} {nb nm : Nat} (h : Took s t es nb nm) : t.cfg = s.cfg :=
  h.ran.field State.cfg fun _ => rfl

theorem waitBusy_quiet {s : State} (hq : s.quiet = true) (want : Bool) (ms : Nat) :
    waitBusy want ms s = .ok s.nextBusy (s.waited want ms) := by
  rw [waitBusy, hostSlot_quiet_andThen hq]

theorem selectLine_quiet {s : State} (hq : s.quiet = true) (v : Bool) : selectLine v s = .ok () (s.selected v) := by
  rw [selectLine, hostSlot_quiet_andThen hq]; rfl

theorem delay_quiet {s : State} (hq : s.quiet = true) (us : Nat) : delay us s = .ok () (s.delayed us) := by
  rw [delay, hostSlot_quiet_andThen hq]; rfl

theorem sendByte_quiet {s : State} (hq : s.quiet = true) (b : Byte) : sendByte b s = .ok () (s.sent b) := by
  rw [sendByte, hostSlot_quiet_andThen hq]; rfl

theorem recvByte_quiet {s : State} (hq : s.quiet = true) : recvByte s = .ok s.nextMiso s.captured := by
  rw [recvByte, hostSlot_quiet_andThen hq]

/-- A wait whose outcome the environment has supplied. -/
theorem waitBusy_took {s : State} (hq : s.quiet = true) {b : Bool} {bs : List Bool} {ms : List Byte}
    (h : s.supplied (b :: bs) ms) (want : Bool) (budget : Nat) :
    ∃ t, waitBusy want budget s = .ok b t ∧ Took s t [.wait want budget b] 1 0 ∧ t.sel = s.sel := by
  obtain ⟨⟨r, hr⟩, -⟩ := h
  have hb : s.nextBusy = b := by rw [State.nextBusy, ← hr]; rfl
  refine ⟨s.waited want budget, by rw [waitBusy_quiet hq, hb], ⟨State.waited_ran want budget s, ?_, ?_, ?_, ?_, rfl⟩, ?_⟩
  · exact (State.quiet_congr (by simp)).trans hq
  · simp [hb]
  · simp
  · simp
  · simp

theorem selectLine_took {s : State} (hq : s.quiet = true) (v : Bool) :
    ∃ t, selectLine v s = .ok () t ∧ Took s t [.sel v] 0 0 ∧ t.sel = v :=
  ⟨_, selectLine_quiet hq v, ⟨State.selected_ran v s, (State.quiet_congr (by simp)).trans hq, by simp, by simp,
    by simp, rfl⟩, rfl⟩

theorem delay_took {s : State} (hq : s.quiet = true) (us : Nat) :
    ∃ t, delay us s = .ok () t ∧ Took s t [.delay us] 0 0 ∧ t.sel = s.sel :=
  ⟨_, delay_quiet hq us,
    ⟨State.delayed_ran us s, (State.quiet_congr (by simp)).trans hq, by simp, by simp, by simp, rfl⟩,
    by simp⟩

theorem sendBytes_took (w : List Byte) {s : State} (hq : s.quiet = true) :
    ∃ t, sendBytes w s = .ok () t ∧ Took s t (w.map BusEvent.out) 0 0 ∧ t.sel = s.sel := by
  induction w generalizing s with
  | nil => exact ⟨s, rfl, Took.refl hq, rfl⟩
  | cons b w ih =>
    have h1 : Took s (s.sent b) [.out b] 0 0 :=
      ⟨State.sent_ran b s, (State.quiet_congr (by simp)).trans hq, by simp, by simp, by simp, rfl⟩
    obtain ⟨t, ht, hk, hsel⟩ := ih h1.quiet
    refine ⟨t, ?_, h1.trans hk, hsel.trans (by simp)⟩
    rw [sendBytes, Op.andThen_ok (sendByte_quiet hq b), ht]

theorem recvBytes_took (rd : List Byte) {s : State} (hq : s.quiet = true) {bs : List Bool}
    (h : s.supplied bs rd) :
    ∃ t, recvBytes rd.length s = .ok rd t ∧ Took s t (rd.map BusEvent.filler) 0 rd.length ∧ t.sel = s.sel := by
  induction rd generalizing s with
  | nil => exact ⟨s, rfl, Took.refl hq, rfl⟩
  | cons b rd ih =>
    obtain ⟨hb, ⟨m, hm⟩⟩ := h
    have hn : s.nextMiso = b := by rw [State.nextMiso, ← hm]; rfl
    have h1 : Took s s.captured [.filler b] 0 1 :=
      ⟨State.captured_ran s, (State.quiet_congr (by simp)).trans hq, by simp [hn], by simp, by simp, rfl⟩
    have h2 : s.captured.supplied bs rd :=
      Took.supplied (bs := []) (ms := [b]) h1 ⟨hb, ⟨m, hm⟩⟩
    obtain ⟨t, ht, hk, hsel⟩ := ih h1.quiet h2
    refine ⟨t, ?_, ?_, hsel.trans (by simp)⟩
    · rw [List.length_cons, recvBytes, Op.bind_ok (recvByte_quiet hq), hn, Op.bind_ok ht]; rfl
    · have := h1.trans hk
      simp only [List.length_cons, List.map_cons]
      rw [Nat.add_comm rd.length 1]
      exact this

/-- Steps 2 to 4 of a window (R69 to R71). -/
theorem windowBody_took (w rd : List Byte) {s : State} (hq : s.quiet = true) {bs : List Bool}
    (h : s.supplied bs rd) :
    ∃ t, windowBody w rd.length s = .ok rd t ∧
      Took s t (.sel true :: .delay s.cfg.settleUs :: (w.map BusEvent.out ++ rd.map BusEvent.filler)) 0 rd.length := by
  obtain ⟨t1, h1, k1, -⟩ := selectLine_took hq true
  obtain ⟨t2, h2, k2, -⟩ := delay_took k1.quiet t1.cfg.settleUs
  obtain ⟨t3, h3, k3, -⟩ := sendBytes_took w k2.quiet
  have k := (k1.trans k2).trans k3
  obtain ⟨t4, h4, k4, -⟩ := recvBytes_took rd k3.quiet (Took.supplied (bs := []) (ms := []) k h)
  refine ⟨t4, ?_, ?_⟩
  · rw [windowBody, Op.andThen_ok h1, Op.get_bind, Op.andThen_ok h2, Op.andThen_ok h3, h4]
  · have := k.trans k4
    rw [k1.cfg] at this
    simpa using this

/-- R67: a window whose three waits succeed. -/
theorem spiWindow_ok (w rd : List Byte) {s : State} (hq : s.quiet = true) (h : s.supplied (readyFor 1) rd) :
    ∃ t, spiWindow w rd.length s = .ok rd t ∧ Took s t (windowTrace s.cfg.settleUs w rd) 3 rd.length ∧
      t.sel = false := by
  obtain ⟨t1, h1, k1, -⟩ := waitBusy_took hq h false Config.busyBudgetMs
  have s1 : t1.supplied [true, true] rd := Took.supplied (bs := [true]) (ms := []) k1 h
  obtain ⟨t2, h2, k2⟩ := windowBody_took w rd k1.quiet s1
  have s2 : t2.supplied [true, true] [] :=
    Took.supplied (bs := []) (ms := rd) k2 (by simpa using s1)
  obtain ⟨t3, h3, k3, -⟩ := waitBusy_took k2.quiet s2 true Config.latchMs
  have s3 : t3.supplied [true] [] := Took.supplied (bs := [true]) (ms := []) k3 s2
  obtain ⟨t4, h4, k4, e4⟩ := selectLine_took k3.quiet false
  have s4 : t4.supplied [true] [] := Took.supplied (bs := []) (ms := []) k4 s3
  obtain ⟨t5, h5, k5, e5⟩ := waitBusy_took k4.quiet s4 false Config.busyBudgetMs
  refine ⟨t5, ?_, ?_, e5.trans e4⟩
  · rw [spiWindow, Op.bind_ok h1, if_pos rfl, Op.bind_ok h2, windowRelease, Op.bind_ok h3, if_pos rfl,
      Op.andThen_ok h4, Op.bind_ok h5, if_pos rfl]; rfl
  · have := (((k1.trans k2).trans k3).trans k4).trans k5
    rw [k1.cfg] at this
    simpa [windowTrace, windowStart] using this

/-- R68: a window whose ready wait times out. -/
theorem spiWindow_notReady (w : List Byte) (r : Nat) {s : State} (hq : s.quiet = true) (h : s.supplied [false] []) :
    ∃ t, spiWindow w r s = .err .notReady t ∧ Took s t notReadyTrace 1 0 ∧
      t.sel = s.sel := by
  obtain ⟨t1, h1, k1, e1⟩ := waitBusy_took hq h false Config.busyBudgetMs
  exact ⟨t1, by rw [spiWindow, Op.bind_ok h1]; rfl, k1, e1⟩

/-- R72: a window whose latch wait times out. -/
theorem spiWindow_latchTimeout (w rd : List Byte) {s : State} (hq : s.quiet = true)
    (h : s.supplied [true, false] rd) :
    ∃ t, spiWindow w rd.length s = .err .latchTimeout t ∧
      Took s t (latchTimeoutTrace s.cfg.settleUs w rd) 2 rd.length ∧ t.sel = false := by
  obtain ⟨t1, h1, k1, -⟩ := waitBusy_took hq h false Config.busyBudgetMs
  have s1 : t1.supplied [false] rd := Took.supplied (bs := [true]) (ms := []) k1 h
  obtain ⟨t2, h2, k2⟩ := windowBody_took w rd k1.quiet s1
  have s2 : t2.supplied [false] [] := Took.supplied (bs := []) (ms := rd) k2 (by simpa using s1)
  obtain ⟨t3, h3, k3, -⟩ := waitBusy_took k2.quiet s2 true Config.latchMs
  obtain ⟨t4, h4, k4, e4⟩ := selectLine_took k3.quiet false
  refine ⟨t4, ?_, ?_, e4⟩
  · rw [spiWindow, Op.bind_ok h1, if_pos rfl, Op.bind_ok h2, windowRelease, Op.bind_ok h3, if_neg (by simp),
      Op.andThen_ok h4]; rfl
  · have := ((k1.trans k2).trans k3).trans k4
    rw [k1.cfg] at this
    simpa [latchTimeoutTrace, windowStart] using this

/-- R73: a window whose idle wait times out. -/
theorem spiWindow_idleTimeout (w rd : List Byte) {s : State} (hq : s.quiet = true)
    (h : s.supplied [true, true, false] rd) :
    ∃ t, spiWindow w rd.length s = .err .idleTimeout t ∧
      Took s t (idleTimeoutTrace s.cfg.settleUs w rd) 3 rd.length ∧ t.sel = false := by
  obtain ⟨t1, h1, k1, -⟩ := waitBusy_took hq h false Config.busyBudgetMs
  have s1 : t1.supplied [true, false] rd := Took.supplied (bs := [true]) (ms := []) k1 h
  obtain ⟨t2, h2, k2⟩ := windowBody_took w rd k1.quiet s1
  have s2 : t2.supplied [true, false] [] := Took.supplied (bs := []) (ms := rd) k2 (by simpa using s1)
  obtain ⟨t3, h3, k3, -⟩ := waitBusy_took k2.quiet s2 true Config.latchMs
  have s3 : t3.supplied [false] [] := Took.supplied (bs := [true]) (ms := []) k3 s2
  obtain ⟨t4, h4, k4, e4⟩ := selectLine_took k3.quiet false
  have s4 : t4.supplied [false] [] := Took.supplied (bs := []) (ms := []) k4 s3
  obtain ⟨t5, h5, k5, e5⟩ := waitBusy_took k4.quiet s4 false Config.busyBudgetMs
  refine ⟨t5, ?_, ?_, e5.trans e4⟩
  · rw [spiWindow, Op.bind_ok h1, if_pos rfl, Op.bind_ok h2, windowRelease, Op.bind_ok h3, if_pos rfl,
      Op.andThen_ok h4, Op.bind_ok h5, if_neg (by simp)]; rfl
  · have := (((k1.trans k2).trans k3).trans k4).trans k5
    rw [k1.cfg] at this
    simpa [idleTimeoutTrace, windowStart] using this

/-- R76: a transport frame whose windows succeed. -/
theorem spiFrame_ok (w rd : List Byte) {s : State} (hq : s.quiet = true)
    (h : s.supplied (readyFor (frameWindows s.cfg rd.length)) rd) :
    ∃ t, spiFrame w rd.length s = .ok rd t ∧
      Took s t (frameTrace s.cfg w rd) (3 * frameWindows s.cfg rd.length) rd.length ∧ t.sel = false := by
  unfold spiFrame frameTrace
  simp only [Op.get_bind]
  by_cases hf : s.cfg.readFraming = .singleWindow ∨ rd = []
  · have hf' : s.cfg.readFraming = .singleWindow ∨ rd.length = 0 := hf.imp id (by simp)
    have hw : frameWindows s.cfg rd.length = 1 := if_pos hf'
    rw [if_pos hf', if_pos hf, hw]
    rw [hw] at h
    exact spiWindow_ok w rd hq h
  · have hf' : ¬ (s.cfg.readFraming = .singleWindow ∨ rd.length = 0) := by simpa using hf
    have hw : frameWindows s.cfg rd.length = 2 := if_neg hf'
    rw [if_neg hf', if_neg hf, hw]
    rw [hw] at h
    obtain ⟨t1, h1, k1, -⟩ := spiWindow_ok w [] hq (s := s)
      ⟨List.IsPrefix.trans (by exact ⟨[true, true, true], rfl⟩) h.1, List.nil_prefix⟩
    have s1 : t1.supplied (readyFor 1) rd :=
      Took.supplied (bs := [true, true, true]) (ms := []) k1 h
    obtain ⟨t2, h2, k2, e2⟩ := spiWindow_ok [] rd k1.quiet s1
    refine ⟨t2, ?_, ?_, e2⟩
    · rw [List.length_nil] at h1
      rw [Op.andThen_ok h1, h2]
    · have := k1.trans k2
      rw [k1.cfg] at this
      simpa using this

/-- R68, R72, R73, R74: a window that fails. -/
theorem spiWindow_fails {w rd : List Byte} {s : State} {f : FrameFailure}
    (hf : f ∈ windowFailures s.cfg.settleUs w rd) (hq : s.quiet = true) (hsel : s.sel = false)
    (h : s.supplied f.busy f.miso) :
    ∃ t, spiWindow w rd.length s = .err f.code t ∧ Took s t f.bus f.busy.length f.miso.length ∧ t.sel = false := by
  simp only [windowFailures, List.mem_cons, List.not_mem_nil, or_false] at hf
  rcases hf with rfl | rfl | rfl
  · obtain ⟨t, ht, k, e⟩ := spiWindow_notReady w rd.length hq h
    exact ⟨t, ht, k, e.trans hsel⟩
  · exact spiWindow_latchTimeout w rd hq h
  · exact spiWindow_idleTimeout w rd hq h

/-- R75, R76: a transport frame that fails. -/
theorem spiFrame_fails {w rd : List Byte} {s : State} {f : FrameFailure} (hf : f ∈ frameFailures s.cfg w rd)
    (hq : s.quiet = true) (hsel : s.sel = false) (h : s.supplied f.busy f.miso) :
    ∃ t, spiFrame w rd.length s = .err f.code t ∧ Took s t f.bus f.busy.length f.miso.length ∧ t.sel = false := by
  unfold frameFailures at hf
  rw [spiFrame, Op.get_bind]
  by_cases hr : s.cfg.readFraming = .singleWindow ∨ rd = []
  · rw [if_pos hr] at hf
    rw [if_pos (hr.imp id (by simp))]
    exact spiWindow_fails hf hq hsel h
  · rw [if_neg hr] at hf
    rw [if_neg (by simpa using hr)]
    rcases List.mem_append.mp hf with hf | hf
    · obtain ⟨t, ht, k, e⟩ := spiWindow_fails hf hq hsel h
      exact ⟨t, Op.andThen_err ht, k, e⟩
    · obtain ⟨g, hg, rfl⟩ := List.mem_map.mp hf
      obtain ⟨t, ht, k, e⟩ := spiWindow_ok w [] hq (s := s)
        ⟨(List.prefix_append _ _).trans h.1, List.nil_prefix⟩
      obtain ⟨u, hu, k', e'⟩ := spiWindow_fails (s := t) (by rw [k.cfg]; exact hg) k.quiet e
        (Took.supplied (bs := readyFor 1) (ms := []) k h)
      refine ⟨u, (Op.andThen_ok ht).trans hu, ?_, e'⟩
      have := k.trans k'
      rw [List.length_nil, Nat.zero_add] at this
      rwa [show (readyFor 1 ++ g.busy).length = 3 + g.busy.length by rw [List.length_append]; rfl]

/-! ## How much a step uses the bus, however it ends -/

/-- The number of delays made so far. -/
def State.delays (s : State) : Nat := delaysMade s.env.bus

/-- From `s` to `t` at most `m` select windows have been opened, and at most `d` delays made besides one for each of
them. -/
def Spent (s t : State) (m d : Nat) : Prop :=
  s.opened ≤ t.opened ∧ t.opened ≤ s.opened + m ∧ t.delays + s.opened ≤ s.delays + t.opened + d

/-- The step ends, in a value, an error or a reset, having opened at most `m` select windows, and made at most `d`
delays besides one for each of them. -/
abbrev Spends {α : Type} (s : State) (m d : Nat) (x : Res α) : Prop :=
  x.Sat (fun _ t => Spent s t m d ∧ t.steady ∧ t.cfg = s.cfg) (fun _ t => Spent s t m d) (fun t => Spent s t m d)

theorem Spent.trans {s t u : State} {m m' d d' : Nat} (h : Spent s t m d) (h' : Spent t u m' d') :
    Spent s u (m + m') (d + d') := by
  obtain ⟨a, b, c⟩ := h
  obtain ⟨a', b', c'⟩ := h'
  exact ⟨by omega, by omega, by omega⟩

theorem Spent.weaken {s t : State} {m m' d d' : Nat} (h : Spent s t m d) (hm : m ≤ m') (hd : d ≤ d') :
    Spent s t m' d' := by
  obtain ⟨a, b, c⟩ := h
  exact ⟨a, by omega, by omega⟩

theorem Spent.refl (s : State) (m d : Nat) : Spent s s m d := ⟨by omega, by omega, by omega⟩

theorem Spent.of_bus {s t : State} (h : t.env.bus = s.env.bus) : Spent s t 0 0 := by
  simp only [Spent, State.opened, State.delays, h]; omega

theorem Spends.weaken {α : Type} {s : State} {m m' d d' : Nat} {x : Res α} (h : Spends s m d x) (hm : m ≤ m')
    (hd : d ≤ d') : Spends s m' d' x :=
  h.mono (fun _ _ g => ⟨g.1.weaken hm hd, g.2⟩) (fun _ _ g => g.weaken hm hd) fun _ g => g.weaken hm hd

theorem spends_bind {α β : Type} {x : Op α} {f : α → Op β} {s : State} {m m' d d' : Nat} (h : Spends s m d (x s))
    (hf : ∀ v t, t.steady → t.cfg = s.cfg → Spends t m' d' (f v t)) : Spends s (m + m') (d + d') ((x.bind f) s) := by
  unfold Op.bind
  cases hx : x s with
  | ok v t =>
    rw [hx] at h
    exact (hf v t h.2.1 h.2.2).mono (fun _ _ g => ⟨h.1.trans g.1, g.2.1, g.2.2.trans h.2.2⟩)
      (fun _ _ g => h.1.trans g) fun _ g => h.1.trans g
  | err c t => rw [hx] at h; exact Spent.weaken h (Nat.le_add_right _ _) (Nat.le_add_right _ _)
  | cut t => rw [hx] at h; exact Spent.weaken h (Nat.le_add_right _ _) (Nat.le_add_right _ _)

theorem spends_ret {α : Type} {s : State} (hs : s.steady) (v : α) : Spends s 0 0 (Op.ret v s) :=
  ⟨Spent.refl s 0 0, hs, rfl⟩

theorem spends_raise {α : Type} (s : State) (c : ErrCode) : Spends s 0 0 ((Op.raise c : Op α) s) := Spent.refl s 0 0

/-- A reset releases select, and that is all it does on the bus. -/
theorem land_bus (es : List HostEvent) {s : State} (hb : s.busy = true) :
    (land es s).Sat (fun _ t => t.env.bus = s.env.bus) (fun _ _ => False)
      (fun t => t.env.bus = s.env.bus ∨ t.env.bus = s.env.bus ++ [.sel false]) := by
  induction es generalizing s with
  | nil => exact rfl
  | cons e es ih =>
    match e with
    | .pass => exact rfl
    | .await => exact rfl
    | .rst true => exact ih hb
    | .rst false =>
      show (if s.sel then s.env.bus ++ [.sel false] else s.env.bus) = _ ∨ _
      split
      · exact .inr (if_pos ‹_›)
      · exact .inl rfl
    | .access a =>
      obtain ⟨-, -, -, -, h5, -⟩ := State.hostAccess_busy hb a
      have := ih (State.busy_hostAccess hb a)
      rw [h5] at this
      exact this

theorem hostSlot_spends {s : State} (hs : s.steady) : Spends s 0 0 (hostSlot s) := by
  have hc := hostSlot_sat hs
  by_cases hq : s.quiet = true
  · rw [hostSlot_quiet hq]; exact ⟨Spent.refl s 0 0, hs, rfl⟩
  · have h := land_bus s.env.host (hs.resolve_right hq)
    rw [hostSlot] at hc ⊢
    cases hx : land s.env.host s with
    | ok v t => rw [hx] at h hc; exact ⟨Spent.of_bus h, hc.1.steady hs, hc.1.field State.cfg fun _ => rfl⟩
    | err c t => rw [hx] at h; exact h.elim
    | cut t =>
      rw [hx] at h
      rcases h with h | h
      · exact Spent.of_bus h
      · show Spent s t 0 0
        simp only [Spent, State.opened, State.delays, h, windowsOpened, delaysMade, List.count_append,
          List.countP_append, List.count_singleton, List.countP_singleton, BusEvent.isDelay]
        simp

/-- An elementary operation that records one event. -/
theorem spends_elementary {α : Type} {s : State} (hs : s.steady) (v : State → α) (f : State → State)
    (e : State → BusEvent) (hf : ∀ t, Ran t (f t)) (hb : ∀ t, (f t).env.bus = t.env.bus ++ [e t]) {m d : Nat}
    (hm : ∀ t, [e t].count (.sel true) ≤ m ∧ [e t].countP BusEvent.isDelay ≤ [e t].count (.sel true) + d) :
    Spends s m d ((hostSlot.andThen fun t => .ok (v t) (f t)) s) := by
  have h : Spends s (0 + m) (0 + d) ((hostSlot.andThen fun t => .ok (v t) (f t)) s) := by
    refine spends_bind (hostSlot_spends hs) fun _ t ht _ => ⟨?_, (hf t).steady ht, (hf t).field State.cfg fun _ => rfl⟩
    obtain ⟨h2, h3⟩ := hm t
    simp only [Spent, State.opened, State.delays, hb t, windowsOpened, delaysMade, List.count_append,
      List.countP_append]
    omega
  rwa [Nat.zero_add, Nat.zero_add] at h

theorem waitBusy_spends {s : State} (hs : s.steady) (want : Bool) (ms : Nat) : Spends s 0 0 (waitBusy want ms s) :=
  spends_elementary hs _ _ _ (State.waited_ran want ms) (fun t => (by simp : _ = t.env.bus ++ [.wait want ms t.nextBusy]))
    fun _ => by simp [BusEvent.isDelay]

theorem release_spends {s : State} (hs : s.steady) : Spends s 0 0 (selectLine false s) :=
  spends_elementary hs (fun _ => ()) _ (fun _ => .sel false) (State.selected_ran false) (fun t => by simp)
    fun _ => by simp [BusEvent.isDelay]

theorem delay_spends {s : State} (hs : s.steady) (us : Nat) : Spends s 0 1 (delay us s) :=
  spends_elementary hs (fun _ => ()) _ (fun _ => .delay us) (State.delayed_ran us) (fun t => by simp)
    fun _ => by simp [BusEvent.isDelay]

theorem sendByte_spends {s : State} (hs : s.steady) (b : Byte) : Spends s 0 0 (sendByte b s) :=
  spends_elementary hs (fun _ => ()) _ (fun _ => .out b) (State.sent_ran b) (fun t => by simp)
    fun _ => by simp [BusEvent.isDelay]

theorem recvByte_spends {s : State} (hs : s.steady) : Spends s 0 0 (recvByte s) :=
  spends_elementary hs _ _ (fun t => .filler t.nextMiso) State.captured_ran (fun t => by simp)
    fun _ => by simp [BusEvent.isDelay]

theorem sendBytes_spends (w : List Byte) {s : State} (hs : s.steady) : Spends s 0 0 (sendBytes w s) := by
  induction w generalizing s with
  | nil => exact spends_ret hs ()
  | cons b w ih => exact spends_bind (sendByte_spends hs b) fun _ t ht _ => ih ht

theorem recvBytes_spends (r : Nat) {s : State} (hs : s.steady) : Spends s 0 0 (recvBytes r s) := by
  induction r generalizing s with
  | zero => exact spends_ret hs []
  | succ r ih =>
    exact spends_bind (recvByte_spends hs) fun b t ht _ => spends_bind (ih ht) fun bs u hu _ => spends_ret hu (b :: bs)

/-- Steps 2 to 4 of a window: one window opened, and its settle delay (R69). -/
theorem windowBody_spends (w : List Byte) (r : Nat) {s : State} (hs : s.steady) :
    Spends s 1 0 (windowBody w r s) := by
  have hsel : (selectLine true s).Sat
      (fun _ t => t.opened = s.opened + 1 ∧ t.delays = s.delays ∧ t.steady ∧ t.cfg = s.cfg) (fun _ _ => False)
      (fun t => Spent s t 0 0) := by
    have h := hostSlot_spends hs
    have hr := hostSlot_sat hs
    rw [selectLine, Op.andThen, Op.bind]
    cases hx : hostSlot s with
    | ok _ t =>
      rw [hx] at h hr
      refine ⟨?_, ?_, (State.selected_ran true t).steady h.2.1, h.2.2⟩
      · show windowsOpened (t.env.bus ++ [.sel true]) = _
        rw [hr.2.2, windowsOpened, List.count_append]; rfl
      · show delaysMade (t.env.bus ++ [.sel true]) = _
        rw [hr.2.2, delaysMade, List.countP_append]; rfl
    | err c t => rw [hx] at hr; exact hr.elim
    | cut t => rw [hx] at h; exact h
  have hrest : ∀ t : State, t.steady → Spends t (0 + (0 + 0)) (1 + (0 + 0)) (((Op.get fun s => s.cfg.settleUs).bind fun us =>
      (delay us).andThen <| (sendBytes w).andThen <| recvBytes r) t) := fun t ht => by
    rw [Op.get_bind]
    exact spends_bind (delay_spends ht _) fun _ u hu _ =>
      spends_bind (sendBytes_spends w hu) fun _ v hv _ => recvBytes_spends r hv
  rw [windowBody, Op.andThen, Op.bind]
  cases hx : selectLine true s with
  | ok _ t =>
    rw [hx] at hsel
    obtain ⟨h1, h2, h3, h4⟩ := hsel
    have key : ∀ u, Spent t u 0 1 → Spent s u 1 0 := fun u ⟨a, b, c⟩ => ⟨by omega, by omega, by omega⟩
    exact (hrest t h3).mono (fun _ u g => ⟨key u g.1, g.2.1, g.2.2.trans h4⟩) (fun _ u g => key u g) fun u g => key u g
  | err c t => rw [hx] at hsel; exact hsel.elim
  | cut t => rw [hx] at hsel; exact Spent.weaken hsel (by omega) (by omega)

theorem windowRelease_spends (rd : List Byte) {s : State} (hs : s.steady) : Spends s 0 0 (windowRelease rd s) := by
  refine spends_bind (m := 0) (m' := 0) (d := 0) (d' := 0) (waitBusy_spends hs _ _) fun latched t ht _ => ?_
  split
  · refine spends_bind (m := 0) (m' := 0) (d := 0) (d' := 0) (release_spends ht) fun _ u hu _ =>
      spends_bind (m := 0) (m' := 0) (d := 0) (d' := 0) (waitBusy_spends hu _ _) fun idle v hv _ => ?_
    split
    · exact spends_ret hv rd
    · exact spends_raise v _
  · exact spends_bind (m := 0) (m' := 0) (d := 0) (d' := 0) (release_spends ht) fun _ u _ _ => spends_raise u _

/-- R67: however a window ends, it has opened at most one, and made at most its settle delay. -/
theorem spiWindow_spends (w : List Byte) (r : Nat) {s : State} (hs : s.steady) : Spends s 1 0 (spiWindow w r s) := by
  have h : Spends s (0 + 1) (0 + 0) (spiWindow w r s) := by
    refine spends_bind (waitBusy_spends hs _ _) fun ready t ht _ => ?_
    split
    · exact spends_bind (windowBody_spends w r ht) fun rd u hu _ => windowRelease_spends rd hu
    · exact (spends_raise t _).weaken (by omega) (by omega)
  exact h

/-- R76: however a transport frame ends, it has opened at most its windows. -/
theorem spiFrame_spends (w : List Byte) (r : Nat) {s : State} (hs : s.steady) :
    Spends s (frameWindows s.cfg r) 0 (spiFrame w r s) := by
  unfold spiFrame frameWindows
  simp only [Op.get_bind]
  split
  · exact spiWindow_spends w r hs
  · exact spends_bind (spiWindow_spends w 0 hs) fun _ t ht _ => spiWindow_spends [] r ht

end Sys2Proof.Machine
end

