-- ==== Sys2Proof/Laws/FrameExchange.lean ====
section
/-!
SUPPORT. What register access and frame exchange can do, under every environment (the `_sat` lemmas) and where the
peer answers (the `_ok` lemmas).
-/

namespace Sys2Proof.Machine

/-- A transport step: it changes what bus activity changes, ends with select deasserted, and fails with a transport
error only. -/
abbrev Transported {α : Type} (s : State) (P : α → State → Prop) (x : Res α) : Prop :=
  x.Sat (fun v t => Ran s t ∧ World s t ∧ P v t) (fun c t => Ran s t ∧ World s t ∧ c.isTransport = true) (CutFrom s)

theorem spiFrame_transported (w : List Byte) (r : Nat) {s : State} (hs : s.steady) :
    Transported s (fun rd t => rd.length = r ∧ t.opened = s.opened + frameWindows s.cfg r) (spiFrame w r s) :=
  (spiFrame_sat w r hs).mono (fun _ _ h => ⟨h.1, h.1.world h.2.1, h.2.2.2, h.2.2.1⟩)
    (fun _ _ h => ⟨h.1, h.1.world h.2.1, h.2.2.2⟩) (fun _ h => h)

theorem regRead_sat (addr : Byte) {s : State} (hs : s.steady) :
    Transported s (fun rd t => rd.length = 4 ∧ t.opened = s.opened + frameWindows s.cfg 4) (regRead addr s) := by
  rw [regRead, Op.get_bind]; exact spiFrame_transported _ _ hs

theorem regWrite_sat (op addr : Byte) (v : Word) {s : State} (hs : s.steady) :
    Transported s (fun _ _ => True) (regWrite op addr v s) :=
  Op.andThen_sat (spiFrame_transported _ _ hs) fun _ _ h => ⟨h.1, h.2.1, trivial⟩

theorem readFrame_sat {n : Nat} (hn : n ≤ Config.maxRead) {s : State} (hs : s.steady) :
    Transported s (fun rd t => rd.length = n ∧ t.opened = s.opened + frameWindows s.cfg n) (readFrame n s) := by
  rw [readFrame, if_neg (by omega), Op.get_bind]; exact spiFrame_transported _ _ hs

theorem sendFrame_sat {data : List Byte} (hn : data.length ≤ Config.maxSend) {s : State} (hs : s.steady) {vb : Nat}
    (hv : 1 ≤ vb ∧ vb ≤ 8) : Transported s (fun _ _ => True) (sendFrame data vb s) := by
  rw [sendFrame, if_neg (by omega), if_neg (by omega), Op.get_bind]
  exact Op.andThen_sat (spiFrame_transported _ _ hs) fun _ _ h => ⟨h.1, h.2.1, trivial⟩

theorem rxCount_le (s0 s1 : Byte) : rxCount s0 s1 ≤ 511 := by
  have h : ∀ s1 : Byte, ((s1 &&& 0x01#8).setWidth 16 <<< 8 : Half) = 0#16 ∨
      ((s1 &&& 0x01#8).setWidth 16 <<< 8 : Half) = 0x100#16 := by decide
  have h' : ∀ s0 : Byte, ((s0.setWidth 16 : Half) ||| 0#16).toNat ≤ 511 ∧
      ((s0.setWidth 16 : Half) ||| 0x100#16).toNat ≤ 511 := by decide
  rcases h s1 with e | e <;> simp only [rxCount, e]
  · exact (h' s0).1
  · exact (h' s0).2

theorem getRxStatus_sat {s : State} (hs : s.steady) :
    Transported s (fun st t => st.1 ≤ 511 ∧ t.opened = s.opened + frameWindows s.cfg 4) (getRxStatus s) := by
  rw [getRxStatus, Op.get_bind]
  exact Op.bind_sat (regRead_sat _ hs) fun rd t h => ⟨h.1, h.2.1, rxCount_le _ _, h.2.2.2⟩

/-- What is left of a state when also all that a read-with-timeout changes is wiped out. -/
def State.stillRx (s : State) : State := { s.still with k := 0, prev := 0, frame := [] }

/-- `t` comes from `s` by bus activity, by accesses of the host during a command, and by reads-with-timeout. -/
structure Heard (s t : State) : Prop where
  world : World s t
  still : t.stillRx = s.stillRx
  frame : Memory.wf 0 Config.maxRead s.frame = true → Memory.wf 0 Config.maxRead t.frame = true
  prev : s.prev ≤ 511 → t.prev ≤ 511

theorem Heard.refl (s : State) : Heard s s := ⟨World.refl s, rfl, id, id⟩

theorem Heard.trans {s t u : State} (h : Heard s t) (h' : Heard t u) : Heard s u :=
  ⟨h.world.trans h'.world, h'.still.trans h.still, fun w => h'.frame (h.frame w), fun w => h'.prev (h.prev w)⟩

/-- A field that `stillRx` keeps is the same. -/
theorem Heard.field {α : Type} {s t : State} (h : Heard s t) (f : State → α) (hf : ∀ u, f u.stillRx = f u) :
    f t = f s := by
  rw [← hf t, h.still, hf s]

theorem Heard.eq {s t : State} (h : Heard s t) :
    t = { s with ovr := t.ovr, done := t.done, frame := t.frame, k := t.k, prev := t.prev, sel := t.sel,
                 mosi := t.mosi, env := t.env } := by
  have := h.still
  cases s; cases t
  simp only [State.stillRx, State.still, State.mk.injEq] at this ⊢
  simp only [this, and_self]

theorem Heard.of_ran {s t : State} (h : Ran s t) (w : World s t) : Heard s t := by
  refine ⟨w, ?_, fun hw => (h.field State.frame fun _ => rfl).symm ▸ hw,
    fun hw => (h.field State.prev fun _ => rfl).symm ▸ hw⟩
  unfold State.stillRx; rw [h.still]

/-- A step of frame exchange. -/
abbrev Exchanged {α : Type} (s : State) (P : α → State → Prop) (E : ErrCode → Prop) (x : Res α) : Prop :=
  x.Sat (fun v t => Heard s t ∧ P v t) (fun c t => Heard s t ∧ E c) (CutFrom s)

theorem Exchanged.of_transported {α : Type} {s : State} {P : α → State → Prop} {E : ErrCode → Prop} {x : Res α}
    (h : Transported s P x) (hE : ∀ c, c.isTransport = true → E c) : Exchanged s P E x :=
  h.mono (fun _ _ h => ⟨Heard.of_ran h.1 h.2.1, h.2.2⟩) (fun _ _ h => ⟨Heard.of_ran h.1 h.2.1, hE _ h.2.2⟩)
    (fun _ h => h)

/-- Two steps of frame exchange in a row. -/
theorem exchanged_bind {α β : Type} {x : Op α} {f : α → Op β} {s : State} {P : α → State → Prop} {E : ErrCode → Prop}
    {Q : β → State → Prop} (h : Exchanged s P E (x s))
    (hf : ∀ v t, Heard s t → P v t → Exchanged t (fun w u => Q w u) E (f v t)) :
    Exchanged s Q E ((x.bind f) s) :=
  Op.bind_sat h fun v t ht =>
    (hf v t ht.1 ht.2).mono (fun _ _ g => ⟨ht.1.trans g.1, g.2⟩) (fun _ _ g => ⟨ht.1.trans g.1, g.2⟩)
      (fun _ g => g.of_world ht.1.world)

/-- R89, R94: the poll loop makes between 1 and `left + 1` polls. -/
theorem pollLoop_sat (left : Nat) {s : State} (hs : s.steady) :
    Exchanged s (fun cnt t => cnt ≤ 511 ∧ s.opened + frameWindows s.cfg 4 ≤ t.opened ∧
        t.opened ≤ s.opened + (left + 1) * frameWindows s.cfg 4)
      (fun c => c.isTransport = true) (pollLoop left s) := by
  induction left generalizing s with
  | zero =>
    refine exchanged_bind (Exchanged.of_transported (getRxStatus_sat hs) fun _ h => h) fun st t ht h => ?_
    exact ⟨Heard.refl t, h.1, by omega, by omega⟩
  | succ left ih =>
    refine exchanged_bind (Exchanged.of_transported (getRxStatus_sat hs) fun _ h => h) fun st t ht h => ?_
    have hmul : (left + 1 + 1) * frameWindows s.cfg 4 = (left + 1) * frameWindows s.cfg 4 + frameWindows s.cfg 4 := by
      ring
    split
    · refine ⟨Heard.refl t, h.1, by omega, ?_⟩
      rw [hmul, h.2]; omega
    · rw [Op.upd_andThen]
      have h1 : Heard t (t.polled st.1) :=
        ⟨World.of_env rfl rfl rfl rfl rfl rfl, rfl, id, fun _ => h.1⟩
      have hst1 := h1.world.steady (ht.world.steady hs)
      have h2 : Exchanged (t.polled st.1)
          (fun _ u => u.opened = t.opened) (fun c => c.isTransport = true)
          (delay (Config.pollMs * 1000) (t.polled st.1)) :=
        (delay_sat hst1 _).mono (fun _ u g => ⟨Heard.of_ran g.1 (g.1.world g.2.1.trans), g.2.2⟩)
          (fun _ _ g => g.elim) (fun _ g => g)
      refine ((exchanged_bind h2 (Q := fun cnt u => cnt ≤ 511 ∧ s.opened + frameWindows s.cfg 4 ≤ u.opened ∧
        u.opened ≤ s.opened + (left + 1 + 1) * frameWindows s.cfg 4) fun _ u hu g => ?_)).mono
        (fun _ u g => ⟨h1.trans g.1, g.2⟩) (fun _ u g => ⟨h1.trans g.1, g.2⟩) (fun _ g => g.of_world h1.world)
      have hc : u.cfg = s.cfg := (hu.world.cfg.trans h1.world.cfg).trans ht.world.cfg
      refine (ih (hu.world.steady hst1)).mono (fun cnt u' g' => ?_) (fun _ _ g' => g') (fun _ g' => g')
      have g2 := g'.2.2
      rw [hc, g, h.2] at g2
      exact ⟨g'.1, by have := g2.1; omega, by rw [hmul]; have := g2.2; omega⟩

/-- R89 to R94: a read-with-timeout returns a count within the capacity, or fails with a transport error or
`E_RX_OVERFLOW`; it makes between 1 and `T + 1` polls, and one frame read where the count is not 0. -/
theorem readWithTimeout_sat {cap : Nat} (hcap : cap ≤ Config.maxRead) (T : Nat) {s : State} (hs : s.steady) :
    Exchanged s
      (fun n t => n ≤ cap ∧ s.opened + frameWindows s.cfg 4 ≤ t.opened ∧
        t.opened ≤ s.opened + (T + 1) * frameWindows s.cfg 4 + if n = 0 then 0 else frameWindows s.cfg n)
      (fun c => c.isTransport = true ∨ c = .rxOverflow) (readWithTimeout cap T s) := by
  rw [readWithTimeout, Op.upd_andThen]
  have h1 : Heard s s.pollStart := ⟨World.of_env rfl rfl rfl rfl rfl rfl, rfl, id, fun _ => Nat.zero_le _⟩
  have hs1 := h1.world.steady hs
  refine Res.Sat.mono (exchanged_bind (E := fun c => c.isTransport = true ∨ c = .rxOverflow)
    ((pollLoop_sat T hs1).mono (fun _ _ g => g) (fun _ _ g => ⟨g.1, .inl g.2⟩) (fun _ g => g))
    (Q := fun n t => n ≤ cap ∧ s.opened + frameWindows s.cfg 4 ≤ t.opened ∧
      t.opened ≤ s.opened + (T + 1) * frameWindows s.cfg 4 + if n = 0 then 0 else frameWindows s.cfg n)
    fun cnt t ht h => ?_) (fun _ u g => ⟨h1.trans g.1, g.2⟩) (fun _ u g => ⟨h1.trans g.1, g.2⟩)
    (fun _ g => g.of_world h1.world)
  have h2 : s.opened + frameWindows s.cfg 4 ≤ t.opened ∧ t.opened ≤ s.opened + (T + 1) * frameWindows s.cfg 4 := h.2
  split
  · exact ⟨Heard.refl t, Nat.zero_le _, h2.1, h2.2.trans (Nat.le_add_right _ _)⟩
  · next hcnt0 =>
    split
    · exact ⟨Heard.refl t, .inr rfl⟩
    · next hcnt =>
      have hc : t.cfg = s.cfg := ht.world.cfg
      refine exchanged_bind (Exchanged.of_transported
        (readFrame_sat (show cnt ≤ Config.maxRead by omega) (ht.world.steady hs1)) fun _ g => .inl g)
        fun d u hu g => ?_
      have : u.opened = t.opened + frameWindows s.cfg cnt := by rw [g.2, hc]
      refine ⟨⟨World.of_env rfl rfl rfl rfl rfl rfl, rfl, fun hw => ?_, id⟩, by omega, ?_, ?_⟩
      · exact Memory.wf_store hw (Nat.zero_le _) (by rw [g.1]; omega)
      · show _ ≤ u.opened
        omega
      · show u.opened ≤ _
        rw [if_neg hcnt0]
        omega

/-! ## How much a read-with-timeout uses the bus, however it ends (R94) -/

theorem getRxStatus_spends {s : State} (hs : s.steady) : Spends s (frameWindows s.cfg 4) 0 (getRxStatus s) := by
  rw [getRxStatus, Op.get_bind]
  refine spends_bind (m' := 0) (d' := 0) ?_ fun rd t ht _ => spends_ret ht _
  rw [regRead, Op.get_bind]
  exact spiFrame_spends _ _ hs

theorem readFrame_spends {n : Nat} {s : State} (hs : s.steady) : Spends s (frameWindows s.cfg n) 0 (readFrame n s) := by
  rw [readFrame]
  split
  · exact (spends_raise s _).weaken (Nat.zero_le _) (Nat.le_refl _)
  · rw [Op.get_bind]; exact spiFrame_spends _ _ hs

theorem pollLoop_spends (left : Nat) {s : State} (hs : s.steady) :
    Spends s ((left + 1) * frameWindows s.cfg 4) left (pollLoop left s) := by
  induction left generalizing s with
  | zero =>
    have h : Spends s (frameWindows s.cfg 4 + 0) (0 + 0) (pollLoop 0 s) :=
      spends_bind (getRxStatus_spends hs) fun st t ht _ => spends_ret ht _
    simpa using h
  | succ left ih =>
    have h : Spends s (frameWindows s.cfg 4 + (0 + (left + 1) * frameWindows s.cfg 4)) (0 + (1 + left))
        (pollLoop (left + 1) s) := by
      refine spends_bind (getRxStatus_spends hs) fun st t ht hc => ?_
      split
      · exact (spends_ret ht st.1).weaken (Nat.zero_le _) (Nat.zero_le _)
      · rw [Op.upd_andThen]
        have hb : ∀ u m d, Spent (t.polled st.1) u m d → Spent t u m d := fun _ _ _ h => h
        have hp : (t.polled st.1).steady := ht
        refine (spends_bind (delay_spends hp _) fun _ u hu hcu => ?_).mono (fun _ u g => ⟨hb u _ _ g.1, g.2⟩)
          (fun _ u g => hb u _ _ g) fun u g => hb u _ _ g
        rw [← hc, ← (show u.cfg = t.cfg from hcu)]
        exact ih hu
    refine h.weaken (Nat.le_of_eq ?_) (by omega)
    ring

/-- R94: however a read-with-timeout ends, it has opened at most the windows of `T + 1` polls and of one frame read, and
made at most `T` delays besides the settle delays of its windows. -/
theorem readWithTimeout_spends (cap T : Nat) {s : State} (hs : s.steady) :
    Spends s ((T + 1) * frameWindows s.cfg 4 + frameWindows s.cfg 1) T (readWithTimeout cap T s) := by
  rw [readWithTimeout, Op.upd_andThen]
  have hp : s.pollStart.steady := hs
  refine (spends_bind (d' := 0) (m' := frameWindows s.cfg 1) (pollLoop_spends T hp) fun cnt t ht hc => ?_).mono
    (fun _ u g => g) (fun _ u g => g) fun u g => g
  have hc : t.cfg = s.cfg := hc
  split
  · exact (spends_ret ht _).weaken (Nat.zero_le _) (Nat.le_refl _)
  · split
    · exact (spends_raise t _).weaken (Nat.zero_le _) (Nat.le_refl _)
    · next h0 _ =>
      have hw : frameWindows t.cfg cnt = frameWindows s.cfg 1 := by simp [frameWindows, hc, h0]
      refine spends_bind (m := frameWindows s.cfg 1) (d := 0) (m' := 0) (d' := 0)
        (by rw [← hw]; exact readFrame_spends ht) fun d u hu _ => ?_
      exact ⟨Spent.of_bus rfl, hu, rfl⟩

/-! ## Where the peer answers -/

theorem regRead_ok (addr : Byte) {rd : List Byte} (hl : rd.length = 4) {s : State} (hq : s.quiet = true)
    (h : s.supplied (readyFor (frameWindows s.cfg 4)) rd) :
    ∃ t, regRead addr s = .ok rd t ∧
      Took s t (frameTrace s.cfg (regReadBytes s.cfg addr) rd) (3 * frameWindows s.cfg 4) 4 ∧ t.sel = false := by
  have := spiFrame_ok (regReadBytes s.cfg addr) rd hq (hl.symm ▸ h)
  rw [hl] at this
  rw [regRead, Op.get_bind]; exact this

theorem regWrite_ok (op addr : Byte) (v : Word) {s : State} (hq : s.quiet = true) (h : s.supplied (readyFor 1) []) :
    ∃ t, regWrite op addr v s = .ok () t ∧
      Took s t (windowTrace s.cfg.settleUs ([op, addr] ++ bytesLe32 v) []) 3 0 ∧ t.sel = false := by
  obtain ⟨t, ht, hk, hsel⟩ := spiFrame_ok ([op, addr] ++ bytesLe32 v) [] hq (s := s)
    (by simpa [frameWindows] using h)
  refine ⟨t, ?_, ?_, hsel⟩
  · rw [List.length_nil] at ht
    rw [regWrite, Op.andThen_ok ht]; rfl
  · simpa [frameTrace, frameWindows] using hk

theorem sendFrame_ok {data : List Byte} {vb : Nat} (hn : data.length ≤ Config.maxSend) (hv : 1 ≤ vb ∧ vb ≤ 8)
    {s : State} (hq : s.quiet = true) (h : s.supplied (readyFor 1) []) :
    ∃ t, sendFrame data vb s = .ok () t ∧
      Took s t (windowTrace s.cfg.settleUs ([s.cfg.opSendData, validBitsCode vb] ++ data) []) 3 0 ∧
      t.sel = false := by
  obtain ⟨t, ht, hk, hsel⟩ := spiFrame_ok ([s.cfg.opSendData, validBitsCode vb] ++ data) [] hq (s := s)
    (by simpa [frameWindows] using h)
  refine ⟨t, ?_, ?_, hsel⟩
  · rw [List.length_nil] at ht
    rw [sendFrame, if_neg (by omega), if_neg (by omega), Op.get_bind, Op.andThen_ok ht]; rfl
  · simpa [frameTrace, frameWindows] using hk

theorem readFrame_ok {rd : List Byte} (hn : rd.length ≤ Config.maxRead) {s : State} (hq : s.quiet = true)
    (h : s.supplied (readyFor (frameWindows s.cfg rd.length)) rd) :
    ∃ t, readFrame rd.length s = .ok rd t ∧
      Took s t (frameTrace s.cfg (readFrameBytes s.cfg) rd) (3 * frameWindows s.cfg rd.length) rd.length ∧
      t.sel = false := by
  rw [readFrame, if_neg (by omega), Op.get_bind]
  exact spiFrame_ok (readFrameBytes s.cfg) rd hq h

theorem getRxStatus_ok {st : List Byte} (hl : st.length = 4) {s : State} (hq : s.quiet = true)
    (h : s.supplied (readyFor (frameWindows s.cfg 4)) st) :
    ∃ t, getRxStatus s = .ok (rxStatusOf st) t ∧
      Took s t (pollTrace s.cfg st) (3 * frameWindows s.cfg 4) 4 ∧ t.sel = false := by
  obtain ⟨t, ht, hk, hsel⟩ := regRead_ok s.cfg.addrRxStatus hl hq h
  exact ⟨t, by rw [getRxStatus, Op.get_bind, Op.bind_ok ht]; rfl, hk, hsel⟩

/-- `t` comes from `s` by the bus events `es` and by reads-with-timeout, in which the environment supplied `nb`
outcomes of waits and `nm` MISO bytes; the host was quiet. -/
structure Got (s t : State) (es : List BusEvent) (nb nm : Nat) : Prop where
  heard : Heard s t
  quiet : t.quiet = true
  bus : t.env.bus = s.env.bus ++ es
  busy : t.env.busy = s.env.busy.drop nb
  miso : t.env.miso = s.env.miso.drop nm
  mosi : t.mosi = lastDriven s.mosi es

theorem Took.got {s t : State} {es : List BusEvent} {nb nm : Nat} (h : Took s t es nb nm)
    (hsel : s.sel = false → t.sel = false) : Got s t es nb nm :=
  ⟨Heard.of_ran h.ran (h.ran.world hsel), h.quiet, h.bus, h.busy, h.miso, h.mosi⟩

theorem Got.trans {s t u : State} {es es' : List BusEvent} {nb nb' nm nm' : Nat} (h : Got s t es nb nm)
    (h' : Got t u es' nb' nm') : Got s u (es ++ es') (nb + nb') (nm + nm') :=
  ⟨h.heard.trans h'.heard, h'.quiet, by rw [h'.bus, h.bus, List.append_assoc], by rw [h'.busy, h.busy, List.drop_drop],
    by rw [h'.miso, h.miso, List.drop_drop], by rw [h'.mosi, h.mosi, lastDriven_append]⟩

theorem Got.supplied {s t : State} {es : List BusEvent} {bs bs' : List Bool} {ms ms' : List Byte}
    (h : Got s t es bs.length ms.length) (hs : s.supplied (bs ++ bs') (ms ++ ms')) : t.supplied bs' ms' := by
  obtain ⟨⟨b, hb⟩, ⟨m, hm⟩⟩ := hs
  refine ⟨⟨b, ?_⟩, ⟨m, ?_⟩⟩
  · rw [h.busy, ← hb, List.append_assoc, List.drop_left]
  · rw [h.miso, ← hm, List.append_assoc, List.drop_left]

/-- A change of the fields that a read-with-timeout may change. -/
theorem Got.of_eq {s t : State} (hq : s.quiet = true) (h : t.stillRx = s.stillRx) (he : t.env = s.env)
    (hd : t.done = s.done) (ho : t.ovr = s.ovr) (hsel : t.sel = s.sel) (hc : t.cfg = s.cfg) (hb : t.busy = s.busy)
    (hm : t.mosi = s.mosi)
    (hf : Memory.wf 0 Config.maxRead s.frame = true → Memory.wf 0 Config.maxRead t.frame = true)
    (hp : s.prev ≤ 511 → t.prev ≤ 511) : Got s t [] 0 0 :=
  ⟨⟨World.of_env he hc hb hd ho hsel, h, hf, hp⟩, (State.quiet_congr (by rw [he])).trans hq, by simp [he], by simp [he],
    by simp [he], hm⟩

theorem readyFor_add (m n : Nat) : readyFor (m + n) = readyFor m ++ readyFor n := by
  rw [readyFor, readyFor, readyFor, Nat.mul_add, List.replicate_add]

theorem length_readyFor (n : Nat) : (readyFor n).length = 3 * n := List.length_replicate

/-- The polls of a read-with-timeout (R89 to R91): the loop ends with the last count of the sequence. -/
theorem pollLoop_ok (sts : List (List Byte)) (hl : ∀ st ∈ sts, st.length = 4) (left : Nat) {s : State}
    (hq : s.quiet = true) (he : pollsEnd s.prev left (sts.map pollCount) = true)
    (h : s.supplied (readyFor (sts.length * frameWindows s.cfg 4)) sts.flatten) :
    ∃ t, pollLoop left s = .ok ((sts.map pollCount).getLastD 0) t ∧
      Got s t (pollsTrace s.cfg sts) (3 * (sts.length * frameWindows s.cfg 4)) (4 * sts.length) ∧
      t.sel = false ∧ t.frame = s.frame ∧ t.k = s.k + (sts.length - 1) ∧
      t.prev = pollsPrev s.prev (sts.map pollCount) := by
  induction sts generalizing left s with
  | nil => simp [pollsEnd] at he
  | cons st sts ih =>
    have hl4 : st.length = 4 := hl st List.mem_cons_self
    have hsplit : readyFor ((st :: sts).length * frameWindows s.cfg 4) =
        readyFor (frameWindows s.cfg 4) ++ readyFor (sts.length * frameWindows s.cfg 4) := by
      rw [← readyFor_add, List.length_cons, Nat.add_mul, Nat.one_mul, Nat.add_comm]
    rw [hsplit, List.flatten_cons] at h
    obtain ⟨t1, h1, k1, e1⟩ := getRxStatus_ok hl4 hq
      ⟨(List.prefix_append _ _).trans h.1, (List.prefix_append _ _).trans h.2⟩
    have g1 : Got s t1 (pollTrace s.cfg st) (3 * frameWindows s.cfg 4) 4 := k1.got fun _ => e1
    have hprev : t1.prev = s.prev := k1.ran.field State.prev fun _ => rfl
    have hframe : t1.frame = s.frame := k1.ran.field State.frame fun _ => rfl
    have stop : sts = [] → ∃ t, (Res.ok (pollCount st) t1 : Res Nat) =
        .ok (((st :: sts).map pollCount).getLastD 0) t ∧
        Got s t (pollsTrace s.cfg (st :: sts)) (3 * ((st :: sts).length * frameWindows s.cfg 4))
          (4 * (st :: sts).length) ∧ t.sel = false ∧ t.frame = s.frame ∧ t.k = s.k + ((st :: sts).length - 1) ∧
        t.prev = pollsPrev s.prev ((st :: sts).map pollCount) := by
      rintro rfl
      exact ⟨t1, by simp, by simpa [pollsTrace] using g1, e1, hframe, k1.ran.field State.k fun _ => rfl, hprev⟩
    cases sts with
    | nil =>
      simp only [List.map_cons, List.map_nil, pollsEnd, decide_eq_true_eq] at he
      obtain ⟨t, ht, rest⟩ := stop rfl
      refine ⟨t, ?_, rest⟩
      rw [← ht]
      cases left with
      | zero => rw [pollLoop, Op.bind_ok h1]; rfl
      | succ left =>
        rw [pollLoop, Op.bind_ok h1, if_pos]
        · rfl
        · rw [hprev]; exact he.resolve_left (by omega)
    | cons st2 sts =>
      simp only [List.map_cons, pollsEnd, Bool.and_eq_true, decide_eq_true_eq] at he
      obtain ⟨⟨hleft, hne⟩, he⟩ := he
      cases left with
      | zero => omega
      | succ left =>
        have g2 : Got t1 (t1.polled (pollCount st)) [] 0 0 :=
          Got.of_eq g1.quiet rfl rfl rfl rfl rfl rfl rfl rfl id fun _ => rxCount_le _ _
        obtain ⟨t3, h3, k3, e3⟩ := delay_took g2.quiet (Config.pollMs * 1000)
        have g3 := (g1.trans g2).trans (k3.got e3.trans)
        have hp3 : t3.prev = pollCount st := k3.ran.field State.prev fun _ => rfl
        have hc3 : t3.cfg = s.cfg := g3.heard.world.cfg
        have hf3 : t3.frame = s.frame := (k3.ran.field State.frame fun _ => rfl).trans hframe
        have s3 : t3.supplied (readyFor ((st2 :: sts).length * frameWindows t3.cfg 4)) (st2 :: sts).flatten := by
          rw [hc3]
          refine Got.supplied (es := pollTrace s.cfg st ++ [] ++ [.delay (Config.pollMs * 1000)])
            (bs := readyFor (frameWindows s.cfg 4)) (ms := st) ?_ h
          rw [length_readyFor, hl4]
          exact g3
        have hk3 : t3.k = s.k + 1 := by
          rw [k3.ran.field State.k fun _ => rfl, (State.polled_fields t1 (pollCount st)).2.2.2.2.2.2.2.2.2.2.2.2.2.2.2.2.1,
            k1.ran.field State.k fun _ => rfl]
        obtain ⟨t, ht, gt, et, ft, kt, pt⟩ := ih (fun x hx => hl x (List.mem_cons_of_mem _ hx)) left g3.quiet
          (by rw [hp3]; simpa using he) s3
        refine ⟨t, ?_, ?_, et, ft.trans hf3, ?_, ?_⟩
        · rw [pollLoop, Op.bind_ok h1, if_neg, Op.upd_andThen]
          · show ((delay (Config.pollMs * 1000)).andThen (pollLoop left)) (t1.polled (pollCount st)) = _
            rw [Op.andThen_ok h3, ht]; rfl
          · rw [hprev]; exact hne
        · have := g3.trans gt
          rw [hc3] at this
          have e1 : 3 * frameWindows s.cfg 4 + 0 + 0 + 3 * ((st2 :: sts).length * frameWindows s.cfg 4) =
              3 * ((st :: st2 :: sts).length * frameWindows s.cfg 4) := by
            simp only [List.length_cons]; ring
          have e2 : 4 + 0 + 0 + 4 * (st2 :: sts).length = 4 * (st :: st2 :: sts).length := by
            simp only [List.length_cons]; ring
          rw [e1, e2] at this
          simpa [pollsTrace, List.append_assoc] using this
        · rw [kt, hk3]; simp only [List.length_cons]; omega
        · rw [pt, hp3]; rfl

theorem Answer.length_flatten {a : Answer} {T : Nat} (h : a.polled T) : a.polls.flatten.length = 4 * a.polls.length := by
  have h := h.1
  revert h
  generalize a.polls = sts
  intro h
  induction sts with
  | nil => rfl
  | cons st sts ih =>
    rw [List.flatten_cons, List.length_append, h st List.mem_cons_self,
      ih fun x hx => h x (List.mem_cons_of_mem _ hx), List.length_cons]
    ring

/-- The polls of an answer (R89 to R91). -/
theorem pollLoop_answer {a : Answer} {T : Nat} (ha : a.polled T) {s : State} (hq : s.quiet = true)
    (h : s.supplied (readyFor (a.polls.length * frameWindows s.cfg 4)) a.polls.flatten) :
    ∃ t, pollLoop T s.pollStart = .ok a.count t ∧
      Got s t (pollsTrace s.cfg a.polls) (3 * (a.polls.length * frameWindows s.cfg 4)) (4 * a.polls.length) ∧
      t.sel = false ∧ t.frame = s.frame ∧ t.k = a.polls.length - 1 ∧ t.prev = pollsPrev 0 a.counts := by
  have g0 : Got s s.pollStart [] 0 0 := Got.of_eq hq rfl rfl rfl rfl rfl rfl rfl rfl id fun _ => Nat.zero_le _
  obtain ⟨t, ht, gt, et, ft, kt, pt⟩ := pollLoop_ok a.polls ha.1 T g0.quiet ha.2 h
  exact ⟨t, ht, by simpa using g0.trans gt, et, ft, by simpa using kt, pt⟩

/-- R93: a read-with-timeout whose polls end with a count above the capacity. -/
theorem readWithTimeout_tooLong {a : Answer} {cap T : Nat} (ha : a.tooLong cap T) {s : State} (hq : s.quiet = true)
    (h : s.answers 0 a) :
    ∃ t, readWithTimeout cap T s = .err .rxOverflow t ∧
      Got s t (a.trace s.cfg) (3 * a.windows s.cfg) a.miso.length ∧ t.sel = false ∧
      t.frame = s.frame ∧ t.k = a.polls.length - 1 ∧ t.prev = pollsPrev 0 a.counts := by
  obtain ⟨hp, hb, hc⟩ := ha
  have hw : a.windows s.cfg = a.polls.length * frameWindows s.cfg 4 := by simp [Answer.windows, hb]
  have hm : a.miso = a.polls.flatten := by simp [Answer.miso, hb]
  rw [State.answers, Nat.zero_add, hw, hm] at h
  obtain ⟨t, ht, gt, et, ft, kt⟩ := pollLoop_answer hp hq h
  refine ⟨t, ?_, ?_, et, ft, kt⟩
  · rw [readWithTimeout, Op.upd_andThen, Op.bind_ok ht, if_neg (by omega), if_pos hc]; rfl
  · rw [hw, hm, Answer.length_flatten hp]
    simpa [Answer.trace, hb] using gt

/-- R89 to R92: a read-with-timeout whose polls end with a count within the capacity: it reads that count, and nothing
where the count is 0. -/
theorem readWithTimeout_fits {a : Answer} {cap T : Nat} (ha : a.fits cap T) (hcap : cap ≤ Config.maxRead) {s : State}
    (hq : s.quiet = true) (h : s.answers 0 a) :
    ∃ t, readWithTimeout cap T s = .ok a.bytes.length t ∧
      Got s t (a.trace s.cfg) (3 * a.windows s.cfg) a.miso.length ∧ t.sel = false ∧
      t.frame = Memory.store s.frame 0 a.bytes ∧ t.k = a.polls.length - 1 ∧ t.prev = pollsPrev 0 a.counts := by
  obtain ⟨hp, hb, hc⟩ := ha
  rw [State.answers, Nat.zero_add] at h
  have hsplit : readyFor (a.windows s.cfg) = readyFor (a.polls.length * frameWindows s.cfg 4) ++
      readyFor (if a.bytes = [] then 0 else frameWindows s.cfg a.bytes.length) := readyFor_add _ _
  rw [hsplit, Answer.miso] at h
  obtain ⟨t, ht, gt, et, ft, kt⟩ := pollLoop_answer hp hq
    ⟨(List.prefix_append _ _).trans h.1, (List.prefix_append _ _).trans h.2⟩
  have hlen := Answer.length_flatten hp
  by_cases hn : a.bytes = []
  · have h0 : a.count = 0 := by rw [← hb, hn]; rfl
    refine ⟨t, ?_, ?_, et, by rw [ft, hn]; rfl, kt⟩
    · rw [readWithTimeout, Op.upd_andThen, Op.bind_ok ht, if_pos h0, hn]; rfl
    · have hw : a.windows s.cfg = a.polls.length * frameWindows s.cfg 4 := by simp [Answer.windows, hn]
      have hm : a.miso = a.polls.flatten := by simp [Answer.miso, hn]
      rw [hw, hm, hlen]
      simpa [Answer.trace, hn] using gt
  · have hpos : 0 < a.bytes.length := List.length_pos_of_ne_nil hn
    have hcfg : t.cfg = s.cfg := gt.heard.world.cfg
    rw [if_neg hn] at h
    have s1 : t.supplied (readyFor (frameWindows t.cfg a.bytes.length)) a.bytes := by
      rw [hcfg]
      refine Got.supplied (es := pollsTrace s.cfg a.polls) (bs := readyFor (a.polls.length * frameWindows s.cfg 4))
        (ms := a.polls.flatten) ?_ h
      rw [length_readyFor, hlen]; exact gt
    obtain ⟨u, hu, ku, eu⟩ := readFrame_ok (show a.bytes.length ≤ Config.maxRead by omega) gt.quiet s1
    have g3 : Got u (u.storeFrame a.bytes) [] 0 0 :=
      Got.of_eq ku.quiet rfl rfl rfl rfl rfl rfl rfl rfl
        (fun hw => Memory.wf_store hw (Nat.zero_le _) (by omega)) id
    refine ⟨u.storeFrame a.bytes, ?_, ?_, eu, ?_, ?_, ?_⟩
    · rw [readWithTimeout, Op.upd_andThen, Op.bind_ok ht, ← hb, if_neg (by omega), if_neg (by omega), Op.bind_ok hu]
      rfl
    · have := (gt.trans (ku.got fun _ => eu)).trans g3
      rw [hcfg] at this
      have e1 : 3 * (a.polls.length * frameWindows s.cfg 4) + 3 * frameWindows s.cfg a.bytes.length + 0 =
          3 * a.windows s.cfg := by simp only [Answer.windows, if_neg hn]; ring
      have e2 : 4 * a.polls.length + a.bytes.length + 0 = a.miso.length := by simp [Answer.miso, hlen]
      rw [e1, e2] at this
      simpa [Answer.trace, hn] using this
    · show Memory.store u.frame 0 a.bytes = _
      rw [ku.ran.field State.frame fun _ => rfl, ft]
    · exact (ku.ran.field State.k fun _ => rfl).trans kt.1
    · exact (ku.ran.field State.prev fun _ => rfl).trans kt.2

end Sys2Proof.Machine
end

