-- ==== Sys2Proof/Laws/Body.lean ====
section
/-!
SUPPORT. What the run of an instruction can do in every environment (`Works`), and the pieces from which
`exec_cases` (Laws/Runs) says it once for the whole of `exec`. The statements over all environments are proved from it.
-/

namespace Sys2Proof.Machine

/-- The part of the invariant that every elementary step of a run keeps. -/
structure Sound (s : State) : Prop where
  registry : registryOk s.registry
  mem : Memory.wf Config.txBase (Config.rxBase + Config.bufSize) s.mem = true
  frame : Memory.wf 0 Config.maxRead s.frame = true
  counters : s.prev ≤ 511 ∧ s.r ≤ Config.retryMax ∧ s.level ≤ 1 ∧ s.acc ≤ Config.bufSize
  cap : ∀ n, s.seq = .received n → s.a.w2.toNat ≤ Config.bufSize

/-- What is left of a state when all that a run can change before its end is wiped out. -/
def State.kept (s : State) : State :=
  { s.stillRx with mem := [], registry := [], estate := .idle, r := 0, level := 0, acc := 0 }

/-- `t` comes from `s` in the run of an instruction, before its end. -/
structure Worked (s t : State) : Prop where
  world : World s t
  kept : t.kept = s.kept
  sound : Sound s → Sound t

theorem Worked.refl (s : State) : Worked s s := ⟨World.refl s, rfl, id⟩

theorem Worked.trans {s t u : State} (h : Worked s t) (h' : Worked t u) : Worked s u :=
  ⟨h.world.trans h'.world, h'.kept.trans h.kept, fun g => h'.sound (h.sound g)⟩

/-- A field that `kept` keeps is the same. -/
theorem Worked.field {α : Type} {s t : State} (h : Worked s t) (f : State → α) (hf : ∀ u, f u.kept = f u) :
    f t = f s := by
  rw [← hf t, h.kept, hf s]

theorem Heard.worked {s t : State} (h : Heard s t) : Worked s t := by
  refine ⟨h.world, ?_, fun g => ⟨?_, ?_, h.frame g.frame, ⟨h.prev g.counters.1, ?_, ?_, ?_⟩, ?_⟩⟩
  · unfold State.kept; rw [h.still]
  · rw [h.field State.registry fun _ => rfl]; exact g.registry
  · rw [h.field State.mem fun _ => rfl]; exact g.mem
  · rw [h.field State.r fun _ => rfl]; exact g.counters.2.1
  · rw [h.field State.level fun _ => rfl]; exact g.counters.2.2.1
  · rw [h.field State.acc fun _ => rfl]; exact g.counters.2.2.2
  · rw [h.field State.seq fun _ => rfl, h.field State.a fun _ => rfl]; exact g.cap

theorem Heard.target? {s t : State} (h : Heard s t) (tn : Byte) : t.target? tn = s.target? tn := by
  simp only [State.target?, h.field State.registry fun _ => rfl]

theorem Worked.operandByte {s t : State} (h : Worked s t) : t.operandByte = s.operandByte :=
  h.field State.operandByte fun _ => rfl

/-- A step of a run. -/
abbrev Works {α : Type} (s : State) (P : α → State → Prop) (E : ErrCode → State → Prop) (x : Res α) : Prop :=
  x.Sat (fun v t => Worked s t ∧ P v t) (fun c t => Worked s t ∧ E c t) (CutFrom s)

section
variable {α β : Type} {s : State} {P : α → State → Prop} {E : ErrCode → State → Prop}

theorem works_bind {x : Op α} {f : α → Op β} {Q : β → State → Prop} (h : Works s P E (x s))
    (hf : ∀ v t, Worked s t → P v t → Works t Q E (f v t)) : Works s Q E ((x.bind f) s) :=
  Op.bind_sat h fun v t ht =>
    (hf v t ht.1 ht.2).mono (fun _ _ g => ⟨ht.1.trans g.1, g.2⟩) (fun _ _ g => ⟨ht.1.trans g.1, g.2⟩)
      (fun _ g => g.of_world ht.1.world)

theorem works_upd {f : State → State} {y : Op α} (hf : Worked s (f s)) (h : Works (f s) P E (y (f s))) :
    Works s P E (((Op.upd f).andThen y) s) := by
  rw [Op.upd_andThen]
  exact h.mono (fun _ _ g => ⟨hf.trans g.1, g.2⟩) (fun _ _ g => ⟨hf.trans g.1, g.2⟩) (fun _ g => g.of_world hf.world)

theorem works_mono {Q : α → State → Prop} {F : ErrCode → State → Prop} {x : Res α} (h : Works s P E x)
    (hp : ∀ v t, Worked s t → P v t → Q v t) (he : ∀ c t, Worked s t → E c t → F c t) : Works s Q F x :=
  h.mono (fun v t g => ⟨g.1, hp v t g.1 g.2⟩) (fun c t g => ⟨g.1, he c t g.1 g.2⟩) (fun _ g => g)

theorem Exchanged.works {E : ErrCode → Prop} {x : Res α} (h : Exchanged s P E x) :
    Works s (fun v t => Heard s t ∧ P v t) (fun c t => Heard s t ∧ E c) x :=
  h.mono (fun _ _ g => ⟨g.1.worked, g⟩) (fun _ _ g => ⟨g.1.worked, g⟩) (fun _ g => g)

end

/-! ## Updates of a run -/

/-- An update of the fields that `kept` wipes out. -/
theorem Worked.of_kept {s t : State} (hk : t.kept = s.kept) (he : t.env = s.env) (hc : t.cfg = s.cfg)
    (hb : t.busy = s.busy) (hd : t.done = s.done) (ho : t.ovr = s.ovr) (hs : t.sel = s.sel)
    (hsound : Sound s → Sound t) : Worked s t :=
  ⟨World.of_env he hc hb hd ho hs, hk, hsound⟩

theorem State.storeRx_worked (s : State) {k : Nat} {bs : List Byte}
    (h : Sound s → k + bs.length ≤ Config.bufSize) : Worked s (s.storeRx k bs) :=
  Worked.of_kept rfl rfl rfl rfl rfl rfl rfl fun g =>
    ⟨g.registry, Memory.wf_store g.mem (by simp only [Config.txBase, Config.rxBase]; omega)
      (by have := h g; omega), g.frame, g.counters, g.cap⟩

theorem State.setEState_worked (s : State) (e : EState) : Worked s (s.setEState e) :=
  Worked.of_kept rfl rfl rfl rfl rfl rfl rfl fun g => ⟨g.registry, g.mem, g.frame, g.counters, g.cap⟩

theorem State.enterEngine_worked (s : State) : Worked s s.enterEngine :=
  Worked.of_kept rfl rfl rfl rfl rfl rfl rfl fun g =>
    ⟨g.registry, g.mem, g.frame, ⟨g.counters.1, Nat.zero_le _, Nat.zero_le _, Nat.zero_le _⟩, g.cap⟩

theorem State.retried_worked {s : State} (h : s.r ≠ Config.retryMax) : Worked s s.retried :=
  Worked.of_kept rfl rfl rfl rfl rfl rfl rfl fun g =>
    ⟨g.registry, g.mem, g.frame,
      ⟨g.counters.1, by show s.r + 1 ≤ _; have := g.counters.2.1; omega, g.counters.2.2⟩, g.cap⟩

theorem State.levelUp_worked (s : State) : Worked s s.levelUp :=
  Worked.of_kept rfl rfl rfl rfl rfl rfl rfl fun g =>
    ⟨g.registry, g.mem, g.frame, ⟨g.counters.1, g.counters.2.1, Nat.le_refl _, g.counters.2.2.2⟩, g.cap⟩

/-- R27: a change of a mark keeps the registry's numbers. -/
theorem registryOk_setMark {l : List Target} (h : registryOk l) (tn : Byte) (m : Bool) :
    registryOk (l.map fun e => if e.tn = tn then { e with mark := m } else e) := by
  have ht : (Target.tn ∘ fun e : Target => if e.tn = tn then { e with mark := m } else e) = Target.tn := by
    funext e; simp only [Function.comp_apply]; split <;> rfl
  refine ⟨fun e he => ?_, by rw [List.map_map, ht]; exact h.2⟩
  obtain ⟨x, hx, rfl⟩ := List.mem_map.mp he
  have := h.1 x hx
  split <;> exact this

theorem registryOk_filter {l : List Target} (h : registryOk l) (p : Target → Bool) : registryOk (l.filter p) :=
  ⟨fun e he => h.1 e (List.mem_filter.mp he).1, h.2.sublist (List.filter_sublist.map _)⟩

theorem State.removeTarget_worked (s : State) (tn : Byte) : Worked s (s.removeTarget tn) :=
  Worked.of_kept rfl rfl rfl rfl rfl rfl rfl fun g =>
    ⟨registryOk_filter g.registry _, g.mem, g.frame, g.counters, g.cap⟩

theorem State.takePart_worked {s : State} {e : Target} {n m : Nat} (hseq : s.seq = .received m)
    (h : s.acc + (n - 2) ≤ s.a.w2.toNat) : Worked s (s.takePart e n) :=
  Worked.of_kept rfl rfl rfl rfl rfl rfl rfl fun g => by
    have hc := g.cap m hseq
    refine ⟨registryOk_setMark g.registry _ _, Memory.wf_store g.mem (by simp only [Config.txBase, Config.rxBase]; omega)
      (by rw [State.length_frameBytes]; omega), g.frame, ⟨g.counters.1, g.counters.2.1, g.counters.2.2.1, ?_⟩, g.cap⟩
    show s.acc + (n - 2) ≤ _
    omega

theorem State.install_worked {s : State} (h1 : 1 ≤ s.operandByte.toNat) (h2 : s.operandByte.toNat ≤ Config.nTargets)
    (h : s.target? s.operandByte = none) : Worked s (s.install s.newTarget) :=
  Worked.of_kept rfl rfl rfl rfl rfl rfl rfl fun g => by
    refine ⟨⟨fun e he => ?_, ?_⟩, g.mem, g.frame, g.counters, g.cap⟩
    · rcases List.mem_append.mp he with he | he
      · exact g.registry.1 e he
      · rw [List.mem_singleton.mp he]
        simp only [Target.ok, State.newTarget, State.length_txBytes, decide_eq_true_eq]
        exact ⟨h1, h2, trivial, trivial⟩
    · show ((s.registry ++ [s.newTarget]).map Target.tn).Nodup
      rw [List.map_append, List.nodup_append]
      refine ⟨g.registry.2, by simp, fun a ha b hb hab => ?_⟩
      obtain ⟨e, he, rfl⟩ := List.mem_map.mp ha
      have := List.find?_eq_none.mp h e he
      rw [List.map_singleton, List.mem_singleton] at hb
      exact this (beq_iff_eq.mpr (hab.trans hb))

/-! ## What the run of each instruction can do -/

/-- How an instruction may change the registry (R27, R125, R136, R139). -/
def RegistryChange (i : Instr) (s t : State) : Prop :=
  match i with
  | .pcbI _ | .pcbIChained _ => t.registry = s.registry ∨ ∃ e, s.target? s.operandByte = some e ∧
      t.registry = s.registry.map fun x => if x.tn = e.tn then { x with mark := !e.mark } else x
  | .tgtInstall => t.registry = s.registry ∨ ∃ e, t.registry = s.registry ++ [e] ∧ e.mark = false
  | .tgtRemove | .probe => t.registry = s.registry ∨ t.registry = s.registry.filter fun x => x.tn != s.operandByte
  | .probeAll => t.registry.Sublist s.registry
  | _ => t.registry = s.registry

theorem RegistryChange.same {i : Instr} {s t : State} (h : t.registry = s.registry) : RegistryChange i s t := by
  cases i <;> first | exact h | exact .inl h | (show t.registry.Sublist s.registry; rw [h])

/-- What the run of an instruction leaves where a frame has been read for the engine to classify (R113). -/
def Turned (i : Instr) (s t : State) : Prop :=
  match i with
  | .transceive => s.engineRuns ∧ t.estate = .awaitingResponse ∧ t.r = 0 ∧ t.level = 0 ∧ t.acc = 0
  | _ => i.format = .pcb ∧ (s.estate = .awaitingResponse → t.estate = .awaitingResponse) ∧
      (s.level ≤ 1 → s.r + s.level < t.r + t.level) ∧ (s.acc ≤ s.a.w2.toNat → t.acc ≤ s.a.w2.toNat)

/-- `i` does not enter the engine (R107, R109, R111). -/
abbrev EngineOff (i : Instr) (s : State) : Prop := i = .transceive → ¬ s.engineRuns

/-- What the run of an instruction can leave where it raises no error. -/
def Outcome (i : Instr) (s : State) (v : After) (t : State) : Prop :=
  RegistryChange i s t ∧
  match v with
  | .done _ _ => (i.format = .cmd → t.estate = s.estate ∧ EngineOff i s) ∧ (i.format = .pcb → t.estate = .complete)
  | .failed c _ => i = .probeAll ∧ c.isTransport = true ∧ t.estate = s.estate ∧ t.mem = s.mem
  | .received n => n ≤ Config.maxRead ∧ Turned i s t

/-- An error detected before any bus activity and any change of state (R149). -/
def ErrCode.isEarly (c : ErrCode) : Bool := c.errClass == 1#4 || c.errClass == 3#4 || c.errClass == 4#4

/-- What the run of an instruction can leave where it raises an error. -/
def Failure (i : Instr) (s : State) (c : ErrCode) (t : State) : Prop :=
  c ∈ errorsOf i ∧ RegistryChange i s t ∧ (c.isEarly = true → t = s) ∧ (i.format = .pcb → t.estate = .failed) ∧
  (i.format = .cmd → t.mem = s.mem ∧
    (t.estate = s.estate ∧ EngineOff i s ∨ i = .transceive ∧ s.engineRuns ∧ t.estate = .failed))

/-- What the run of a command other than the engine's leaves, by frame exchange alone. -/
theorem Heard.outcome {i : Instr} {s t : State} (h : Heard s t) (hi : i.format = .cmd) (res res1 : Word)
    (ho : EngineOff i s := by nofun) : Outcome i s (.done res res1) t :=
  ⟨.same (h.field State.registry fun _ => rfl), fun _ => ⟨h.field State.estate fun _ => rfl, ho⟩,
    fun h => by rw [hi] at h; cases h⟩

theorem ErrCode.isTransport_iff {c : ErrCode} :
    c.isTransport = true ↔ c = .notReady ∨ c = .latchTimeout ∨ c = .idleTimeout := by
  cases c <;> decide

theorem ErrCode.not_early {c : ErrCode} (h : c.isTransport = true ∨ c = .rxOverflow) : c.isEarly ≠ true := by
  rcases h with h | h
  · rcases ErrCode.isTransport_iff.mp h with h | h | h <;> subst h <;> decide
  · subst h; decide

theorem Heard.failure {i : Instr} {s t : State} {c : ErrCode} (h : Heard s t) (hi : i.format = .cmd)
    (hc : c.isTransport = true ∨ c = .rxOverflow) (he : c ∈ errorsOf i) (ho : EngineOff i s := by nofun) :
    Failure i s c t :=
  ⟨he, .same (h.field State.registry fun _ => rfl), fun h => absurd h (ErrCode.not_early hc),
    fun h => (by rw [hi] at h; cases h),
    fun _ => ⟨h.field State.mem fun _ => rfl, .inl ⟨h.field State.estate fun _ => rfl, ho⟩⟩⟩

/-- The transport errors are among those of every command that uses the bus. -/
theorem ErrCode.mem_of_transport {i : Instr} {c : ErrCode} (h : c.isTransport = true)
    (hi : ErrCode.notReady ∈ errorsOf i ∧ ErrCode.latchTimeout ∈ errorsOf i ∧ ErrCode.idleTimeout ∈ errorsOf i) :
    c ∈ errorsOf i := by
  rcases ErrCode.isTransport_iff.mp h with h | h | h <;> subst h
  · exact hi.1
  · exact hi.2.1
  · exact hi.2.2

/-- A run that fails at once. -/
theorem works_at_once {i : Instr} {s : State} {c : ErrCode} (hi : i.format = .cmd) (he : c ∈ errorsOf i)
    (ho : EngineOff i s := by nofun) : Works (α := After) s (Outcome i s) (Failure i s) (.err c s) :=
  ⟨Worked.refl s, he, .same rfl, fun _ => rfl, fun h => (by rw [hi] at h; cases h), fun _ => ⟨rfl, .inl ⟨rfl, ho⟩⟩⟩

/-- A run of frame exchange, then a completion. -/
theorem works_exchange {i : Instr} {s : State} {α : Type} {x : Op α} {P : α → State → Prop} {E : ErrCode → Prop}
    {f : α → Op After} (hi : i.format = .cmd) (hx : Exchanged s P E (x s))
    (hE : ∀ c, E c → (c.isTransport = true ∨ c = .rxOverflow) ∧ c ∈ errorsOf i)
    (hf : ∀ v t, Heard s t → P v t → Works t (Outcome i s) (Failure i s) (f v t)) (ho : EngineOff i s := by nofun) :
    Works s (Outcome i s) (Failure i s) ((x.bind f) s) :=
  works_bind (works_mono hx.works (fun _ _ _ h => h) fun _ _ _ h => h.1.failure hi (hE _ h.2).1 (hE _ h.2).2 ho)
    fun v t _ h => hf v t h.1 h.2

theorem works_crc {i : Instr} (hi : i = .crcA ∨ i = .crcB) (f : List Byte → Word) {s : State} :
    Works s (Outcome i s) (Failure i s) ((crcInput.bind fun d => Op.ret (.done (f d) 0#32)) s) := by
  have hf : i.format = .cmd := by rcases hi with h | h <;> subst h <;> rfl
  have ho : EngineOff i s := by rcases hi with h | h <;> subst h <;> nofun
  rw [Op.bind, crcInput]
  by_cases h : s.a.w0.toNat > Config.bufSize
  · rw [if_pos h]
    exact works_at_once hf (by rcases hi with h | h <;> subst h <;> decide) ho
  · rw [if_neg h]
    exact ⟨Worked.refl s, (Heard.refl s).outcome hf _ _ ho⟩

/-- A transport step that ends a command. -/
theorem works_transport {i : Instr} {s : State} {α : Type} {x : Op α} {P : α → State → Prop} {f : α → Op After}
    (hi : i.format = .cmd)
    (he : ErrCode.notReady ∈ errorsOf i ∧ ErrCode.latchTimeout ∈ errorsOf i ∧ ErrCode.idleTimeout ∈ errorsOf i)
    (hx : Transported s P (x s)) (hf : ∀ v t, Heard s t → P v t → Works t (Outcome i s) (Failure i s) (f v t))
    (ho : EngineOff i s := by nofun) : Works s (Outcome i s) (Failure i s) ((x.bind f) s) :=
  works_exchange hi (Exchanged.of_transported (E := fun c => c.isTransport = true) hx fun _ h => h)
    (fun _ h => ⟨.inl h, ErrCode.mem_of_transport h he⟩) hf ho

/-- The completion of a command after frame exchange, its bytes stored in `RXBUF`. -/
theorem works_store {i : Instr} {s t : State} (hi : i.format = .cmd) (h : Heard s t) {bs : List Byte}
    (hb : bs.length ≤ Config.bufSize) (res res1 : Word) (ho : EngineOff i s := by nofun) :
    Works t (Outcome i s) (Failure i s)
      (((Op.upd (State.storeRx 0 bs)).andThen (Op.ret (.done res res1))) t) :=
  ⟨State.storeRx_worked t fun _ => by omega, .same (h.field State.registry fun _ => rfl),
    fun _ => ⟨h.field State.estate fun _ => rfl, ho⟩, fun h => by rw [hi] at h; cases h⟩

theorem deliverFrame_works {i : Instr} {s t : State} (hi : i.format = .cmd) (h : Heard s t) {n : Nat}
    (hn : n ≤ Config.bufSize) (ho : EngineOff i s := by nofun) : Works t (Outcome i s) (Failure i s) (deliverFrame n t) :=
  ⟨State.storeRx_worked t fun _ => by rw [State.length_frameBytes]; omega,
    .same (h.field State.registry fun _ => rfl), fun _ => ⟨h.field State.estate fun _ => rfl, ho⟩,
    fun h => by rw [hi] at h; cases h⟩

theorem works_regWrite {i : Instr} (hi : i = .regWr ∨ i = .regOr ∨ i = .regAnd) (op : State → Byte) {s : State}
    (hs : s.steady) : Works s (Outcome i s) (Failure i s) (regWriteCommand op s) := by
  have hf : i.format = .cmd := by rcases hi with h | h | h <;> subst h <;> rfl
  have ho : EngineOff i s := by rcases hi with h | h | h <;> subst h <;> nofun
  rw [regWriteCommand]
  exact works_transport hf (by rcases hi with h | h | h <;> subst h <;> decide) (regWrite_sat _ _ _ hs)
    (fun _ t h _ => ⟨Worked.refl t, h.outcome hf _ _ ho⟩) ho

end Sys2Proof.Machine
end

