-- ==== Sys2Proof/Laws/Effect.lean ====
section
/-!
SUPPORT. The exact effect of sequencer steps with a quiet host, as equations: `Makes` says that a step ends with a value
in the state a given update and a given bus trace leave. It is what the statements of the instructions' results are
proved from.
-/

namespace Sys2Proof.Machine

/-- The step `x` from `s` ends with `v`, in the state that the update `f` and the bus events `es` leave, having taken
`nb` outcomes of waits and `nm` MISO bytes. -/
def Makes {α : Type} (x : Op α) (s : State) (v : α) (f : State → State) (es : List BusEvent) (nb nm : Nat) : Prop :=
  ∃ e, x s = .ok v ((f s).ranBus es e) ∧ s.env.After e es nb nm

/-- The step `x` from `s` raises `c`, in the state that the update `f` and the bus events `es` leave. -/
def Raises {α : Type} (x : Op α) (s : State) (c : ErrCode) (f : State → State) (es : List BusEvent) (nb nm : Nat) :
    Prop :=
  ∃ e, x s = .err c ((f s).ranBus es e) ∧ s.env.After e es nb nm

theorem Env.After.refl (e : Env) : e.After e [] 0 0 := ⟨rfl, rfl, rfl, rfl, by simp, Nat.le_refl _, rfl, rfl⟩

theorem Env.After.trans {e e' e'' : Env} {es es' : List BusEvent} {nb nb' nm nm' : Nat} (h : e.After e' es nb nm)
    (h' : e'.After e'' es' nb' nm') : e.After e'' (es ++ es') (nb + nb') (nm + nm') :=
  ⟨h'.host.trans h.host, h'.replies.trans h.replies, by rw [h'.busy, h.busy, List.drop_drop],
    by rw [h'.miso, h.miso, List.drop_drop], by rw [h'.bus, h.bus, List.append_assoc], h.time.trans h'.time,
    h'.rxDrawn.trans h.rxDrawn, h'.epoch.trans h.epoch⟩

theorem State.ranBus_ranBus (es es' : List BusEvent) (e e' : Env) (s : State) :
    (s.ranBus es e).ranBus es' e' = s.ranBus (es ++ es') e' := by
  simp only [State.ranBus, lastDriven_append]

theorem Env.After.quiet {s : State} {e : Env} {es : List BusEvent} {nb nm : Nat} (h : s.env.After e es nb nm)
    (hq : s.quiet = true) {t : State} (ht : t.env = e) : t.quiet = true :=
  (State.quiet_congr (by rw [ht, h.host])).trans hq

/-- What is left of the supply after a part of it has been taken. -/
theorem Env.After.supplied {s t : State} {e : Env} {es : List BusEvent} {bs bs' : List Bool} {ms ms' : List Byte}
    (h : s.env.After e es bs.length ms.length) (hs : s.supplied (bs ++ bs') (ms ++ ms')) (ht : t.env = e) :
    t.supplied bs' ms' := by
  obtain ⟨⟨b, hb⟩, ⟨m, hm⟩⟩ := hs
  refine ⟨⟨b, ?_⟩, ⟨m, ?_⟩⟩
  · rw [ht, h.busy, ← hb, List.append_assoc, List.drop_left]
  · rw [ht, h.miso, ← hm, List.append_assoc, List.drop_left]

theorem Got.after {s t : State} {es : List BusEvent} {nb nm : Nat} (h : Got s t es nb nm) (hq : s.quiet = true) :
    s.env.After t.env es nb nm :=
  let c := h.heard.world.calm hq
  ⟨c.1, c.2.2.2.1, h.busy, h.miso, h.bus, h.heard.world.time, c.2.2.2.2, h.heard.world.epoch⟩

theorem Took.after {s t : State} {es : List BusEvent} {nb nm : Nat} (h : Took s t es nb nm) (hq : s.quiet = true) :
    s.env.After t.env es nb nm :=
  let c := h.ran.calm hq
  ⟨c.1, c.2.2.2.1, h.busy, h.miso, h.bus, h.ran.time, c.2.2.2.2, h.ran.epoch⟩

theorem Took.eq {s t : State} {es : List BusEvent} {nb nm : Nat} (h : Took s t es nb nm) (hq : s.quiet = true)
    (hsel : t.sel = false) : t = s.ranBus es t.env := by
  have c := h.ran.calm hq
  have := h.ran.eq
  rw [this]
  simp only [State.ranBus, c.2.1, c.2.2.1, hsel, h.mosi]

theorem Got.eq {s t : State} {es : List BusEvent} {nb nm : Nat} (h : Got s t es nb nm) (hq : s.quiet = true)
    (hsel : t.sel = false) {a : Answer} (hf : t.frame = Memory.store s.frame 0 a.bytes) (hk : t.k = a.polls.length - 1)
    (hp : t.prev = pollsPrev 0 a.counts) : t = (s.heard a).ranBus es t.env := by
  have c := h.heard.world.calm hq
  have := h.heard.eq
  rw [this]
  simp only [State.ranBus, State.heard, State.storeFrame, c.2.1, c.2.2.1, hsel, h.mosi, hf, hk, hp]

section
variable {α β : Type} {x : Op α} {s : State} {v : α} {f : State → State} {es es' : List BusEvent} {nb nb' nm nm' : Nat}

theorem Makes.of_took (h : ∃ t, x s = .ok v t ∧ Took s t es nb nm ∧ t.sel = false) (hq : s.quiet = true) :
    Makes x s v id es nb nm := by
  obtain ⟨t, ht, hk, hsel⟩ := h
  exact ⟨t.env, by rw [ht]; exact congrArg _ (hk.eq hq hsel), hk.after hq⟩

theorem Raises.of_took {c : ErrCode} (h : ∃ t, x s = .err c t ∧ Took s t es nb nm ∧ t.sel = false)
    (hq : s.quiet = true) : Raises x s c id es nb nm := by
  obtain ⟨t, ht, hk, hsel⟩ := h
  exact ⟨t.env, by rw [ht]; exact congrArg _ (hk.eq hq hsel), hk.after hq⟩

/-- A step and then another, the second judged from the state the first has left. -/
theorem Makes.bind {y : α → Op β} {w : β} {g : State → State} (h : Makes x s v f es nb nm)
    (hy : ∀ e, s.env.After e es nb nm → Makes (y v) ((f s).ranBus es e) w g es' nb' nm')
    (hg : ∀ (e e' : Env), (g ((f s).ranBus es e)).ranBus es' e' = ((g (f s)).ranBus es e).ranBus es' e') :
    Makes (x.bind y) s w (fun u => g (f u)) (es ++ es') (nb + nb') (nm + nm') := by
  obtain ⟨e, hx, he⟩ := h
  obtain ⟨e', hy, he'⟩ := hy e he
  refine ⟨e', ?_, he.trans he'⟩
  rw [Op.bind_ok hx, hy, hg, State.ranBus_ranBus]

theorem Makes.bind_raises {y : α → Op β} {c : ErrCode} {g : State → State} (h : Makes x s v f es nb nm)
    (hy : ∀ e, s.env.After e es nb nm → Raises (y v) ((f s).ranBus es e) c g es' nb' nm')
    (hg : ∀ (e e' : Env), (g ((f s).ranBus es e)).ranBus es' e' = ((g (f s)).ranBus es e).ranBus es' e') :
    Raises (x.bind y) s c (fun u => g (f u)) (es ++ es') (nb + nb') (nm + nm') := by
  obtain ⟨e, hx, he⟩ := h
  obtain ⟨e', hy, he'⟩ := hy e he
  refine ⟨e', ?_, he.trans he'⟩
  rw [Op.bind_ok hx, hy, hg, State.ranBus_ranBus]

/-- A step that fails, whatever was to come after it. -/
theorem Raises.bind {c : ErrCode} (h : Raises x s c f es nb nm) (y : α → Op β) : Raises (x.bind y) s c f es nb nm :=
  h.imp fun _ g => ⟨Op.bind_err g.1, g.2⟩

end

/-! ## The end of a run -/

theorem command_done {body : Op After} {s t : State} {res res1 : Word} (hq : s.quiet = true)
    (h : body s = .ok (.done res res1) t) (ht : t.quiet = true) :
    command body s = .next (t.complete .ok res res1) := by
  rw [command, runCommand_quiet hq (by rw [h]; exact ht), h]

theorem command_failed {body : Op After} {s t : State} {c : ErrCode} {res1 : Word} (hq : s.quiet = true)
    (h : body s = .ok (.failed c res1) t) (ht : t.quiet = true) :
    command body s = .next (t.completeError c res1) := by
  rw [command, runCommand_quiet hq (by rw [h]; exact ht), h]

theorem command_received {body : Op After} {s t : State} {n : Nat} (hq : s.quiet = true)
    (h : body s = .ok (.received n) t) (ht : t.quiet = true) : command body s = .next (t.toReceived n) := by
  rw [command, runCommand_quiet hq (by rw [h]; exact ht), h]

theorem command_err {body : Op After} {s t : State} {c : ErrCode} (hq : s.quiet = true)
    (h : body s = .err c t) (ht : t.quiet = true) : command body s = .next (t.completeError c 0#32) := by
  rw [command, runCommand_quiet hq (by rw [h]; exact ht), h]

/-! ## The steps of the transport and of frame exchange -/

theorem spiFrame_makes (w rd : List Byte) {s : State} (hq : s.quiet = true)
    (h : s.supplied (readyFor (frameWindows s.cfg rd.length)) rd) :
    Makes (spiFrame w rd.length) s rd id (frameTrace s.cfg w rd) (3 * frameWindows s.cfg rd.length) rd.length :=
  Makes.of_took (spiFrame_ok w rd hq h) hq

/-- R75, R76: a transport frame that fails. -/
theorem spiFrame_raises {w rd : List Byte} {s : State} {f : FrameFailure} (hf : f ∈ frameFailures s.cfg w rd)
    (hq : s.quiet = true) (hsel : s.sel = false) (h : s.supplied f.busy f.miso) :
    Raises (spiFrame w rd.length) s f.code id f.bus f.busy.length f.miso.length :=
  Raises.of_took (spiFrame_fails hf hq hsel h) hq

theorem regRead_raises (addr : Byte) {rd : List Byte} (hl : rd.length = 4) {s : State} {f : FrameFailure}
    (hf : f ∈ frameFailures s.cfg (regReadBytes s.cfg addr) rd) (hq : s.quiet = true) (hsel : s.sel = false)
    (h : s.supplied f.busy f.miso) : Raises (regRead addr) s f.code id f.bus f.busy.length f.miso.length :=
  (hl ▸ spiFrame_raises hf hq hsel h :
    Raises (spiFrame (regReadBytes s.cfg addr) 4) s f.code id f.bus f.busy.length f.miso.length)

theorem sendFrame_raises {data : List Byte} {vb : Nat} (hn : data.length ≤ Config.maxSend) (hv : 1 ≤ vb ∧ vb ≤ 8)
    {s : State} {f : FrameFailure} (hf : f ∈ frameFailures s.cfg ([s.cfg.opSendData, validBitsCode vb] ++ data) [])
    (hq : s.quiet = true) (hsel : s.sel = false) (h : s.supplied f.busy f.miso) :
    Raises (sendFrame data vb) s f.code id f.bus f.busy.length f.miso.length := by
  obtain ⟨e, hx, he⟩ := spiFrame_raises hf hq hsel h
  refine ⟨e, ?_, he⟩
  rw [sendFrame, if_neg (by omega), if_neg (by omega), Op.get_bind]
  exact Op.andThen_err hx

theorem readFrame_raises {n : Nat} (hn : n ≤ Config.maxRead) {rd : List Byte} (hl : rd.length = n) {s : State}
    {f : FrameFailure} (hf : f ∈ frameFailures s.cfg (readFrameBytes s.cfg) rd) (hq : s.quiet = true)
    (hsel : s.sel = false) (h : s.supplied f.busy f.miso) :
    Raises (readFrame n) s f.code id f.bus f.busy.length f.miso.length := by
  obtain ⟨e, hx, he⟩ := spiFrame_raises hf hq hsel h
  rw [hl] at hx
  exact ⟨e, by rw [readFrame, if_neg (by omega), Op.get_bind]; exact hx, he⟩

theorem getRxStatus_raises {st : List Byte} (hl : st.length = 4) {s : State} {f : FrameFailure}
    (hf : f ∈ frameFailures s.cfg (regReadBytes s.cfg s.cfg.addrRxStatus) st) (hq : s.quiet = true)
    (hsel : s.sel = false) (h : s.supplied f.busy f.miso) :
    Raises getRxStatus s f.code id f.bus f.busy.length f.miso.length :=
  (regRead_raises s.cfg.addrRxStatus hl hf hq hsel h).bind fun bytes => Op.ret (rxStatusOf bytes)

/-- A read-with-timeout whose first poll fails (R89). -/
theorem readWithTimeout_fails (cap T : Nat) {st : List Byte} (hl : st.length = 4) {s : State} {f : FrameFailure}
    (hf : f ∈ frameFailures s.cfg (regReadBytes s.cfg s.cfg.addrRxStatus) st) (hq : s.quiet = true)
    (hsel : s.sel = false) (h : s.supplied f.busy f.miso) :
    Raises (readWithTimeout cap T) s f.code State.pollStart f.bus f.busy.length f.miso.length := by
  obtain ⟨e, hx, he⟩ := getRxStatus_raises (s := s.pollStart) hl hf hq hsel h
  refine ⟨e, ?_, he⟩
  rw [readWithTimeout, Op.upd_andThen]
  refine Op.bind_err ?_
  cases T <;> exact Op.bind_err hx

theorem regRead_makes (addr : Byte) {rd : List Byte} (hl : rd.length = 4) {s : State} (hq : s.quiet = true)
    (h : s.supplied (readyFor (frameWindows s.cfg 4)) rd) :
    Makes (regRead addr) s rd id (frameTrace s.cfg (regReadBytes s.cfg addr) rd) (3 * frameWindows s.cfg 4) 4 :=
  Makes.of_took (regRead_ok addr hl hq h) hq

theorem regWrite_makes (op addr : Byte) (v : Word) {s : State} (hq : s.quiet = true) (h : s.supplied (readyFor 1) []) :
    Makes (regWrite op addr v) s () id (windowTrace s.cfg.settleUs ([op, addr] ++ bytesLe32 v) []) 3 0 :=
  Makes.of_took (regWrite_ok op addr v hq h) hq

theorem sendFrame_makes {data : List Byte} {vb : Nat} (hn : data.length ≤ Config.maxSend) (hv : 1 ≤ vb ∧ vb ≤ 8)
    {s : State} (hq : s.quiet = true) (h : s.supplied (readyFor 1) []) :
    Makes (sendFrame data vb) s () id
      (windowTrace s.cfg.settleUs ([s.cfg.opSendData, validBitsCode vb] ++ data) []) 3 0 :=
  Makes.of_took (sendFrame_ok hn hv hq h) hq

theorem readFrame_makes {rd : List Byte} (hn : rd.length ≤ Config.maxRead) {s : State} (hq : s.quiet = true)
    (h : s.supplied (readyFor (frameWindows s.cfg rd.length)) rd) :
    Makes (readFrame rd.length) s rd id (frameTrace s.cfg (readFrameBytes s.cfg) rd)
      (3 * frameWindows s.cfg rd.length) rd.length :=
  Makes.of_took (readFrame_ok hn hq h) hq

theorem getRxStatus_makes {st : List Byte} (hl : st.length = 4) {s : State} (hq : s.quiet = true)
    (h : s.supplied (readyFor (frameWindows s.cfg 4)) st) :
    Makes getRxStatus s (rxStatusOf st) id (pollTrace s.cfg st) (3 * frameWindows s.cfg 4) 4 :=
  Makes.of_took (getRxStatus_ok hl hq h) hq

theorem readWithTimeout_makes {a : Answer} {cap T : Nat} (ha : a.fits cap T) (hcap : cap ≤ Config.maxRead) {s : State}
    (hq : s.quiet = true) (h : s.answers 0 a) :
    Makes (readWithTimeout cap T) s a.bytes.length (State.heard a) (a.trace s.cfg) (3 * a.windows s.cfg)
      a.miso.length := by
  obtain ⟨t, ht, g, hsel, hf, hk, hp⟩ := readWithTimeout_fits ha hcap hq h
  exact ⟨t.env, by rw [ht]; exact congrArg _ (g.eq hq hsel hf hk hp), g.after hq⟩

theorem readWithTimeout_raises {a : Answer} {cap T : Nat} (ha : a.tooLong cap T) {s : State}
    (hq : s.quiet = true) (h : s.answers 0 a) :
    Raises (readWithTimeout cap T) s .rxOverflow (State.heard a) (a.trace s.cfg) (3 * a.windows s.cfg)
      a.miso.length := by
  obtain ⟨t, ht, g, hsel, hf, hk, hp⟩ := readWithTimeout_tooLong ha hq h
  exact ⟨t.env, by rw [ht]; exact congrArg _ (g.eq hq hsel (by rw [hf, ha.2.1]; rfl) hk hp), g.after hq⟩

/-- The transport frame of a card frame sent is one select window. -/
theorem sendTrace_eq (cfg : Config.Params) (data : List Byte) :
    sendTrace cfg data = windowTrace cfg.settleUs ([cfg.opSendData, 0#8] ++ data) [] := by
  simp [sendTrace, frameTrace, sendBytesOf]

/-- A card frame with all bits of its last byte valid (R114). -/
theorem send8_makes {data : List Byte} (hn : data.length ≤ Config.maxSend) {s : State} (hq : s.quiet = true)
    (h : s.supplied (readyFor 1) []) : Makes (sendFrame data 8) s () id (sendTrace s.cfg data) 3 0 := by
  rw [sendTrace_eq]; exact sendFrame_makes hn (by omega) hq h

/-- What is left of the supply of a window without read bytes and an answer, after the window. -/
theorem State.answers.rest {s t : State} {a : Answer} {n : Nat} {e : Env} {es : List BusEvent}
    (h : s.answers (n + 1) a) (he : s.env.After e es 3 0) (ht : t.env = e) (hc : t.cfg = s.cfg) : t.answers n a := by
  have h1 : readyFor (n + 1 + a.windows s.cfg) = readyFor 1 ++ readyFor (n + a.windows s.cfg) := by
    rw [← readyFor_add]; congr 1; omega
  rw [State.answers, h1] at h
  rw [State.answers, hc]
  exact Env.After.supplied (bs := readyFor 1) (ms := []) he h ht

theorem State.answers.first {s : State} {a : Answer} {n : Nat} (h : s.answers (n + 1) a) :
    s.supplied (readyFor 1) [] := by
  have h1 : readyFor (n + 1 + a.windows s.cfg) = readyFor 1 ++ readyFor (n + a.windows s.cfg) := by
    rw [← readyFor_add]; congr 1; omega
  rw [State.answers, h1] at h
  exact ⟨(List.prefix_append _ _).trans h.1, List.nil_prefix⟩

/-- A card frame sent and the answer read (R113), then a further step, where the answer fits. -/
theorem sendRead_fits {α : Type} (f : Nat → Op α) {data : List Byte} (hn : data.length ≤ Config.maxSend) {a : Answer}
    {cap T : Nat} (ha : a.fits cap T) (hc : cap ≤ Config.maxRead) {s : State} (hq : s.quiet = true)
    (h : s.answers 1 a) :
    ∃ e, s.env.After e (sendTrace s.cfg data ++ a.trace s.cfg) (3 + 3 * a.windows s.cfg) a.miso.length ∧
      ((sendFrame data 8).andThen ((readWithTimeout cap T).bind f)) s =
        f a.bytes.length ((s.heard a).ranBus (sendTrace s.cfg data ++ a.trace s.cfg) e) := by
  obtain ⟨e, hx, he⟩ := send8_makes hn hq h.first
  obtain ⟨e', hx', he'⟩ := readWithTimeout_makes ha hc (he.quiet hq rfl)
    (h.rest he rfl rfl : State.answers (s.ranBus (sendTrace s.cfg data) e) 0 a)
  refine ⟨e', by have := he.trans he'; rwa [Nat.zero_add] at this, ?_⟩
  rw [Op.andThen_ok hx]
  show ((readWithTimeout cap T).bind f) (s.ranBus (sendTrace s.cfg data) e) = _
  rw [Op.bind_ok hx']
  exact congrArg _ (State.ranBus_ranBus _ _ _ _ (s.heard a))

/-- A card frame sent and the answer read (R113), where the answer's count exceeds the capacity. -/
theorem sendRead_tooLong {α : Type} (f : Nat → Op α) {data : List Byte} (hn : data.length ≤ Config.maxSend)
    {a : Answer} {cap T : Nat} (ha : a.tooLong cap T) {s : State} (hq : s.quiet = true) (h : s.answers 1 a) :
    ∃ e, s.env.After e (sendTrace s.cfg data ++ a.trace s.cfg) (3 + 3 * a.windows s.cfg) a.miso.length ∧
      ((sendFrame data 8).andThen ((readWithTimeout cap T).bind f)) s =
        .err .rxOverflow ((s.heard a).ranBus (sendTrace s.cfg data ++ a.trace s.cfg) e) := by
  obtain ⟨e, hx, he⟩ := send8_makes hn hq h.first
  obtain ⟨e', hx', he'⟩ := readWithTimeout_raises ha (he.quiet hq rfl)
    (h.rest he rfl rfl : State.answers (s.ranBus (sendTrace s.cfg data) e) 0 a)
  refine ⟨e', by have := he.trans he'; rwa [Nat.zero_add] at this, ?_⟩
  rw [Op.andThen_ok hx]
  show ((readWithTimeout cap T).bind f) (s.ranBus (sendTrace s.cfg data) e) = _
  rw [Op.bind_err hx']
  exact congrArg _ (State.ranBus_ranBus _ _ _ _ (s.heard a))

/-- A card frame whose ready wait times out (R68). -/
theorem send8_notReady {data : List Byte} (hn : data.length ≤ Config.maxSend) {s : State} (hq : s.quiet = true)
    (hsel : s.sel = false) (h : s.supplied [false] []) :
    Raises (sendFrame data 8) s .notReady id notReadyTrace 1 0 := by
  obtain ⟨t, ht, k, hs⟩ := spiWindow_notReady ([s.cfg.opSendData, validBitsCode 8] ++ data) 0 hq h
  refine Raises.of_took ⟨t, ?_, k, hs.trans hsel⟩ hq
  rw [sendFrame, if_neg (by omega), if_neg (by omega), Op.get_bind, Op.andThen_err]
  rw [spiFrame, Op.get_bind, if_pos (.inr rfl)]
  exact ht

/-! ## What the bytes of the buffers read as -/

theorem sameBytes.of {s t : State} (hm : t.mem = s.mem) (hf : t.frame = s.frame) (he : t.env.epoch = s.env.epoch) :
    sameBytes s t :=
  ⟨fun off => by simp only [State.memByte, hm, he], fun k => by simp only [State.frameByte, hf, he]⟩

theorem rxStored.of {s t : State} {k : Nat} {bs : List Byte} (hm : t.mem = (s.storeRx k bs).mem)
    (he : t.env.epoch = s.env.epoch) : rxStored s t k bs := by
  have h : ∀ off, t.memByte off = (s.storeRx k bs).memByte off := fun off => by
    simp only [State.memByte, hm, he]; rfl
  refine ⟨fun i hi => ?_, fun off ho => ?_⟩
  · rw [State.rxByte, h, State.memByte_storeRx, dif_pos (by omega)]
    congr 1; omega
  · rw [h, State.memByte_storeRx, dif_neg ho]

theorem frameStored.of {s t : State} {bs : List Byte} (hf : t.frame = (s.storeFrame bs).frame)
    (he : t.env.epoch = s.env.epoch) : frameStored s t bs := by
  have h : ∀ k, t.frameByte k = (s.storeFrame bs).frameByte k := fun k => by
    simp only [State.frameByte, hf, he]; rfl
  refine ⟨fun i hi => ?_, fun k hk => ?_⟩
  · rw [h, State.frameByte_storeFrame, dif_pos hi]
  · rw [h, State.frameByte_storeFrame, dif_neg (by omega)]

/-- The bytes of a frame just read. -/
theorem frameStored.bytes {s t : State} {bs : List Byte} (h : frameStored s t bs) {i n : Nat}
    (hn : i + n ≤ bs.length) : t.frameBytes i n = (bs.drop i).take n := by
  apply List.ext_getElem
  · simp [State.frameBytes]; omega
  · intro j h1 h2
    simp only [State.length_frameBytes] at h1
    simp only [State.frameBytes, List.getElem_map, List.getElem_range, List.getElem_take, List.getElem_drop]
    exact h.1 (i + j) (by omega)

end Sys2Proof.Machine
end

