-- ==== Sys2Proof/Laws/Engine.lean ====
section
/-!
SUPPORT. The exact effect of the block engine's steps with a quiet host: the entry, one turn of the loop, what a
mark toggle does to the registry, and the probe of one entry.
-/

namespace Sys2Proof.Machine

theorem inEngine_ok {α : Type} {x : Op α} {s t : State} {v : α} (h : x s = .ok v t) : inEngine x s = .ok v t := by
  rw [inEngine, Op.catching, h]

theorem inEngine_err {α : Type} {x : Op α} {s t : State} {c : ErrCode} (h : x s = .err c t) :
    inEngine x s = .err c (t.setEState .failed) := by
  rw [inEngine, Op.catching, h]; rfl

/-- An entry found by its number has that number. -/
theorem State.target?_tn {s : State} {tn : Byte} {e : Target} (h : s.target? tn = some e) : e.tn = tn := by
  have := List.find?_some h
  simpa using this

theorem State.target?_mem {s : State} {tn : Byte} {e : Target} (h : s.target? tn = some e) : e ∈ s.registry :=
  List.mem_of_find?_eq_some h

/-- R107 to R111: a `TRANSCEIVE` that passes the checks enters the engine. -/
theorem transceiveBody_engine {s : State} {e : Target} (ht : s.operandByte ≠ 0#8)
    (h1 : s.a.w1.toNat ≤ Config.maxTxPayload) (h2 : s.a.w2.toNat ≤ Config.bufSize)
    (he : s.target? s.operandByte = some e) : transceiveBody s = inEngine (engineEnter e s.a.w1.toNat) s := by
  rw [transceiveBody]
  rw [if_neg (by omega), if_neg (fun h => ht h.1), if_neg (fun h => by omega), if_neg ht, he]

/-- R109, R110: a `TRANSCEIVE` to target 0 that passes the checks. -/
theorem transceiveBody_typeA {s : State} (ht : s.operandByte = 0#8) (h1 : s.a.w1.toNat ≤ Config.maxSend)
    (h2 : s.a.w2.toNat ≤ Config.bufSize) :
    transceiveBody s = typeA s.a.w1.toNat s.a.w2.toNat s.a.w3.toNat s := by
  rw [transceiveBody]
  rw [if_neg (by omega), if_neg (fun h => by omega), if_neg (fun h => h.1 ht), if_pos ht]

/-- The frame just read into `FRAME` is copied to `RXBUF` (R99, R109). -/
theorem deliverFrame_heard (a : Answer) (s : State) (es : List BusEvent) {e : Env} (he : e.epoch = s.env.epoch) :
    deliverFrame a.bytes.length ((s.heard a).ranBus es e) =
      .ok (.done (BitVec.ofNat 32 a.bytes.length) 0#32) (((s.heard a).storeRx 0 a.bytes).ranBus es e) := by
  have h : frameStored s ((s.heard a).ranBus es e) a.bytes := frameStored.of rfl he
  rw [deliverFrame, Op.upd_andThen, h.bytes (by omega), List.drop_zero, List.take_length]
  rfl

/-- One turn of the engine's loop, with the exchange it is in. -/
theorem engineTurn_eq {s : State} {e : Target} {n : Nat} (hs : s.seq = .received n)
    (he : s.target? s.operandByte = some e) (f : Target → Nat → Op After) :
    engineTurn f s = command (inEngine (classified e n (f e n))) s := by
  have : s.exchange? = some (e, n) := by rw [State.exchange?, hs]; dsimp only; rw [he]; rfl
  rw [engineTurn, this]

/-- R62: a frame of two bytes or more, from the target, is classified by its control byte. -/
theorem classified_own {s : State} {e : Target} {n : Nat} (hn : 2 ≤ n) (hf : s.frameByte 1 = e.tn) (x : Op After) :
    classified e n x s = x s := by
  rw [classified, if_neg (by omega), if_neg (by omega), if_neg (fun h => h hf)]

theorem acceptPart_ok {s : State} {e : Target} {n : Nat} (h : s.acc + (n - 2) ≤ s.a.w2.toNat) :
    acceptPart e n s = .ok () (s.takePart e n) := by
  rw [acceptPart, if_neg (by omega)]

theorem acceptPart_err {s : State} {e : Target} {n : Nat} (h : s.a.w2.toNat < s.acc + (n - 2)) :
    acceptPart e n s = .err .overflow s := by
  rw [acceptPart, if_pos h]

/-- R119, R120: a first part that fits is taken; then the ACK is sent and the next frame read. -/
theorem onChained_eq {s : State} {e : Target} {n : Nat} (hl : s.level ≠ 1) (h : s.acc + (n - 2) ≤ s.a.w2.toNat) :
    onChained e n s =
      ((sendFrame [pcbRByte (!e.mark), e.tn] 8).andThen
        ((Op.upd (State.setEState .awaitingResponse)).andThen (readAnswer e)))
        ((s.takePart e n).levelUp.setEState .chaining) := by
  rw [onChained, if_neg hl, Op.andThen_ok (acceptPart_ok h), Op.upd_andThen, sendRBlock]

/-- A block sent, `ESTATE <- AwaitingResponse`, and the answer read (R120, R121), where the answer fits. -/
theorem sendAwait_fits {data : List Byte} (hn : data.length ≤ Config.maxSend) {a : Answer} {e : Target}
    (ha : a.fits Config.maxRead e.timeout) {s : State} {cfg : Config.Params} {v : Env} (hc : s.cfg = cfg)
    (hv : s.env = v) (hq : s.quiet = true) (h : s.answers 1 a) :
    ∃ env, v.After env (sendTrace cfg data ++ a.trace cfg) (3 + 3 * a.windows cfg) a.miso.length ∧
      ((sendFrame data 8).andThen ((Op.upd (State.setEState .awaitingResponse)).andThen (readAnswer e))) s =
        .ok (.received a.bytes.length)
          (((s.heard a).ranBus (sendTrace cfg data ++ a.trace cfg) env).setEState .awaitingResponse) := by
  subst hc hv
  obtain ⟨env, hx, he⟩ := send8_makes hn hq h.first
  obtain ⟨env', hx', he'⟩ := readWithTimeout_makes ha (Nat.le_refl _) (he.quiet hq rfl)
    (h.rest he rfl rfl : State.answers ((s.ranBus (sendTrace s.cfg data) env).setEState .awaitingResponse) 0 a)
  refine ⟨env', by have := he.trans he'; rwa [Nat.zero_add] at this, ?_⟩
  rw [Op.andThen_ok hx, Op.upd_andThen]
  show readAnswer e ((s.ranBus (sendTrace s.cfg data) env).setEState .awaitingResponse) = _
  rw [readAnswer, Op.bind_ok hx']
  show Res.ok _ _ = Res.ok _ _
  congr 1
  exact congrArg (State.setEState .awaitingResponse) (State.ranBus_ranBus _ _ env _ (s.heard a))

/-- R28, R125: what toggling a mark does to the registry. -/
theorem toggled.of {s t : State} {e : Target} (he : s.target? e.tn = some e)
    (h : t.registry = (s.setMark e.tn (!e.mark)).registry) : toggled s t e := by
  have h' : t.registry = s.registry.map fun x => if x.tn = e.tn then { x with mark := !e.mark } else x := h
  have key : ∀ tn, t.target? tn =
      (s.target? tn).map fun x => if x.tn = e.tn then { x with mark := !e.mark } else x := by
    intro tn
    rw [State.target?, h', List.find?_map, State.target?]
    congr 1
    apply congrArg fun p => s.registry.find? p
    funext x
    simp only [Function.comp_apply]
    split <;> rfl
  refine ⟨by rw [key, he]; simp, fun tn htn => ?_, ?_⟩
  · rw [key]
    cases hx : s.target? tn with
    | none => rfl
    | some x =>
      have : x.tn = tn := State.target?_tn hx
      rw [Option.map_some, if_neg (by rw [this]; exact htn)]
  · rw [unmarked, unmarked, h', List.map_map]
    apply List.map_congr_left
    intro x _
    show (let y := (if x.tn = e.tn then ({ x with mark := !e.mark } : Target) else x); ({ y with mark := false } : Target)) = _
    dsimp only
    split <;> rfl

/-- R130: what a probe makes of a frame just read. -/
theorem probeReason_heard {e : Target} {a : Answer} {s t : State} (h : frameStored s t a.bytes)
    (hc : a.count ≤ Config.maxRead) : probeReason e a.bytes.length t = probeVerdict e a := by
  rw [probeReason, probeVerdict, if_neg (show ¬ Config.maxRead < a.count by omega)]
  clear hc
  obtain ⟨polls, bytes⟩ := a
  match bytes, h with
  | [], _ => rfl
  | [_], _ => rfl
  | [p, c], h =>
    have h0 : t.frameByte 0 = p := h.1 0 (by simp)
    have h1 : t.frameByte 1 = c := h.1 1 (by simp)
    simp only [List.length_cons, List.length_nil, h0, h1]
    rfl
  | _ :: _ :: _ :: bs, _ => simp

/-- `ProbeOne` of an entry whose answer the environment supplies (R130). -/
theorem probeOne_answered {e : Target} {a : Answer} (ha : a.toProbe e) {s : State} (hq : s.quiet = true)
    (h : s.answers 1 a) :
    ∃ env, s.env.After env (sendTrace s.cfg [pcbRByte e.mark, e.tn] ++ a.trace s.cfg) (3 + 3 * a.windows s.cfg)
        a.miso.length ∧
      probeOne e s = .ok (probeVerdict e a)
        (let t := (s.heard a).ranBus (sendTrace s.cfg [pcbRByte e.mark, e.tn] ++ a.trace s.cfg) env
         if probeVerdict e a = 0 then t else t.removeTarget e.tn) := by
  have hn : [pcbRByte e.mark, e.tn].length ≤ Config.maxSend := by simp [Config.maxSend]
  obtain ⟨env, hx, he⟩ := send8_makes hn hq h.first
  have h' : State.answers (s.ranBus (sendTrace s.cfg [pcbRByte e.mark, e.tn]) env) 0 a := h.rest he rfl rfl
  have key : ∃ env', s.env.After env' (sendTrace s.cfg [pcbRByte e.mark, e.tn] ++ a.trace s.cfg)
        (3 + 3 * a.windows s.cfg) a.miso.length ∧
      probeRead e (s.ranBus (sendTrace s.cfg [pcbRByte e.mark, e.tn]) env) = .ok (probeVerdict e a)
        ((s.heard a).ranBus (sendTrace s.cfg [pcbRByte e.mark, e.tn] ++ a.trace s.cfg) env') := by
    rcases ha with ha | ha
    · obtain ⟨env', hx', he'⟩ := readWithTimeout_makes ha (Nat.le_refl _) (he.quiet hq rfl) h'
      have hE := he.trans he'
      rw [Nat.zero_add] at hE
      refine ⟨env', hE, ?_⟩
      rw [probeRead, Op.catching, Op.bind_ok hx', Op.get_apply]
      rw [show (State.heard a (s.ranBus (sendTrace s.cfg [pcbRByte e.mark, e.tn]) env)).ranBus
          (a.trace (s.ranBus (sendTrace s.cfg [pcbRByte e.mark, e.tn]) env).cfg) env' =
          (s.heard a).ranBus (sendTrace s.cfg [pcbRByte e.mark, e.tn] ++ a.trace s.cfg) env' from
        State.ranBus_ranBus _ _ env _ (s.heard a)]
      rw [probeReason_heard (s := s) (frameStored.of (by rfl) (by exact hE.epoch)) ha.2.2]
    · obtain ⟨env', hx', he'⟩ := readWithTimeout_raises ha (he.quiet hq rfl) h'
      have hE := he.trans he'
      rw [Nat.zero_add] at hE
      refine ⟨env', hE, ?_⟩
      rw [probeRead, Op.catching, Op.bind_err hx']
      rw [show (State.heard a (s.ranBus (sendTrace s.cfg [pcbRByte e.mark, e.tn]) env)).ranBus
          (a.trace (s.ranBus (sendTrace s.cfg [pcbRByte e.mark, e.tn]) env).cfg) env' =
          (s.heard a).ranBus (sendTrace s.cfg [pcbRByte e.mark, e.tn] ++ a.trace s.cfg) env' from
        State.ranBus_ranBus _ _ env _ (s.heard a)]
      rw [probeVerdict, if_pos ha.2.2]
      rfl
  obtain ⟨env', hE, hx'⟩ := key
  refine ⟨env', hE, ?_⟩
  rw [probeOne, sendRBlock, Op.andThen_ok hx, id, Op.bind_ok hx']
  dsimp only
  split
  · rename_i h0; rw [h0]; rfl
  · rfl

end Sys2Proof.Machine
end

