-- ==== Sys2Proof/Laws/HostPort.lean ====
section
/-!
SUPPORT. The host port (R18, R35, R36): the ranges of its offsets in numerals, and the reads and writes outside the
nine registers.
-/

namespace Sys2Proof.Machine

@[simp] theorem rxOffset_iff (off : Nat) : rxOffset off = true ↔ 0x800 ≤ off ∧ off < 0xC00 := by
  simp only [rxOffset, Bool.and_eq_true, decide_eq_true_eq]
  rfl

@[simp] theorem guardedOffset_iff (off : Nat) :
    guardedOffset off = true ↔ off < 0x018 ∨ 0x400 ≤ off ∧ off < 0x800 := by
  simp only [guardedOffset, Bool.or_eq_true, Bool.and_eq_true, decide_eq_true_eq]
  rfl

/-- A read at an offset above the registers. -/
theorem State.hostRead_high (s : State) {off : Nat} (h : 0x020 < off) :
    s.hostRead off =
      if 0x400 ≤ off ∧ off < 0x800 then s.memWord off
      else if 0x800 ≤ off ∧ off < 0xC00 then if s.busy then Config.rxBusyRead s.env.rxDrawn else s.memWord off
      else 0#32 := by
  have hx : (rxOffset off = true) = (0x800 ≤ off ∧ off < 0xC00) := propext (rxOffset_iff off)
  unfold State.hostRead
  iterate 9 rw [if_neg (by omega)]
  simp only [hx]
  rfl

/-- A write to `TXBUF` while no command runs. -/
theorem State.hostWrite_txbuf {s : State} (hb : s.busy = false) {off : Nat} (h : 0x400 ≤ off ∧ off < 0x800) (v : Word) :
    s.hostWrite off v = { s with mem := Memory.store s.mem off (bytesLe32 v) } := by
  have hg : guardedOffset off = true := (guardedOffset_iff off).mpr (.inr h)
  rw [State.hostWrite, if_neg (by omega), if_pos hg, if_neg (by rw [hb]; decide), State.writeGuarded]
  iterate 6 rw [if_neg (by omega)]

end Sys2Proof.Machine
end

