-- ==== Sys2Proof/Laws/Runs.lean ====
section
/-!
SUPPORT. What every instruction's run can do in every environment: the runs of the block engine, the probe and the
registry commands, and `exec_cases`, which says it for all instructions.
-/

namespace Sys2Proof.Machine

/-! ## The block engine -/

theorem ErrCode.mem_engine {i : Instr} (hi : i = .transceive ∨ i.format = .pcb) {c : ErrCode}
    (h : c.isTransport = true ∨ c = .rxOverflow) : c ∈ errorsOf i := by
  have hall : ErrCode.notReady ∈ errorsOf i ∧ ErrCode.latchTimeout ∈ errorsOf i ∧ ErrCode.idleTimeout ∈ errorsOf i ∧
      ErrCode.rxOverflow ∈ errorsOf i := by
    rcases hi with h | h
    · subst h; decide
    · cases i <;> first | exact absurd h (by decide) | simp [errorsOf]
  rcases h with h | h
  · exact ErrCode.mem_of_transport h ⟨hall.1, hall.2.1, hall.2.2.1⟩
  · subst h; exact hall.2.2.2

/-- The errors that frame exchange raises in the engine. -/
abbrev ExchangeError (c : ErrCode) : Prop := c.isTransport = true ∨ c = .rxOverflow

theorem sendFrame_exchanged {data : List Byte} (hn : data.length ≤ Config.maxSend) {s : State} (hs : s.steady) :
    Exchanged s (fun _ _ => True) ExchangeError (sendFrame data 8 s) :=
  Exchanged.of_transported (sendFrame_sat hn hs (by omega)) fun _ h => .inl h

theorem sendRBlock_exchanged (mark : Bool) (tn : Byte) {s : State} (hs : s.steady) :
    Exchanged s (fun _ _ => True) ExchangeError (sendRBlock mark tn s) :=
  sendFrame_exchanged (by simp [Config.maxSend]) hs

theorem readAnswer_exchanged (e : Target) {s : State} (hs : s.steady) :
    Exchanged s (fun v _ => ∃ n ≤ Config.maxRead, v = .received n) ExchangeError (readAnswer e s) :=
  exchanged_bind (readWithTimeout_sat (Nat.le_refl _) _ hs) fun n t _ h => ⟨Heard.refl t, n, h.1, rfl⟩

/-- A frame sent and the answer read (R113). -/
theorem sendRead_exchanged {data : List Byte} (hn : data.length ≤ Config.maxSend) (e : Target) {s : State}
    (hs : s.steady) : Exchanged s (fun v _ => ∃ n ≤ Config.maxRead, v = .received n) ExchangeError
      (((sendFrame data 8).andThen (readAnswer e)) s) :=
  exchanged_bind (sendFrame_exchanged hn hs) fun _ _ h _ => readAnswer_exchanged e (h.world.steady hs)

/-- What an error in the engine leaves, before `ESTATE` is set (R113, R125). -/
def EngineError (i : Instr) (s : State) (c : ErrCode) (t : State) : Prop :=
  c ∈ errorsOf i ∧ RegistryChange i s t ∧ c.isEarly = false ∧ (i.format = .cmd → t.mem = s.mem)

theorem inEngine_works {i : Instr} {s t : State} {x : Op After}
    (hi : i.format = .pcb ∨ i = .transceive ∧ s.engineRuns)
    (h : Works t (Outcome i s) (EngineError i s) (x t)) : Works t (Outcome i s) (Failure i s) (inEngine x t) :=
  Op.catching_sat h fun c u g => by
    refine ⟨g.1.trans (u.setEState_worked _), g.2.1, ?_, fun h => ?_, fun _ => rfl, fun h => ?_⟩
    · have := g.2.2.1
      cases i <;> exact this
    · rw [g.2.2.2.1] at h; cases h
    · refine ⟨g.2.2.2.2 h, ?_⟩
      rcases hi with hi | hi
      · rw [hi] at h; cases h
      · exact .inr ⟨hi.1, hi.2, rfl⟩

theorem engineEnter_works {s : State} (hs : s.steady) (hr : s.engineRuns) (e : Target) {nout : Nat}
    (hn : nout ≤ Config.maxTxPayload) :
    Works s (Outcome .transceive s) (EngineError .transceive s) (engineEnter e nout s) := by
  rw [engineEnter]
  refine works_upd s.enterEngine_worked ?_
  have hlen : ([pcbIByte e.mark, e.tn] ++ s.txBytes 0 nout).length ≤ Config.maxSend := by
    rw [List.length_append, State.length_txBytes]
    simp only [Config.maxSend, Config.maxTxPayload, List.length_cons, List.length_nil] at *
    omega
  refine works_mono (sendRead_exchanged hlen e (s.enterEngine_worked.world.steady hs)).works
    (fun v t _ h => ?_) fun c t _ h => ?_
  · obtain ⟨hh, n, hn, rfl⟩ := h
    refine ⟨hh.field State.registry fun _ => rfl, hn, hr, ?_, ?_, ?_, ?_⟩
    · exact hh.field State.estate fun _ => rfl
    · exact hh.field State.r fun _ => rfl
    · exact hh.field State.level fun _ => rfl
    · exact hh.field State.acc fun _ => rfl
  · exact ⟨ErrCode.mem_engine (.inl rfl) h.2, h.1.field State.registry fun _ => rfl,
      by simpa using ErrCode.not_early h.2, fun _ => h.1.field State.mem fun _ => rfl⟩

theorem typeA_works {s : State} (hs : s.steady) (ho : ¬ s.engineRuns) {nout cap T : Nat}
    (hn : nout ≤ Config.maxSend) :
    Works s (Outcome .transceive s) (Failure .transceive s) (typeA nout cap T s) := by
  rw [typeA]
  split
  · exact works_at_once rfl (by decide) fun _ => ho
  · refine works_exchange (ho := fun _ => ho) rfl (sendFrame_exchanged (by rw [State.length_txBytes]; exact hn) hs)
      (fun c h => ⟨h, ErrCode.mem_engine (.inl rfl) h⟩) fun _ t h _ => ?_
    refine works_bind (works_mono (readWithTimeout_sat (Nat.min_le_right cap Config.maxRead) T
      (h.world.steady hs)).works (fun _ _ _ g => g) fun c u _ g =>
        (h.trans g.1).failure rfl g.2 (ErrCode.mem_engine (.inl rfl) g.2) fun _ => ho) fun n u _ g => ?_
    refine deliverFrame_works rfl (h.trans g.1) ?_ fun _ => ho
    have := g.2.1
    simp only [Config.maxRead, Config.bufSize] at *
    omega

theorem transceiveBody_works {s : State} (hs : s.steady) :
    Works s (Outcome .transceive s) (Failure .transceive s) (transceiveBody s) := by
  rw [transceiveBody]
  split
  · next h => exact works_at_once rfl (by decide) fun _ hr => absurd hr.2.2.2 (by omega)
  · next hcap =>
    split
    · next h => exact works_at_once rfl (by decide) fun _ hr => hr.1 h.1
    · next h0 =>
      split
      · next h => exact works_at_once rfl (by decide) fun _ hr => absurd hr.2.2.1 (by omega)
      · next h1 =>
        split
        · next ht => exact typeA_works hs (fun hr => hr.1 ht) (Nat.not_lt.mp fun h => h0 ⟨ht, h⟩)
        · next ht =>
          split
          · next he => exact works_at_once rfl (by decide) fun _ hr => by simpa [he] using hr.2.1
          · next e he =>
            have hn : s.a.w1.toNat ≤ Config.maxTxPayload := Nat.not_lt.mp fun h => h1 ⟨ht, h⟩
            have hr : s.engineRuns := ⟨ht, by rw [he]; rfl, hn, by omega⟩
            exact inEngine_works (.inr ⟨rfl, hr⟩) (engineEnter_works hs hr e hn)

/-! ## One turn of the engine's loop -/

/-- A frame sent and the answer read in a turn that counts a retry or goes up a level, the registry changed as the
instruction may. -/
theorem turned_works {i : Instr} {s u : State} (hi : i.format = .pcb) {x : Op After}
    (hx : Exchanged u (fun v _ => ∃ n ≤ Config.maxRead, v = .received n) ExchangeError (x u))
    (hr : RegistryChange i s u) (he : s.estate = .awaitingResponse → u.estate = .awaitingResponse)
    (hp : s.level ≤ 1 → s.r + s.level < u.r + u.level) (ha : s.acc ≤ s.a.w2.toNat → u.acc ≤ s.a.w2.toNat) :
    Works u (Outcome i s) (EngineError i s) (x u) := by
  have hreg : ∀ t, Heard u t → RegistryChange i s t := fun t h => by
    have := h.field State.registry fun _ => rfl
    cases i <;> simp only [RegistryChange, this] at hr ⊢ <;> exact hr
  refine works_mono hx.works (fun v t _ h => ?_) fun c t _ h => ?_
  · obtain ⟨hh, n, hn, rfl⟩ := h
    refine ⟨hreg t hh, hn, ?_⟩
    have h1 : t.estate = u.estate := hh.field State.estate fun _ => rfl
    have h2 : t.r = u.r := hh.field State.r fun _ => rfl
    have h3 : t.level = u.level := hh.field State.level fun _ => rfl
    have h4 : t.acc = u.acc := hh.field State.acc fun _ => rfl
    cases i <;> first | exact absurd hi (by decide) | (
      simp only [Turned, h1, h2, h3, h4]
      exact ⟨rfl, he, hp, ha⟩)
  · exact ⟨ErrCode.mem_engine (.inr hi) h.2, hreg t h.1, by simpa using ErrCode.not_early h.2,
      fun h => by rw [hi] at h; cases h⟩

theorem RegistryChange.of_eq {i : Instr} {s t u : State} (h : RegistryChange i s t) (hr : u.registry = t.registry) :
    RegistryChange i s u := by
  cases i <;> simp only [RegistryChange, hr] at h ⊢ <;> exact h

/-- A block sent, `ESTATE <- AwaitingResponse`, and the answer read, in a turn that has counted a retry or gone up a
level. -/
theorem awaited_works {i : Instr} {s u : State} (hi : i.format = .pcb) (hs : u.steady) {data : List Byte}
    (hn : data.length ≤ Config.maxSend) (e : Target) (hr : RegistryChange i s u) (hp : s.level ≤ 1 → s.r + s.level < u.r + u.level)
    (ha : s.acc ≤ s.a.w2.toNat → u.acc ≤ s.a.w2.toNat) :
    Works u (Outcome i s) (EngineError i s)
      (((sendFrame data 8).andThen ((Op.upd (State.setEState .awaitingResponse)).andThen (readAnswer e))) u) := by
  refine works_bind (works_mono (sendFrame_exchanged hn hs).works (fun _ _ _ h => h.1) fun c t _ h =>
    ⟨ErrCode.mem_engine (.inr hi) h.2, hr.of_eq (h.1.field State.registry fun _ => rfl),
      by simpa using ErrCode.not_early h.2, fun h => by rw [hi] at h; cases h⟩) fun _ t hw h => ?_
  have hw' := t.setEState_worked .awaitingResponse
  refine works_upd hw' (turned_works hi (readAnswer_exchanged e ((hw.trans hw').world.steady hs))
    (hr.of_eq (h.field State.registry fun _ => rfl)) (fun _ => rfl) ?_ ?_)
  · intro hl
    show _ < t.r + t.level
    rw [h.field State.r fun _ => rfl, h.field State.level fun _ => rfl]; exact hp hl
  · show _ → t.acc ≤ _
    rw [h.field State.acc fun _ => rfl]; exact ha

theorem engineError_at_once {i : Instr} {s : State} {c : ErrCode} (h : c ∈ errorsOf i) (he : c.isEarly = false) :
    Works (α := After) s (Outcome i s) (EngineError i s) (.err c s) :=
  ⟨Worked.refl s, h, .same rfl, he, fun _ => rfl⟩

theorem pcb_errors {i : Instr} (hi : i.format = .pcb) {c : ErrCode}
    (hc : c ∈ errorsOf (.pcbR false)) : c ∈ errorsOf i := by
  cases i <;> first | exact absurd hi (by decide) | exact hc

theorem onNoResponse_works {i : Instr} (hi : i.format = .pcb) {s : State} (hs : s.steady) (e : Target) :
    Works s (Outcome i s) (EngineError i s) (onNoResponse e s) := by
  rw [onNoResponse]
  split
  · exact engineError_at_once (pcb_errors hi (by decide)) rfl
  · next h =>
    have hw := State.retried_worked h
    refine works_upd hw (turned_works hi ?_ (.same rfl) id (fun _ => by show _ < s.r + 1 + s.level; omega) id)
    exact sendRead_exchanged (by simp [Config.maxSend]) e (hw.world.steady hs)

theorem classified_works {i : Instr} (hi : i.format = .pcb) {s : State} (hs : s.steady) (e : Target) (n : Nat)
    {x : Op After} (hx : Works s (Outcome i s) (EngineError i s) (x s)) :
    Works s (Outcome i s) (EngineError i s) (classified e n x s) := by
  rw [classified]
  split
  · exact onNoResponse_works hi hs e
  · split
    · exact engineError_at_once (pcb_errors hi (by decide)) rfl
    · split
      · exact engineError_at_once (pcb_errors hi (by decide)) rfl
      · exact hx

theorem onExtension_works {i : Instr} (hi : i.format = .pcb) {s : State} (hs : s.steady) (e : Target) (n : Nat) :
    Works s (Outcome i s) (EngineError i s) (onExtension e n s) := by
  rw [onExtension]
  split
  · exact engineError_at_once (pcb_errors hi (by decide)) rfl
  · split
    · exact engineError_at_once (pcb_errors hi (by decide)) rfl
    · next h =>
      have hw : Worked s (s.retried.setEState .extensionRequested) :=
        (State.retried_worked h).trans (State.setEState_worked _ _)
      refine works_upd hw (awaited_works hi (hw.world.steady hs) (by simp [Config.maxSend]) e (.same rfl) ?_ id)
      intro _
      show _ < s.r + 1 + s.level
      omega

theorem acceptPart_works {i : Instr} {s : State} {e : Target} {n m : Nat} (hi : i.format = .pcb)
    (hseq : s.seq = .received m) :
    Works s (fun _ t => t = s.takePart e n ∧ s.acc + (n - 2) ≤ s.a.w2.toNat) (EngineError i s) (acceptPart e n s) := by
  rw [acceptPart]
  split
  · exact ⟨Worked.refl s, pcb_errors hi (by decide), .same rfl, rfl, fun _ => rfl⟩
  · exact ⟨State.takePart_worked hseq (by omega), rfl, by omega⟩

theorem onFinal_works {m : Bool} {s : State} {e : Target} (he : s.target? s.operandByte = some e) {n k : Nat}
    (hseq : s.seq = .received k) :
    Works s (Outcome (.pcbI m) s) (EngineError (.pcbI m) s) (onFinal e n s) := by
  refine works_bind (acceptPart_works rfl hseq) fun _ t _ h => ?_
  obtain ⟨rfl, h⟩ := h
  exact ⟨State.setEState_worked _ _, .inr ⟨e, he, rfl⟩, fun h => (by cases h), fun _ => rfl⟩

theorem onChained_works {m : Bool} {s : State} (hs : s.steady) {e : Target}
    (he : s.target? s.operandByte = some e) {n k : Nat} (hseq : s.seq = .received k) :
    Works s (Outcome (.pcbIChained m) s) (EngineError (.pcbIChained m) s) (onChained e n s) := by
  rw [onChained]
  split
  · exact engineError_at_once (pcb_errors rfl (by decide)) rfl
  · next hl =>
    refine works_bind (acceptPart_works rfl hseq) fun _ t ht h => ?_
    obtain ⟨rfl, h⟩ := h
    have hw : Worked (s.takePart e n) ((s.takePart e n).levelUp.setEState .chaining) :=
      (State.levelUp_worked _).trans (State.setEState_worked _ _)
    refine works_upd hw (awaited_works rfl ((ht.trans hw).world.steady hs) (by simp [Config.maxSend]) e
      (.inr ⟨e, he, rfl⟩) ?_ fun _ => h)
    intro hlevel
    show _ < s.r + 1
    omega

/-! ## The probe -/

theorem probeRead_works {s : State} (hs : s.steady) (e : Target) :
    Works s (fun _ t => Heard s t) (fun c t => Heard s t ∧ c.isTransport = true) (probeRead e s) := by
  refine Op.catching_sat (E' := fun c t => Worked s t ∧ Heard s t ∧ ExchangeError c) ?_ fun c t h => ?_
  · refine works_bind (P := fun _ t => Heard s t) (E := fun c t => Heard s t ∧ ExchangeError c)
      (works_mono (readWithTimeout_sat (Nat.le_refl _) _ hs).works (fun _ _ _ h => h.1) fun _ _ _ h => h)
      fun n t _ h => ?_
    rw [Op.get_apply]
    exact ⟨Worked.refl t, h⟩
  · split
    · exact ⟨h.1, h.2.1⟩
    · next hc => exact ⟨h.1, h.2.1, h.2.2.resolve_right hc⟩

/-- R130: a probe leaves the registry as it was where it gives no reason of removal, else without the entry probed. -/
theorem probeOne_works {s : State} (hs : s.steady) (e : Target) :
    Works s (fun reason t => t.estate = s.estate ∧ t.mem = s.mem ∧
        t.registry = if reason = 0 then s.registry else s.registry.filter fun x => x.tn != e.tn)
      (fun c t => Heard s t ∧ c.isTransport = true) (probeOne e s) := by
  refine works_bind (works_mono (Exchanged.of_transported (E := fun c => c.isTransport = true)
    (sendFrame_sat (by simp [Config.maxSend]) hs (by omega)) fun _ h => h).works (fun _ _ _ h => h.1)
      fun _ _ _ h => h) fun _ t hw ht => ?_
  refine works_bind (works_mono (probeRead_works (hw.world.steady hs) e) (fun _ _ _ h => ht.trans h)
    fun _ _ _ h => ⟨ht.trans h.1, h.2⟩) fun reason u _ hu => ?_
  have hr : u.registry = s.registry := hu.field State.registry fun _ => rfl
  have hes : u.estate = s.estate := hu.field State.estate fun _ => rfl
  have hm : u.mem = s.mem := hu.field State.mem fun _ => rfl
  split
  · exact ⟨Worked.refl u, hes, hm, by rw [hr]; rfl⟩
  · next h0 => exact ⟨u.removeTarget_worked _, hes, hm, by rw [if_neg h0, ← hr]; rfl⟩

theorem execProbe_works {s : State} (hs : s.steady) :
    Works s (Outcome .probe s) (Failure .probe s)
      ((fun s => match s.target? s.operandByte with
        | none => Res.err .noTarget s
        | some e => ((probeOne e).bind fun reason =>
            Op.ret (After.done (if reason = 0 then 1#32 else 0#32) (BitVec.ofNat 32 reason))) s) s) := by
  dsimp only
  split
  · exact works_at_once rfl (by decide)
  · next e he =>
    have htn : e.tn = s.operandByte := by simpa using List.find?_some he
    refine works_bind (works_mono (probeOne_works hs e) (fun _ _ _ h => h) fun c t _ h =>
      h.1.failure rfl (.inl h.2) (ErrCode.mem_of_transport h.2 (by decide))) fun _ t _ h => ?_
    refine ⟨Worked.refl t, ?_, fun _ => ⟨h.1, nofun⟩, fun h => by cases h⟩
    have hreg := h.2.2
    rw [htn] at hreg
    split at hreg
    · exact .inl hreg
    · exact .inr hreg

theorem probeEach_works (es : List Target) (removed : Nat) {s : State} (hs : s.steady) :
    Works s (Outcome .probeAll s) (fun _ _ => False) (probeEach es removed s) := by
  induction es generalizing s removed with
  | nil => exact ⟨Worked.refl s, .same rfl, fun _ => ⟨rfl, nofun⟩, fun h => by cases h⟩
  | cons e es ih =>
    have h := probeOne_works hs e
    rw [probeEach]
    dsimp only
    cases hx : probeOne e s with
    | ok reason t =>
      rw [hx] at h
      obtain ⟨hw, hes, hm, hreg⟩ := h
      have hsub : t.registry.Sublist s.registry := by
        rw [hreg]
        split
        · exact List.Sublist.refl _
        · exact List.filter_sublist
      refine (ih _ (hw.world.steady hs)).mono (fun v u g => ⟨hw.trans g.1, ?_⟩) (fun _ _ g => g.2.elim)
        fun _ g => g.of_world hw.world
      · refine ⟨(g.2.1 : u.registry.Sublist t.registry).trans hsub, ?_⟩
        have g2 := g.2.2
        cases v with
        | done _ _ => exact ⟨fun h => ⟨(g2.1 h).1.trans hes, nofun⟩, g2.2⟩
        | failed _ _ => exact ⟨rfl, g2.2.1, g2.2.2.1.trans hes, g2.2.2.2.trans hm⟩
        | received _ => exact absurd g2.2.1 (by decide)
    | err c t =>
      rw [hx] at h
      exact ⟨h.1, (by rw [show t.registry = s.registry from h.2.1.field State.registry fun _ => rfl] :
        t.registry.Sublist s.registry), rfl, h.2.2, h.2.1.field State.estate fun _ => rfl,
        h.2.1.field State.mem fun _ => rfl⟩
    | cut t => rw [hx] at h; exact h

/-- How a pass of `PROBE_ALL` over the entries `es`, which stand after the entries `kept`, ends: with the entries that
it keeps of those it has probed, and with the number it has removed of them after the `removed` before (R132). -/
def PassEnd (kept es : List Target) (removed : Nat) (v : After) (t : State) : Prop :=
  (∃ l, l.Sublist es ∧ t.registry = kept ++ l ∧
    v = .done (BitVec.ofNat 32 (removed + (es.length - l.length))) (BitVec.ofNat 32 (kept ++ l).length)) ∨
  ∃ c pre e post l, c.isTransport = true ∧ es = pre ++ e :: post ∧ l.Sublist pre ∧
    t.registry = kept ++ l ++ e :: post ∧ v = .failed c (BitVec.ofNat 32 (removed + (pre.length - l.length)))

/-- The entry probed is the only one with its number, so a removal takes out that entry alone (R27). -/
theorem filter_probed {kept es : List Target} {e : Target} (h : ((kept ++ e :: es).map Target.tn).Nodup) :
    ((kept ++ e :: es).filter fun x => x.tn != e.tn) = kept ++ es := by
  have hk : ∀ x ∈ kept, x.tn ≠ e.tn := fun x hx he => by
    rw [List.map_append, List.nodup_append] at h
    exact h.2.2 x.tn (List.mem_map_of_mem hx) e.tn (by simp) he
  have he : ∀ x ∈ es, x.tn ≠ e.tn := fun x hx hxe => by
    rw [List.map_append, List.nodup_append, List.map_cons, List.nodup_cons] at h
    exact h.2.1.1 (hxe ▸ List.mem_map_of_mem hx)
  rw [List.filter_append, List.filter_cons_of_neg (by simp),
    List.filter_eq_self.mpr fun x hx => by simpa using hk x hx,
    List.filter_eq_self.mpr fun x hx => by simpa using he x hx]

/-- R132: what a pass over the registry can leave, in every environment. -/
theorem probeEach_pass (es kept : List Target) (removed : Nat) {s : State} (hs : s.steady)
    (hr : s.registry = kept ++ es) (hn : (s.registry.map Target.tn).Nodup) :
    Works s (PassEnd kept es removed) (fun _ _ => False) (probeEach es removed s) := by
  induction es generalizing s kept removed with
  | nil =>
    refine ⟨Worked.refl s, .inl ⟨[], List.Sublist.refl _, hr, ?_⟩⟩
    rw [← hr]; rfl
  | cons e es ih =>
    have h := probeOne_works hs e
    rw [probeEach]
    dsimp only
    cases hx : probeOne e s with
    | ok reason t =>
      rw [hx] at h
      obtain ⟨hw, -, -, hreg⟩ := h
      dsimp only
      rw [hr] at hn
      have hst := hw.world.steady hs
      have done : ∀ {x : Res After} {k removed'}, Works t (PassEnd k es removed') (fun _ _ => False) x →
          (∀ v u, PassEnd k es removed' v u → PassEnd kept (e :: es) removed v u) →
          Works s (PassEnd kept (e :: es) removed) (fun _ _ => False) x := fun g hp =>
        g.mono (fun v u g => ⟨hw.trans g.1, hp v u g.2⟩) (fun _ _ g => g.2.elim) fun _ g => g.of_world hw.world
      by_cases h0 : reason = 0
      · rw [if_pos h0] at hreg ⊢
        have hr' : t.registry = (kept ++ [e]) ++ es := by rw [hreg, hr, List.append_assoc]; rfl
        refine done (ih (kept ++ [e]) removed hst hr' (by rw [hreg, hr]; exact hn)) fun v u g => ?_
        rcases g with ⟨l, hl, hu, hv⟩ | ⟨c, pre, e', post, l, hc, hes, hl, hu, hv⟩
        · refine .inl ⟨e :: l, hl.cons_cons e, by rw [hu, List.append_assoc]; rfl, ?_⟩
          rw [hv, List.append_assoc, List.length_cons, List.length_cons, Nat.add_sub_add_right]; rfl
        · refine .inr ⟨c, e :: pre, e', post, e :: l, hc, by rw [hes]; rfl, hl.cons_cons e, ?_, ?_⟩
          · rw [hu]; simp
          · rw [hv, List.length_cons, List.length_cons, Nat.add_sub_add_right]
      · rw [if_neg h0, hr, filter_probed hn] at hreg
        rw [if_neg h0]
        have hsub : ((kept ++ es).map Target.tn).Nodup :=
          hn.sublist (((List.sublist_cons_self e es).append_left kept).map _)
        refine done (ih kept (removed + 1) hst hreg (by rw [hreg]; exact hsub)) fun v u g => ?_
        rcases g with ⟨l, hl, hu, hv⟩ | ⟨c, pre, e', post, l, hc, hes, hl, hu, hv⟩
        · refine .inl ⟨l, hl.cons e, hu, ?_⟩
          rw [hv, List.length_cons, show removed + (es.length + 1 - l.length) = removed + 1 + (es.length - l.length) by
            have := hl.length_le; omega]
        · refine .inr ⟨c, e :: pre, e', post, l, hc, by rw [hes]; rfl, hl.cons e, hu, ?_⟩
          rw [hv, List.length_cons, show removed + (pre.length + 1 - l.length) = removed + 1 + (pre.length - l.length) by
            have := hl.length_le; omega]
    | err c t =>
      rw [hx] at h
      refine ⟨h.1, .inr ⟨c, [], e, es, [], h.2.2, rfl, List.Sublist.refl _, ?_, rfl⟩⟩
      rw [show t.registry = s.registry from h.2.1.field State.registry fun _ => rfl, hr, List.append_nil]
    | cut t => rw [hx] at h; exact h

/-! ## All instructions -/

theorem engineTurn_cases {i : Instr} (hi : i.format = .pcb) {f : Target → Nat → Op After} {s : State}
    (hs : s.steady)
    (hf : ∀ e n t, Ran s t → t.steady → t.seq = .received n → t.target? t.operandByte = some e →
      Works t (Outcome i t) (EngineError i t) (f e n t)) :
    (∃ body, engineTurn f s = command body s ∧ ∀ t, Ran s t → Works t (Outcome i t) (Failure i t) (body t)) ∨
      i.format = .pcb ∧ s.exchange? = none ∧ engineTurn f s = .fault .noExchange := by
  cases hx : s.exchange? with
  | none => exact .inr ⟨hi, rfl, by rw [engineTurn, hx]⟩
  | some p =>
    obtain ⟨e, n⟩ := p
    refine .inl ⟨_, by rw [engineTurn, hx], fun t ht => ?_⟩
    have hst := ht.steady hs
    have hq : s.seq = .received n ∧ s.target? s.operandByte = some e := by
      rw [State.exchange?] at hx
      split at hx
      · next m hm =>
        rw [Option.map_eq_some_iff] at hx
        obtain ⟨e', he, hp⟩ := hx
        injection hp with h1 h2
        exact ⟨by rw [hm, h2], by rw [he, h1]⟩
      · cases hx
    have h1 : t.seq = .received n := (ht.field State.seq fun _ => rfl).trans hq.1
    have h2 : t.target? t.operandByte = some e :=
      (ht.field (fun u => u.target? u.operandByte) fun _ => rfl).trans hq.2
    exact inEngine_works (.inl hi) (classified_works hi hst e n (hf e n t ht hst h1 h2))

theorem badPcb_works {i : Instr} (hi : i.format = .pcb) (s : State) :
    Works s (Outcome i s) (EngineError i s) ((Op.raise .badPcb : Op After) s) :=
  engineError_at_once (pcb_errors hi (by decide)) rfl

/-- The run of every instruction: a body that can do no more than `Outcome` and `Failure` say, or, for a control byte
where no exchange is going on, a fault. -/
theorem exec_cases (i : Instr) {s : State} (hs : s.steady) :
    (∃ body, exec i s = command body s ∧ ∀ t, Ran s t → Works t (Outcome i t) (Failure i t) (body t)) ∨
      i.format = .pcb ∧ s.exchange? = none ∧ exec i s = .fault .noExchange := by
  have hst : ∀ t, Ran s t → t.steady := fun t ht => ht.steady hs
  cases i with
  | crcA => exact .inl ⟨_, rfl, fun t _ => works_crc (.inl rfl) _⟩
  | crcB => exact .inl ⟨_, rfl, fun t _ => works_crc (.inr rfl) _⟩
  | xchg =>
    refine .inl ⟨_, rfl, fun t ht => ?_⟩
    dsimp only
    split
    · exact works_at_once rfl (by decide)
    · refine works_transport rfl (by decide) (spiFrame_transported _ _ (hst t ht)) fun rd u h g => ?_
      exact works_store rfl h (by have := g.1; omega) _ _
  | regRd =>
    refine .inl ⟨_, rfl, fun t ht => ?_⟩
    exact works_transport rfl (by decide) (regRead_sat _ (hst t ht)) fun _ u h _ => ⟨Worked.refl u, h.outcome rfl _ _⟩
  | regWr => exact .inl ⟨_, rfl, fun t ht => works_regWrite (.inl rfl) _ (hst t ht)⟩
  | regOr => exact .inl ⟨_, rfl, fun t ht => works_regWrite (.inr (.inl rfl)) _ (hst t ht)⟩
  | regAnd => exact .inl ⟨_, rfl, fun t ht => works_regWrite (.inr (.inr rfl)) _ (hst t ht)⟩
  | sendData =>
    refine .inl ⟨_, rfl, fun t ht => ?_⟩
    split
    · exact works_at_once rfl (by decide)
    · next hn =>
      by_cases hv : t.a.w1.toNat < 1 ∨ t.a.w1.toNat > 8
      · rw [sendFrame, if_neg (by rw [State.length_txBytes]; exact hn), if_pos hv]
        exact works_at_once rfl (by decide)
      · exact works_transport rfl (by decide)
          (sendFrame_sat (by rw [State.length_txBytes]; omega) (hst t ht) (by omega))
          fun _ u h _ => ⟨Worked.refl u, h.outcome rfl _ _⟩
  | readData =>
    refine .inl ⟨_, rfl, fun t ht => ?_⟩
    by_cases hn : t.a.w0.toNat > Config.maxRead
    · rw [Op.bind, readFrame, if_pos hn]
      exact works_at_once rfl (by decide)
    · refine works_transport rfl (by decide) (readFrame_sat (by omega) (hst t ht)) fun rd u h g => ?_
      exact works_store rfl h (by have := g.1; simp only [Config.maxRead, Config.bufSize] at *; omega) _ _
  | rxStatus =>
    refine .inl ⟨_, rfl, fun t ht => ?_⟩
    exact works_transport rfl (by decide) (getRxStatus_sat (hst t ht)) fun _ u h _ => ⟨Worked.refl u, h.outcome rfl _ _⟩
  | readTmo =>
    refine .inl ⟨_, rfl, fun t ht => ?_⟩
    split
    · exact works_at_once rfl (by decide)
    · refine works_exchange rfl (readWithTimeout_sat (by omega) _ (hst t ht)) (fun c h => ⟨h, ?_⟩) fun n u h g => ?_
      · rcases h with h | h
        · exact ErrCode.mem_of_transport h (by decide)
        · subst h; decide
      · exact deliverFrame_works rfl h (by have := g.1; simp only [Config.maxRead, Config.bufSize] at *; omega)
  | transceive => exact .inl ⟨_, rfl, fun t ht => transceiveBody_works (hst t ht)⟩
  | probe => exact .inl ⟨_, rfl, fun t ht => execProbe_works (hst t ht)⟩
  | probeAll =>
    exact .inl ⟨_, rfl, fun t ht => works_mono (probeEach_works _ _ (hst t ht)) (fun _ _ _ h => h) fun _ _ _ h => h.elim⟩
  | tgtAlloc =>
    refine .inl ⟨_, rfl, fun t ht => ?_⟩
    split
    · exact works_at_once rfl (by decide)
    · exact ⟨Worked.refl t, (Heard.refl t).outcome rfl _ _⟩
  | tgtInstall =>
    refine .inl ⟨_, rfl, fun t ht => ?_⟩
    dsimp only
    split
    · exact works_at_once rfl (by decide)
    · split
      · exact works_at_once rfl (by decide)
      · next h1 h2 =>
        have hn : t.target? t.operandByte = none := by simpa using h2
        exact ⟨State.install_worked (by omega) (by omega) hn, .inr ⟨t.newTarget, rfl, rfl⟩, fun _ => ⟨rfl, nofun⟩,
          fun h => by cases h⟩
  | tgtRemove =>
    refine .inl ⟨_, rfl, fun t ht => ?_⟩
    dsimp only
    split
    · exact ⟨State.removeTarget_worked _ _, .inr rfl, fun _ => ⟨rfl, nofun⟩, fun h => by cases h⟩
    · exact works_at_once rfl (by decide)
  | tgtRead =>
    refine .inl ⟨_, rfl, fun t ht => ?_⟩
    dsimp only
    split
    · exact works_at_once rfl (by decide)
    · next e he =>
      refine ⟨Worked.of_kept rfl rfl rfl rfl rfl rfl rfl fun g => ?_, rfl, fun _ => ⟨rfl, nofun⟩, fun h => by cases h⟩
      have hm := g.registry.1 e (List.mem_of_find?_eq_some he)
      simp only [Target.ok, decide_eq_true_eq] at hm
      refine ⟨g.registry, Memory.wf_store (Memory.wf_store g.mem ?_ ?_) ?_ ?_, g.frame, g.counters, g.cap⟩ <;>
        simp only [Config.txBase, Config.rxBase, Config.bufSize] <;> omega
  | pcbI m =>
    refine engineTurn_cases rfl hs fun e n t ht hs' h1 h2 => ?_
    split
    · exact onFinal_works h2 h1
    · exact badPcb_works rfl t
  | pcbIChained m =>
    refine engineTurn_cases rfl hs fun e n t ht hs' h1 h2 => ?_
    split
    · exact onChained_works hs' h2 h1
    · exact badPcb_works rfl t
  | pcbR m => exact engineTurn_cases rfl hs fun e n t ht hs' h1 h2 => badPcb_works rfl t
  | pcbSWtx => exact engineTurn_cases rfl hs fun e n t ht hs' h1 h2 => onExtension_works rfl hs' e n

/-! ## The end of a run -/

/-- How a run ends: `t` is the state at its first elementary step, `v` the one at its end, `w` the one after the host
accesses that still land before the completion. -/
inductive RunEnd (P : State → After → State → Prop) (E : State → ErrCode → State → Prop) (s u : State) : Prop where
  /-- the command is complete (R142) -/
  | complete (t v w : State) (c : ErrCode) (res res1 : Word) (first : Ran s t) (sel : t.sel = s.sel)
      (run : Worked t v) (last : Ran v w) (sel' : w.sel = v.sel)
      (how : (c = .ok ∧ P t (.done res res1) v) ∨ (res = failResult ∧ P t (.failed c res1) v) ∨
        (res = failResult ∧ res1 = 0#32 ∧ E t c v))
      (eq : u = w.complete c res res1)
  /-- a frame has been read for the engine to classify (R113) -/
  | received (t v : State) (n : Nat) (first : Ran s t) (sel : t.sel = s.sel) (run : Worked t v)
      (how : P t (.received n) v) (eq : u = v.toReceived n)
  /-- a reset has cut it off (R157) -/
  | cut (how : CutFrom s u)

theorem runCommand_cases {body : Op After} {s : State} (hs : s.steady) {P : State → After → State → Prop}
    {E : State → ErrCode → State → Prop} (hb : ∀ t, Ran s t → Works t (P t) (E t) (body t)) :
    RunEnd P E s (runCommand body s) := by
  have hslot := hostSlot_sat hs
  rw [runCommand, Op.andThen, Op.bind]
  cases h1 : hostSlot s with
  | err c t => rw [h1] at hslot; exact hslot.elim
  | cut t => rw [h1] at hslot; exact .cut hslot
  | ok x t =>
    rw [h1] at hslot
    obtain ⟨ht, hsel, -⟩ := hslot
    have hbody := hb t ht
    have hcut : ∀ {v u}, Worked t v → CutFrom v u → CutFrom s u := fun hv h => (h.of_world hv.world).of_ran ht
    have hlast : ∀ v, Worked t v → (hostSlot v).Sat (fun _ w => Ran v w ∧ w.sel = v.sel ∧ w.env.bus = v.env.bus)
        (fun _ _ => False) (CutFrom v) := fun v hv => hostSlot_sat (hv.world.steady (ht.steady hs))
    dsimp only
    cases h2 : body t with
    | cut v => rw [h2] at hbody; exact .cut (hbody.of_ran ht)
    | err c v =>
      rw [h2] at hbody
      have hl := hlast v hbody.1
      dsimp only
      rw [closing]
      cases h3 : hostSlot v with
      | err c w => rw [h3] at hl; exact hl.elim
      | cut w => rw [h3] at hl; exact .cut (hcut hbody.1 hl)
      | ok x w =>
        rw [h3] at hl
        exact .complete t v w c failResult 0#32 ht hsel hbody.1 hl.1 hl.2.1 (.inr (.inr ⟨rfl, rfl, hbody.2⟩)) rfl
    | ok a v =>
      rw [h2] at hbody
      have hl := hlast v hbody.1
      cases a with
      | received n => exact .received t v n ht hsel hbody.1 hbody.2 rfl
      | done res res1 =>
        dsimp only
        rw [closing]
        cases h3 : hostSlot v with
        | err c w => rw [h3] at hl; exact hl.elim
        | cut w => rw [h3] at hl; exact .cut (hcut hbody.1 hl)
        | ok x w =>
          rw [h3] at hl
          exact .complete t v w .ok res res1 ht hsel hbody.1 hl.1 hl.2.1 (.inl ⟨rfl, hbody.2⟩) rfl
      | failed c res1 =>
        dsimp only
        rw [closing]
        cases h3 : hostSlot v with
        | err c w => rw [h3] at hl; exact hl.elim
        | cut w => rw [h3] at hl; exact .cut (hcut hbody.1 hl)
        | ok x w =>
          rw [h3] at hl
          exact .complete t v w c failResult res1 ht hsel hbody.1 hl.1 hl.2.1 (.inr (.inl ⟨rfl, hbody.2⟩)) rfl

/-- What every instruction that answers a next state leaves. -/
theorem exec_ends {i : Instr} {s u : State} (hs : s.steady) (h : exec i s = .next u) :
    RunEnd (Outcome i) (Failure i) s u := by
  rcases exec_cases i hs with ⟨body, hx, hb⟩ | ⟨-, -, hx⟩
  · rw [hx, command] at h
    injection h with h
    subst h
    exact runCommand_cases hs hb
  · rw [hx] at h; cases h

end Sys2Proof.Machine
end

