-- ==== Sys2Proof/Laws/Pass.lean ====
section
/-!
SUPPORT. The exact effect of a pass of `PROBE_ALL` over entries whose answers the environment supplies (R132), with a
quiet host.
-/

namespace Sys2Proof.Machine

/-- The windows of the probes with these answers. -/
def probesWindows (cfg : Config.Params) (as : List Answer) : Nat := (as.map fun a => 1 + a.windows cfg).sum

/-- `u` is `s` after probes that leave the registry `l` and these bus events. -/
structure Probed (s u : State) (l : List Target) (es : List BusEvent) (nb nm : Nat) : Prop where
  eq : u = { s with registry := l, frame := u.frame, k := u.k, prev := u.prev, sel := u.sel, mosi := u.mosi,
                    env := u.env }
  sel : s.sel = false → u.sel = false
  after : s.env.After u.env es nb nm

theorem Probed.memByte {s u : State} {l : List Target} {es : List BusEvent} {nb nm : Nat} (h : Probed s u l es nb nm)
    (off : Nat) : u.memByte off = s.memByte off := by
  have hm : u.mem = s.mem := by rw [h.eq]
  simp only [State.memByte, hm, h.after.epoch]

theorem Probed.trans {s t u : State} {l l' : List Target} {es es' : List BusEvent} {nb nb' nm nm' : Nat}
    (h : Probed s t l es nb nm) (h' : Probed t u l' es' nb' nm') : Probed s u l' (es ++ es') (nb + nb') (nm + nm') :=
  ⟨by rw [h'.eq, h.eq], fun hs => h'.sel (h.sel hs), h.after.trans h'.after⟩

theorem probeKept_cons (e : Target) (es : List Target) (a : Answer) (as : List Answer) :
    probeKept (e :: es) (a :: as) = if probeVerdict e a = 0 then e :: probeKept es as else probeKept es as := by
  unfold probeKept
  rw [List.zip_cons_cons, List.filter_cons]
  by_cases h : probeVerdict e a = 0 <;> simp [h]

theorem probeKept_sublist (es : List Target) (as : List Answer) : (probeKept es as).Sublist es := by
  induction es generalizing as with
  | nil => exact List.nil_sublist _
  | cons e es ih =>
    cases as with
    | nil => exact List.nil_sublist _
    | cons a as =>
      rw [probeKept_cons]
      split
      · exact (ih as).cons_cons e
      · exact (ih as).cons e

/-- One probe of a pass (R130). -/
theorem probeOne_probed {e : Target} {a : Answer} {kept rest : List Target} (ha : a.toProbe e) {s : State}
    (hq : s.quiet = true) (h : s.answers 1 a) (hr : s.registry = kept ++ e :: rest)
    (hn : (s.registry.map Target.tn).Nodup) :
    ∃ u, probeOne e s = .ok (probeVerdict e a) u ∧
      Probed s u (kept ++ if probeVerdict e a = 0 then e :: rest else rest)
        (sendTrace s.cfg [pcbRByte e.mark, e.tn] ++ a.trace s.cfg) (3 * (1 + a.windows s.cfg)) a.miso.length := by
  obtain ⟨env, he, hx⟩ := probeOne_answered ha hq h
  rw [show 3 * (1 + a.windows s.cfg) = 3 + 3 * a.windows s.cfg by ring]
  refine ⟨_, hx, ?_⟩
  by_cases h0 : probeVerdict e a = 0
  · simp only [h0, if_true]
    exact ⟨by rw [← hr]; rfl, fun _ => rfl, he⟩
  · simp only [h0, if_false]
    refine ⟨?_, fun _ => rfl, he⟩
    rw [hr] at hn
    rw [← filter_probed hn, ← hr]; rfl

/-- R132: a pass over entries whose answers the environment supplies, up to the entries `rest` still to be probed. -/
theorem probeEach_answered (pre rest kept : List Target) (as : List Answer) (removed : Nat) (hl : as.length = pre.length)
    (ha : ∀ p ∈ pre.zip as, p.2.toProbe p.1) {s : State} (hq : s.quiet = true) {bs : List Bool} {ms : List Byte}
    (h : s.supplied (readyFor (probesWindows s.cfg as) ++ bs) (as.flatMap Answer.miso ++ ms))
    (hr : s.registry = kept ++ (pre ++ rest)) (hn : (s.registry.map Target.tn).Nodup) :
    ∃ u, probeEach (pre ++ rest) removed s = probeEach rest (removed + (pre.length - (probeKept pre as).length)) u ∧
      Probed s u (kept ++ (probeKept pre as ++ rest)) (probesTrace s.cfg pre as) (3 * probesWindows s.cfg as)
        (as.flatMap Answer.miso).length := by
  induction pre generalizing s kept as removed with
  | nil =>
    cases List.eq_nil_of_length_eq_zero hl
    exact ⟨s, rfl, by rw [show kept ++ (probeKept [] [] ++ rest) = s.registry from hr.symm], id, Env.After.refl _⟩
  | cons e pre ih =>
    cases as with
    | nil => cases hl
    | cons a as =>
      have hs : s.supplied (readyFor (1 + a.windows s.cfg) ++ (readyFor (probesWindows s.cfg as) ++ bs))
          (a.miso ++ (as.flatMap Answer.miso ++ ms)) := by
        rw [← List.append_assoc, ← readyFor_add, ← List.append_assoc]; exact h
      have h1 : s.answers 1 a := ⟨(List.prefix_append _ _).trans hs.1, (List.prefix_append _ _).trans hs.2⟩
      obtain ⟨t, hx, ht⟩ := probeOne_probed (rest := pre ++ rest) (ha (e, a) (by simp) : a.toProbe e) hq h1 hr hn
      have hlen : (readyFor (1 + a.windows s.cfg)).length = 3 * (1 + a.windows s.cfg) := List.length_replicate ..
      have hc : t.cfg = s.cfg := by rw [ht.eq]
      have htr : t.registry = kept ++ if probeVerdict e a = 0 then e :: (pre ++ rest) else pre ++ rest := by rw [ht.eq]
      have hsup : t.supplied (readyFor (probesWindows s.cfg as) ++ bs) (as.flatMap Answer.miso ++ ms) :=
        (by rw [hlen]; exact ht.after :
          s.env.After t.env _ (readyFor (1 + a.windows s.cfg)).length a.miso.length).supplied hs rfl
      have hle := (probeKept_sublist pre as).length_le
      rw [← hc] at hsup
      have step : ∀ {k r l}, probeEach ((e :: pre) ++ rest) removed s = probeEach (pre ++ rest) r t →
          t.registry = k ++ (pre ++ rest) → k ++ (probeKept pre as ++ rest) = l → (t.registry.map Target.tn).Nodup →
          ∃ u, probeEach ((e :: pre) ++ rest) removed s = probeEach rest (r + (pre.length - (probeKept pre as).length)) u ∧
            Probed s u l (probesTrace s.cfg (e :: pre) (a :: as)) (3 * probesWindows s.cfg (a :: as))
              ((a :: as).flatMap Answer.miso).length := fun {k r l} hp hreg hl' hnd => by
        obtain ⟨u, hu, hpu⟩ := ih k as r (by simpa using hl) (fun p hp => ha p (by simp [hp])) (ht.after.quiet hq rfl)
          hsup hreg hnd
        refine ⟨u, hp.trans hu, ?_⟩
        have := ht.trans hpu
        rw [hl', hc] at this
        rwa [probesTrace, List.zip_cons_cons, List.flatMap_cons, List.flatMap_cons, List.length_append,
          show 3 * probesWindows s.cfg (a :: as) = 3 * (1 + a.windows s.cfg) + 3 * probesWindows s.cfg as by
            simp only [probesWindows, List.map_cons, List.sum_cons]; ring]
      have hpe : probeEach ((e :: pre) ++ rest) removed s =
          probeEach (pre ++ rest) (if probeVerdict e a = 0 then removed else removed + 1) t := by
        rw [List.cons_append, probeEach]; simp only [hx]
      rw [probeKept_cons]
      by_cases h0 : probeVerdict e a = 0
      · simp only [h0, if_true] at htr hpe ⊢
        obtain ⟨u, hu, hpu⟩ := step (k := kept ++ [e]) hpe (by rw [htr]; simp) rfl
          (by rw [htr, ← List.cons_append, ← hr]; exact hn)
        refine ⟨u, ?_, by simpa using hpu⟩
        rw [hu]
        simp only [List.length_cons, Nat.add_sub_add_right]
      · simp only [h0, if_false] at htr hpe ⊢
        obtain ⟨u, hu, hpu⟩ := step (k := kept) hpe htr rfl (by
          rw [htr]
          rw [hr] at hn
          exact hn.sublist (((List.sublist_cons_self e _).append_left kept).map _))
        refine ⟨u, ?_, hpu⟩
        rw [hu]
        congr 1
        simp only [List.length_cons]
        omega

end Sys2Proof.Machine
end

