-- ==== Sys2Proof/Laws/PerInstr.lean ====
section
/-!
SUPPORT. Statements made per instruction. `RoundTrip`: an instruction's encoding decodes, in its own format and as a
word of opcode_table.json, to that instruction, and in the other format to none.
-/

namespace Sys2Proof.Laws.RoundTrip

/-- The other of the two formats. -/
def otherFormat : Format → Format
  | .cmd => .pcb
  | .pcb => .cmd

/-- The encoding of `i` is read as `i` (R53, R58 to R60), and never as an instruction of the other format. -/
def Statement (i : Instr) : Prop :=
  accepted (decode i.format (encode i)) = some i ∧ accepted (decode (otherFormat i.format) (encode i)) = none ∧
    decodeTableWord 8 (encode i).toNat = some i

theorem crcA : Statement .crcA := by unfold Statement; decide

theorem crcB : Statement .crcB := by unfold Statement; decide

theorem xchg : Statement .xchg := by unfold Statement; decide

theorem regRd : Statement .regRd := by unfold Statement; decide

theorem regWr : Statement .regWr := by unfold Statement; decide

theorem regOr : Statement .regOr := by unfold Statement; decide

theorem regAnd : Statement .regAnd := by unfold Statement; decide

theorem sendData : Statement .sendData := by unfold Statement; decide

theorem readData : Statement .readData := by unfold Statement; decide

theorem rxStatus : Statement .rxStatus := by unfold Statement; decide

theorem readTmo : Statement .readTmo := by unfold Statement; decide

theorem transceive : Statement .transceive := by unfold Statement; decide

theorem probe : Statement .probe := by unfold Statement; decide

theorem probeAll : Statement .probeAll := by unfold Statement; decide

theorem tgtAlloc : Statement .tgtAlloc := by unfold Statement; decide

theorem tgtInstall : Statement .tgtInstall := by unfold Statement; decide

theorem tgtRemove : Statement .tgtRemove := by unfold Statement; decide

theorem tgtRead : Statement .tgtRead := by unfold Statement; decide

theorem pcbI (mark : Bool) : Statement (.pcbI mark) := by unfold Statement; cases mark <;> decide

theorem pcbIChained (mark : Bool) : Statement (.pcbIChained mark) := by unfold Statement; cases mark <;> decide

theorem pcbR (mark : Bool) : Statement (.pcbR mark) := by unfold Statement; cases mark <;> decide

theorem pcbSWtx : Statement .pcbSWtx := by unfold Statement; decide

end Sys2Proof.Laws.RoundTrip
end

