-- ==== Sys2Proof/Laws/Watch.lean ====
section
/-!
SUPPORT. What a host that reads `STATUS` once in a run finds there (R35, R129): the read moves nearer by one elementary
operation at a time (`State.reads`), lands, and its answer stays (`Saw`). `Watched` says this of any step of a run.
-/

namespace Sys2Proof.Machine

/-- The host reads `STATUS` before the elementary operation number `j` from here, counted from 0, and makes no other
access before the completion. -/
def State.reads (s : State) (j : Nat) : Prop :=
  s.env.host = List.replicate j .pass ++ [.access { op := .read, off := 0x018#12 }, .await]

/-- Between `s` and `t` the host has read `STATUS` once, has found the engine in the state it is in at `s`, with
`BUSY` = 1 and `DONE` = 0, and makes no more accesses. -/
def Saw (s t : State) : Prop :=
  t.quiet = true ∧ ∃ v, t.env.replies = s.env.replies ++ [.data v] ∧ v.extractLsb' 16 3 = s.estate.code ∧
    v.getLsbD 0 = true ∧ v.getLsbD 1 = false

/-- `t` comes from `s` by `n` elementary operations. -/
structure Watched (n : Nat) (s t : State) : Prop where
  still : t.still = s.still
  epoch : t.env.epoch = s.env.epoch
  done : s.done = false → t.done = false
  nearer : ∀ j, s.reads j → n ≤ j → t.reads (j - n) ∧ t.env.replies = s.env.replies
  seen : ∀ j, s.reads j → j < n → s.busy = true → s.done = false → Saw s t
  calm : s.quiet = true → t.quiet = true ∧ t.env.replies = s.env.replies

theorem Watched.field {α : Type} {n : Nat} {s t : State} (h : Watched n s t) (f : State → α)
    (hf : ∀ u, f u.still = f u) : f t = f s := by
  rw [← hf t, h.still, hf s]

theorem Watched.refl (s : State) : Watched 0 s s :=
  ⟨rfl, rfl, id, fun _ h _ => ⟨h, rfl⟩, fun _ _ h => absurd h (Nat.not_lt_zero _), fun h => ⟨h, rfl⟩⟩

theorem Watched.trans {n m : Nat} {s t u : State} (h : Watched n s t) (h' : Watched m t u) : Watched (n + m) s u := by
  refine ⟨h'.still.trans h.still, h'.epoch.trans h.epoch, fun hd => h'.done (h.done hd), fun j hj hn => ?_,
    fun j hj hn hb hd => ?_, fun hq => ?_⟩
  · obtain ⟨h1, h2⟩ := h.nearer j hj (by omega)
    obtain ⟨h3, h4⟩ := h'.nearer _ h1 (by omega)
    exact ⟨by rwa [Nat.sub_sub] at h3, h4.trans h2⟩
  · by_cases hjn : j < n
    · obtain ⟨hq, v, hv, hw⟩ := h.seen j hj hjn hb hd
      obtain ⟨hq', hr⟩ := h'.calm hq
      exact ⟨hq', v, hr.trans hv, hw⟩
    · obtain ⟨h1, h2⟩ := h.nearer j hj (by omega)
      obtain ⟨hq, v, hv, hw⟩ := h'.seen _ h1 (by omega) ((h.field State.busy fun _ => rfl).trans hb) (h.done hd)
      exact ⟨hq, v, by rw [hv, h2], by rwa [h.field State.estate fun _ => rfl] at hw⟩
  · obtain ⟨h1, h2⟩ := h.calm hq
    obtain ⟨h3, h4⟩ := h'.calm h1
    exact ⟨h3, h4.trans h2⟩

/-- The host side is quiet, or reads `STATUS` once. -/
def State.observed (s : State) : Prop := s.quiet = true ∨ (∃ j, s.reads j) ∧ s.busy = true ∧ s.done = false

theorem Watched.observed {n : Nat} {s t : State} (h : Watched n s t) (hs : s.observed) : t.observed := by
  rcases hs with hq | ⟨⟨j, hj⟩, hb, hd⟩
  · exact .inl (h.calm hq).1
  · by_cases hn : n ≤ j
    · exact .inr ⟨⟨_, (h.nearer j hj hn).1⟩, (h.field State.busy fun _ => rfl).trans hb, h.done hd⟩
    · exact .inl (h.seen j hj (by omega) hb hd).1

/-- R22, R23: what a word read at `STATUS` while a command runs shows. -/
theorem State.statusWord_running {s : State} (hb : s.busy = true) (hd : s.done = false) :
    s.statusWord.extractLsb' 16 3 = s.estate.code ∧ s.statusWord.getLsbD 0 = true ∧ s.statusWord.getLsbD 1 = false := by
  simp only [State.statusWord, hb, hd]
  generalize BitVec.ofNat 4 s.regcnt = n, s.estate.code = e, s.err.code = c, BitVec.ofBool s.ovr = o
  refine ⟨BitVec.eq_of_getLsbD_eq fun i hi => ?_, ?_, ?_⟩
  · simp only [BitVec.getLsbD_extractLsb', hi, decide_true, Bool.true_and, BitVec.getLsbD_append]
    interval_cases i <;> rfl
  · simp only [BitVec.getLsbD_append]; rfl
  · simp only [BitVec.getLsbD_append]; rfl

theorem State.reads_inj {s : State} {j j' : Nat} (h : s.reads j) (h' : s.reads j') : j = j' := by
  have := congrArg List.length (h.symm.trans h')
  simpa using this

theorem State.reads_not_quiet {s : State} {j : Nat} (h : s.reads j) : s.quiet = false := by
  cases j <;> simp only [State.quiet, show s.env.host = _ from h] <;> rfl

/-- The host side's turn while the host watches. -/
theorem hostSlot_watched {s : State} (hs : s.observed) :
    ∃ t, hostSlot s = .ok () t ∧ Watched 1 s t ∧ t.env.busy = s.env.busy := by
  rcases hs with hq | ⟨⟨j, hj⟩, hb, hd⟩
  · exact ⟨s, hostSlot_quiet hq,
      ⟨rfl, rfl, id, fun j hj => absurd hq (by simp [State.reads_not_quiet hj]),
        fun j hj => absurd hq (by simp [State.reads_not_quiet hj]), fun h => ⟨h, rfl⟩⟩, rfl⟩
  · have hnq : s.quiet = true → False := fun h => by rw [State.reads_not_quiet hj] at h; cases h
    cases j with
    | zero =>
      have hx : hostSlot s = .ok () ((s.reply (.data s.statusWord)).withHost [.await]) := by
        rw [hostSlot, show s.env.host = _ from hj]; rfl
      exact ⟨_, hx, ⟨rfl, rfl, id, fun j' h' hn => absurd (State.reads_inj hj h') (by omega),
        fun _ _ _ _ _ => ⟨rfl, _, rfl, State.statusWord_running hb hd⟩, fun h => (hnq h).elim⟩, rfl⟩
    | succ j =>
      have hx : hostSlot s = .ok () (s.withHost (List.replicate j .pass ++
          [.access { op := .read, off := 0x018#12 }, .await])) := by
        rw [hostSlot, show s.env.host = _ from hj]; rfl
      refine ⟨_, hx, ⟨rfl, rfl, id, fun j' h' _ => ?_, fun j' h' hn => absurd (State.reads_inj hj h') (by omega),
        fun h => (hnq h).elim⟩, rfl⟩
      obtain rfl := State.reads_inj hj h'
      exact ⟨rfl, rfl⟩

/-- One elementary operation before the host's read of `STATUS`. -/
theorem hostSlot_reads {s : State} {j : Nat} (hj : s.reads (j + 1)) (hb : s.busy = true) (hd : s.done = false) :
    ∃ t, hostSlot s = .ok () t ∧ Watched 1 s t ∧ t.reads j ∧ t.busy = true ∧ t.done = false ∧
      t.env.busy = s.env.busy ∧ t.env.replies = s.env.replies := by
  obtain ⟨t, h1, h2, h3⟩ := hostSlot_watched (.inr ⟨⟨_, hj⟩, hb, hd⟩)
  obtain ⟨h4, h5⟩ := h2.nearer _ hj (by omega)
  exact ⟨t, h1, h2, by simpa using h4, (h2.field State.busy fun _ => rfl).trans hb, h2.done hd, h3, h5⟩

/-- Bus activity that leaves the host side alone. -/
theorem Watched.of_ran {s t : State} (h : Ran s t) (hd : t.done = s.done) (hh : t.env.host = s.env.host)
    (hr : t.env.replies = s.env.replies) : Watched 0 s t :=
  ⟨h.still, h.epoch, hd.trans, fun j hj _ => ⟨by unfold State.reads; rw [hh]; exact hj, hr⟩,
    fun _ _ hn => absurd hn (Nat.not_lt_zero _), fun hq => ⟨(State.quiet_congr hh).trans hq, hr⟩⟩

/-- An elementary operation while the host watches. -/
theorem elementary_watched {α : Type} {s : State} (hs : s.observed) (v : State → α) (f : State → State)
    (hf : ∀ t, Watched 0 t (f t)) :
    ∃ t, Watched 1 s (f t) ∧ t.env.busy = s.env.busy ∧ (hostSlot.andThen fun t => .ok (v t) (f t)) s = .ok (v t) (f t) := by
  obtain ⟨t, hx, hw, hb⟩ := hostSlot_watched hs
  exact ⟨t, hw.trans (hf t), hb, Op.andThen_ok hx⟩

theorem waitBusy_watched {s : State} (hs : s.observed) {b : Bool} {bs : List Bool} (hb : s.env.busy = b :: bs)
    (want : Bool) (ms : Nat) : ∃ t, waitBusy want ms s = .ok b t ∧ Watched 1 s t ∧ t.env.busy = bs := by
  obtain ⟨t, hw, ht, hx⟩ := elementary_watched hs State.nextBusy (State.waited want ms) fun t =>
    Watched.of_ran (State.waited_ran want ms t) (by simp) (by simp) (by simp)
  rw [hb] at ht
  refine ⟨_, ?_, hw, by simp [ht]⟩
  rw [waitBusy, hx, State.nextBusy, ht]; rfl

theorem selectLine_watched {s : State} (hs : s.observed) (v : Bool) :
    ∃ t, selectLine v s = .ok () t ∧ Watched 1 s t ∧ t.env.busy = s.env.busy := by
  obtain ⟨t, hw, ht, hx⟩ := elementary_watched hs (fun _ => ()) (State.selected v) fun t =>
    Watched.of_ran (State.selected_ran v t) (by simp) (by simp) (by simp)
  exact ⟨_, hx, hw, by simp [ht]⟩

theorem delay_watched {s : State} (hs : s.observed) (us : Nat) :
    ∃ t, delay us s = .ok () t ∧ Watched 1 s t ∧ t.env.busy = s.env.busy := by
  obtain ⟨t, hw, ht, hx⟩ := elementary_watched hs (fun _ => ()) (State.delayed us) fun t =>
    Watched.of_ran (State.delayed_ran us t) (by simp) (by simp) (by simp)
  exact ⟨_, hx, hw, by simp [ht]⟩

theorem sendBytes_watched (w : List Byte) {s : State} (hs : s.observed) :
    ∃ t, sendBytes w s = .ok () t ∧ Watched w.length s t ∧ t.env.busy = s.env.busy := by
  induction w generalizing s with
  | nil => exact ⟨s, rfl, Watched.refl s, rfl⟩
  | cons b w ih =>
    obtain ⟨t, hw, ht, hx⟩ := elementary_watched hs (fun _ => ()) (State.sent b) fun t =>
      Watched.of_ran (State.sent_ran b t) (by simp) (by simp) (by simp)
    obtain ⟨u, hu, hw', hb⟩ := ih (hw.observed hs)
    refine ⟨u, (Op.andThen_ok hx).trans hu, ?_, by rw [hb]; simp [ht]⟩
    rw [List.length_cons, Nat.add_comm]
    exact hw.trans hw'

/-- R67: a window that writes `w` and reads nothing takes `w.length + 6` elementary operations. -/
theorem spiWindow_watched (w : List Byte) {s : State} (hs : s.observed) (h : readyFor 1 <+: s.env.busy) :
    ∃ t, spiWindow w 0 s = .ok [] t ∧ Watched (w.length + 6) s t := by
  obtain ⟨bs, hb⟩ := h
  obtain ⟨t1, h1, w1, b1⟩ := waitBusy_watched hs hb.symm false Config.busyBudgetMs
  obtain ⟨t2, h2, w2, b2⟩ := selectLine_watched (w1.observed hs) true
  have k2 := w1.trans w2
  obtain ⟨t3, h3, w3, b3⟩ := delay_watched (k2.observed hs) t2.cfg.settleUs
  have k3 := k2.trans w3
  obtain ⟨t4, h4, w4, b4⟩ := sendBytes_watched w (k3.observed hs)
  have k4 := k3.trans w4
  obtain ⟨t5, h5, w5, b5⟩ := waitBusy_watched (k4.observed hs) (by rw [b4, b3, b2, b1]; rfl) true Config.latchMs
  have k5 := k4.trans w5
  obtain ⟨t6, h6, w6, b6⟩ := selectLine_watched (k5.observed hs) false
  have k6 := k5.trans w6
  obtain ⟨t7, h7, w7, -⟩ := waitBusy_watched (k6.observed hs) (by rw [b6, b5]; rfl) false Config.busyBudgetMs
  refine ⟨t7, ?_, by
    have := k6.trans w7
    rwa [show 1 + 1 + 1 + w.length + 1 + 1 + 1 = w.length + 6 by omega] at this⟩
  have hbody : windowBody w 0 t1 = .ok [] t4 := by
    rw [windowBody, Op.andThen_ok h2, Op.get_bind, Op.andThen_ok h3, Op.andThen_ok h4]; rfl
  rw [spiWindow, Op.bind_ok h1, if_pos rfl, Op.bind_ok hbody, windowRelease, Op.bind_ok h5, if_pos rfl, Op.andThen_ok h6,
    Op.bind_ok h7, if_pos rfl]
  rfl

/-- R86: a card frame of `n` bytes takes `n + 8` elementary operations: two bytes go before it. -/
theorem sendFrame_watched {data : List Byte} (hn : data.length ≤ Config.maxSend) {s : State} (hs : s.observed)
    (h : readyFor 1 <+: s.env.busy) : ∃ t, sendFrame data 8 s = .ok () t ∧ Watched (data.length + 8) s t := by
  obtain ⟨t, ht, hw⟩ := spiWindow_watched ([s.cfg.opSendData, validBitsCode 8] ++ data) hs h
  refine ⟨t, ?_, by simpa using hw⟩
  rw [sendFrame, if_neg (by omega), if_neg (by omega), Op.get_bind, spiFrame, Op.andThen, Op.bind, Op.get_bind,
    if_pos (.inr rfl), ht]
  rfl

/-! ## A read that lands before a read-with-timeout -/

theorem spiFrame_slot (w : List Byte) (r : Nat) {s t : State} (h : hostSlot s = hostSlot t) (hc : s.cfg = t.cfg) :
    spiFrame w r s = spiFrame w r t := by
  have hw : ∀ r, spiWindow w r s = spiWindow w r t := fun r => by
    simp only [spiWindow, waitBusy, Op.bind, Op.andThen, h]
  simp only [spiFrame, Op.get_bind, hc]
  split
  · exact hw r
  · simp only [Op.andThen, Op.bind, hw]

/-- A read-with-timeout goes on from what the host side's turn before its first poll leaves. -/
theorem readWithTimeout_slot (cap T : Nat) {s t : State} (h : hostSlot s.pollStart = hostSlot t.pollStart)
    (hc : s.cfg = t.cfg) : readWithTimeout cap T s = readWithTimeout cap T t := by
  have hst : getRxStatus s.pollStart = getRxStatus t.pollStart := by
    simp only [getRxStatus, regRead, Op.bind, show s.pollStart.cfg = t.pollStart.cfg from hc,
      spiFrame_slot _ _ h hc, Op.get]
  have hp : pollLoop T s.pollStart = pollLoop T t.pollStart := by
    cases T <;> simp only [pollLoop, Op.bind, hst]
  simp only [readWithTimeout, Op.upd_andThen, Op.bind, hp]

/-- Whatever a read-with-timeout does with a quiet host, the answers the host has got stay. -/
theorem readWithTimeout_calm {cap T : Nat} (hcap : cap ≤ Config.maxRead) {s : State} (hq : s.quiet = true) :
    (readWithTimeout cap T s).Sat (fun _ t => t.quiet = true ∧ t.env.replies = s.env.replies)
      (fun _ t => t.quiet = true ∧ t.env.replies = s.env.replies) (fun _ => False) :=
  (readWithTimeout_sat hcap T (.inr hq)).mono (fun _ _ h => ⟨h.1.world.quiet hq, (h.1.world.calm hq).2.2.2.1⟩)
    (fun _ _ h => ⟨h.1.world.quiet hq, (h.1.world.calm hq).2.2.2.1⟩)
    fun _ h => by have := h.2.2; rw [hq] at this; cases this

/-- A read-with-timeout after the host has read `STATUS`, or with that read landing at its first poll: what the host
saw stays. -/
theorem readWithTimeout_saw {cap T : Nat} (hcap : cap ≤ Config.maxRead) {s t : State}
    (h : Saw s t ∨ t.reads 0 ∧ t.busy = true ∧ t.done = false ∧ t.env.replies = s.env.replies ∧ t.estate = s.estate) :
    (readWithTimeout cap T t).Sat (fun _ u => Saw s u) (fun _ u => Saw s u) (fun _ => False) := by
  have key : ∀ t, Saw s t → (readWithTimeout cap T t).Sat (fun _ u => Saw s u) (fun _ u => Saw s u) (fun _ => False) :=
    fun t ⟨hq, v, hv, hw⟩ => (readWithTimeout_calm hcap hq).mono (fun _ _ g => ⟨g.1, v, g.2.trans hv, hw⟩)
      (fun _ _ g => ⟨g.1, v, g.2.trans hv, hw⟩) fun _ g => g
  rcases h with h | ⟨hj, hb, hd, hr, he⟩
  · exact key t h
  · have hx : hostSlot t.pollStart = hostSlot (State.pollStart ((t.reply (.data t.statusWord)).withHost [.await])) := by
      rw [hostSlot, show t.pollStart.env.host = _ from hj]; rfl
    rw [readWithTimeout_slot cap T hx rfl]
    refine key _ ⟨rfl, t.statusWord, ?_, ?_⟩
    · rw [← hr]; rfl
    · rw [← he]; exact State.statusWord_running hb hd

/-- A run whose last part begins at `m`, with no answer before it, and in which the host has seen what `Saw` says
of `m`. -/
theorem runCommand_saw {body : Op After} {s m : State} (hm : m.env.replies = s.env.replies)
    (h : (hostSlot.andThen body s).Sat (fun _ u => Saw m u) (fun _ u => Saw m u) (fun _ => False)) :
    ∃ t v, command body s = .next t ∧ t.env.replies = s.env.replies ++ [.data v] ∧
      v.extractLsb' 16 3 = m.estate.code ∧ v.getLsbD 0 = true ∧ v.getLsbD 1 = false := by
  rw [← hm]
  cases hx : hostSlot.andThen body s with
  | ok v u =>
    rw [hx] at h
    obtain ⟨hq, w, g⟩ := h
    cases v <;> simp only [command, runCommand, hx, closing_quiet hq] <;> exact ⟨_, w, rfl, g⟩
  | err c u =>
    rw [hx] at h
    obtain ⟨hq, w, g⟩ := h
    simp only [command, runCommand, hx, closing_quiet hq]; exact ⟨_, w, rfl, g⟩
  | cut u => rw [hx] at h; exact h.elim

/-- What the host has seen stays through a read of the engine (R113). -/
theorem readAnswer_saw (e : Target) {s t : State}
    (h : Saw s t ∨ t.reads 0 ∧ t.busy = true ∧ t.done = false ∧ t.env.replies = s.env.replies ∧ t.estate = s.estate) :
    (readAnswer e t).Sat (fun _ u => Saw s u) (fun _ u => Saw s u) (fun _ => False) :=
  Op.bind_sat (readWithTimeout_saw (Nat.le_refl _) h) fun _ _ g => g

/-- An error inside the engine (R113) keeps what the host has seen. -/
theorem inEngine_saw {x : Op After} {s t : State}
    (h : (x t).Sat (fun _ u => Saw s u) (fun _ u => Saw s u) (fun _ => False)) :
    (inEngine x t).Sat (fun _ u => Saw s u) (fun _ u => Saw s u) (fun _ => False) :=
  Op.catching_sat h fun _ _ g => g

/-- The engine sends a frame and then reads, having done `f` in between; the host reads `STATUS` while the frame is
sent. -/
theorem sendRead_saw {f : State → State} (hf : ∀ s t, Saw s t → Saw s (f t)) (e : Target) {data : List Byte}
    (hn : data.length ≤ Config.maxSend) {m : State} {j : Nat} (hj : m.reads j) (hb : m.busy = true)
    (hd : m.done = false) (h : readyFor 1 <+: m.env.busy) (hlt : j < data.length + 8) :
    (((sendFrame data 8).andThen ((Op.upd f).andThen (readAnswer e))) m).Sat (fun _ u => Saw m u) (fun _ u => Saw m u)
      (fun _ => False) := by
  obtain ⟨t, ht, hw⟩ := sendFrame_watched hn (.inr ⟨⟨j, hj⟩, hb, hd⟩) h
  rw [Op.andThen_ok ht]
  exact readAnswer_saw e (.inl (hf m t (hw.seen j hj hlt hb hd)))

/-- The engine sends a frame and then reads, having done `f` in between; the host reads `STATUS` at the first poll. -/
theorem sendRead_saw_poll {f : State → State}
    (hf : ∀ t, (f t).env = t.env ∧ (f t).busy = t.busy ∧ (f t).done = t.done) (e : Target) {data : List Byte}
    (hn : data.length ≤ Config.maxSend) {m : State} (hj : m.reads (data.length + 8)) (hb : m.busy = true)
    (hd : m.done = false) (h : readyFor 1 <+: m.env.busy) :
    ∃ t : State, t.still = m.still ∧ t.env.replies = m.env.replies ∧
      (((sendFrame data 8).andThen ((Op.upd f).andThen (readAnswer e))) m).Sat (fun _ u => Saw (f t) u)
        (fun _ u => Saw (f t) u) (fun _ => False) := by
  obtain ⟨t, ht, hw⟩ := sendFrame_watched hn (.inr ⟨⟨_, hj⟩, hb, hd⟩) h
  obtain ⟨h1, h2⟩ := hw.nearer _ hj (Nat.le_refl _)
  rw [Nat.sub_self] at h1
  refine ⟨t, hw.still, h2, ?_⟩
  rw [Op.andThen_ok ht]
  refine readAnswer_saw e (.inr ⟨?_, ?_, ?_, rfl, rfl⟩)
  · unfold State.reads; rw [(hf t).1]; exact h1
  · exact (hf t).2.1.trans ((hw.field State.busy fun _ => rfl).trans hb)
  · exact (hf t).2.2.trans (hw.done hd)

end Sys2Proof.Machine
end

