-- ==== Sys2Proof/Tests/Slice0.lean ====
section
/-!
SUPPORT. Tests: the checks of WellFormed, the decoding of words written out from 30_encoding.md, one step of every
instruction on vectors of 95_test_vectors.md, and witnesses of the hypotheses of the statements.
-/

namespace Sys2Proof.Tests
open Sys2Proof.Machine

/-! ## WellFormed -/

/-- R63: a command is no control byte, and a control byte no command (R62). -/
theorem test_wellFormed_refuses_format :
    Instr.wellFormed .pcb .crcA = false ∧ Instr.wellFormed .cmd (.pcbI true) = false := by decide

/-- R34: 8- and 16-bit accesses. -/
theorem test_wellFormed_refuses_width :
    HostAccess.wideEnough { op := .read, off := 0#12, width := .w8 } = false ∧
    HostAccess.wellFormed { op := .read, off := 0#12, width := .w16 } = false := by decide

/-- R34: a misaligned access. -/
theorem test_wellFormed_refuses_alignment :
    HostAccess.aligned { op := .read, off := 0x402#12 } = false ∧
    HostAccess.wellFormed { op := .write 0#32, off := 0x019#12 } = false := by decide

/-! ## Decoding: each word is written from the tables of R53 and R58 to R60 -/

theorem test_decode_crc : decodeOpc 0b00000001#8 = .ok .crcA ∧ decodeOpc 0b00000010#8 = .ok .crcB := by decide

theorem test_decode_xchg : decodeOpc 0b00010000#8 = .ok .xchg := by decide

theorem test_decode_registers :
    decodeOpc 0b00100000#8 = .ok .regRd ∧ decodeOpc 0b00100001#8 = .ok .regWr ∧
    decodeOpc 0b00100010#8 = .ok .regOr ∧ decodeOpc 0b00100011#8 = .ok .regAnd := by decide

theorem test_decode_frames :
    decodeOpc 0b00110000#8 = .ok .sendData ∧ decodeOpc 0b00110001#8 = .ok .readData ∧
    decodeOpc 0b00110010#8 = .ok .rxStatus ∧ decodeOpc 0b00110011#8 = .ok .readTmo := by decide

theorem test_decode_block :
    decodeOpc 0b01000000#8 = .ok .transceive ∧ decodeOpc 0b01000001#8 = .ok .probe ∧
    decodeOpc 0b01000010#8 = .ok .probeAll := by decide

theorem test_decode_registry :
    decodeOpc 0b01010000#8 = .ok .tgtAlloc ∧ decodeOpc 0b01010001#8 = .ok .tgtInstall ∧
    decodeOpc 0b01010010#8 = .ok .tgtRemove ∧ decodeOpc 0b01010011#8 = .ok .tgtRead := by decide

theorem test_decode_pcb :
    decodePcb 0b00001010#8 = .ok (.pcbI false) ∧ decodePcb 0b00001011#8 = .ok (.pcbI true) ∧
    decodePcb 0b00011010#8 = .ok (.pcbIChained false) ∧ decodePcb 0b00011011#8 = .ok (.pcbIChained true) ∧
    decodePcb 0b10101010#8 = .ok (.pcbR false) ∧ decodePcb 0b10101011#8 = .ok (.pcbR true) ∧
    decodePcb 0b11111010#8 = .ok .pcbSWtx := by decide

/-- Z1, Z2 (R63), and the other S-blocks (R60). -/
theorem test_decode_refuses :
    decodeOpc 0x7F#8 = .error (.reservedCommand 0x7F#8) ∧ decodePcb 0xCA#8 = .error (.unknownPcb 0xCA#8) ∧
    decodePcb 0xFB#8 = .error (.unknownPcb 0xFB#8) := by decide

/-- Z3: bits 31:8 of the command word are ignored. -/
theorem test_decode_command_word : decodeCommandWord 0x00000101#32 = .ok .crcA := by decide

/-! ## One step of every instruction -/

/-- A state right after the accept of a command, with these operands, transmit buffer and registry, and with an
environment in which `n` select windows succeed and the peer answers `miso`. -/
def started (i : Instr) (a : Operands) (tx : List Byte) (registry : List Target) (n : Nat) (miso : List Byte) :
    State :=
  { State.reset with
    opc := encode i, busy := true, seq := .start, a := a, mem := Memory.store [] Config.txBase tx
    registry := registry, env := { busy := readyFor n, miso := miso } }

/-- A registry entry. -/
def card (tn : Byte) (fwt : Word) (mark : Bool) : Target where
  tn := tn
  uid := [0x11#8, 0x22#8, 0x33#8, 0x44#8]
  atqb := [1#8, 2#8, 3#8, 4#8, 5#8, 6#8, 7#8, 8#8, 9#8, 10#8, 11#8, 12#8]
  fwt := fwt
  mark := mark

/-- The engine about to classify the frame read, in an exchange with target 1 and its mark, with capacity `cap`. -/
def classifying (frame : List Byte) (mark : Bool) (cap : Word) (n : Nat) (miso : List Byte) : State :=
  { started .transceive { w0 := 1#32, w2 := cap } [] [card 1#8 5000#32 mark] n miso with
    estate := .awaitingResponse, seq := .received frame.length, frame := Memory.store [] 0 frame }

/-- Whether a step answers a next state with this property. -/
def answers (o : Host.Outcome State Fault Refusal) (p : State → Bool) : Bool :=
  match o with
  | .next t => p t
  | _ => false

/-- CRC_A of `00 00`, an ISO/IEC 14443-3 vector (95, 2.1). -/
theorem test_crcA : answers (exec .crcA (started .crcA { w0 := 2#32 } [0#8, 0#8] [] 0 []))
    (fun t => t.completed && t.result == 0x1EA0#32) = true := by decide +kernel

/-- A length of 1025 (95, 2.1). -/
theorem test_crcA_length : answers (exec .crcA (started .crcA { w0 := 1025#32 } [] [] 0 []))
    (fun t => t.err == .argLen && t.result == 0xFFFFFFFF#32 && t.env.bus == []) = true := by decide +kernel

/-- CRC_B of `00 00 00`, an ISO/IEC 14443-3 vector (95, 2.1). -/
theorem test_crcB : answers (exec .crcB (started .crcB { w0 := 3#32 } [0#8, 0#8, 0#8] [] 0 []))
    (fun t => t.completed && t.result == 0xC6CC#32) = true := by decide +kernel

/-- X1. -/
theorem test_xchg :
    answers (exec .xchg (started .xchg { w0 := 2#32, w1 := 4#32 } [0x04#8, 0x13#8] [] 1 [5#8, 0#8, 0#8, 0#8]))
      (fun t => t.result == 4#32 && t.memWord 0x800 == 0x00000005#32 &&
        mosiBytes t.env.bus == [0x04#8, 0x13#8, 0xFF#8, 0xFF#8, 0xFF#8, 0xFF#8]) = true := by decide +kernel

/-- X3. -/
theorem test_xchg_nothing : answers (exec .xchg (started .xchg {} [] [] 0 []))
    (fun t => t.err == .argLen && t.env.bus == []) = true := by decide +kernel

/-- A2: bits 31:8 of the address operand are ignored. -/
theorem test_regRd : answers (exec .regRd (started .regRd { w0 := 0x113#32 } [] [] 1 [5#8, 0x20#8, 0#8, 0#8]))
    (fun t => t.result == 0x2005#32 &&
      mosiBytes t.env.bus == [0x04#8, 0x13#8, 0xFF#8, 0xFF#8, 0xFF#8, 0xFF#8]) = true := by decide +kernel

/-- X7. -/
theorem test_regRd_idle : answers (exec .regRd
    { started .regRd {} [] [] 0 [1#8, 2#8, 3#8, 4#8] with env := { busy := [true, true, false], miso := [1#8, 2#8, 3#8, 4#8] } })
    (fun t => t.err == .idleTimeout && t.result == 0xFFFFFFFF#32 && !t.sel) = true := by decide +kernel

/-- A3. -/
theorem test_regWr : answers (exec .regWr (started .regWr { w0 := 0x10#32, w1 := 0x11223344#32 } [] [] 1 []))
    (fun t => t.result == 0#32 && t.err == .ok &&
      mosiBytes t.env.bus == [0x00#8, 0x10#8, 0x44#8, 0x33#8, 0x22#8, 0x11#8]) = true := by decide +kernel

/-- X5: nothing is sent and select is never asserted. -/
theorem test_regWr_notReady : answers (exec .regWr { started .regWr {} [] [] 0 [] with env := { busy := [false] } })
    (fun t => t.err == .notReady && t.env.bus == [.wait false 2000 false]) = true := by decide +kernel

/-- A4. -/
theorem test_regOr : answers (exec .regOr (started .regOr { w1 := 1#32 } [] [] 1 []))
    (fun t => mosiBytes t.env.bus == [0x01#8, 0x00#8, 0x01#8, 0x00#8, 0x00#8, 0x00#8]) = true := by decide +kernel

/-- A5. -/
theorem test_regAnd : answers (exec .regAnd (started .regAnd { w1 := 0xFFFFFFFE#32 } [] [] 1 []))
    (fun t => mosiBytes t.env.bus == [0x02#8, 0x00#8, 0xFE#8, 0xFF#8, 0xFF#8, 0xFF#8]) = true := by decide +kernel

/-- F1. -/
theorem test_sendData : answers (exec .sendData (started .sendData { w0 := 1#32, w1 := 7#32 } [0x26#8] [] 1 []))
    (fun t => t.err == .ok && mosiBytes t.env.bus == [0x09#8, 0x07#8, 0x26#8]) = true := by decide +kernel

/-- F6. -/
theorem test_sendData_validBits : answers (exec .sendData (started .sendData { w0 := 1#32, w1 := 9#32 } [] [] 0 []))
    (fun t => t.err == .argValidBits && t.env.bus == []) = true := by decide +kernel

/-- F9. -/
theorem test_readData : answers (exec .readData (started .readData { w0 := 2#32 } [] [] 1 [0x04#8, 0x00#8]))
    (fun t => t.result == 2#32 && t.rxByte 0 == 0x04#8 && t.rxByte 1 == 0x00#8 &&
      mosiBytes t.env.bus == [0x0A#8, 0x00#8, 0xFF#8, 0xFF#8]) = true := by decide +kernel

/-- F13. -/
theorem test_rxStatus : answers (exec .rxStatus (started .rxStatus {} [] [] 1 [0x00#8, 0xE1#8, 0x00#8, 0x00#8]))
    (fun t => t.result == 256#32 && t.result1 == 7#32) = true := by decide +kernel

/-- The bytes of a receive-status read that reports the count `n` below 256. -/
def counted (n : Nat) : List Byte := [BitVec.ofNat 8 n, 0#8, 0#8, 0#8]

/-- T7: the deadline poll's count is used. -/
theorem test_readTmo : answers (exec .readTmo
      (started .readTmo { w0 := 508#32, w1 := 2#32 } [] [] 4 (counted 0 ++ counted 2 ++ counted 3 ++ [1#8, 2#8, 3#8])))
    (fun t => t.result == 3#32 && t.rxByte 2 == 3#8 && t.k == 2 && t.prev == 2) = true := by decide +kernel

/-- T4: no response, after T + 1 polls. -/
theorem test_readTmo_none : answers (exec .readTmo
      (started .readTmo { w0 := 508#32, w1 := 3#32 } [] [] 4 (counted 0 ++ counted 0 ++ counted 0 ++ counted 0)))
    (fun t => t.completed && t.err == .ok && t.result == 0#32 && windowsOpened t.env.bus == 4) = true := by
  decide +kernel

/-- V28: the target-0 path. -/
theorem test_transceive_typeA : answers (exec .transceive
      (started .transceive { w1 := 2#32, w2 := 16#32, w3 := 10#32 } [0x30#8, 0x04#8] [] 4
        (counted 4 ++ counted 4 ++ [1#8, 2#8, 3#8, 4#8])))
    (fun t => t.completed && t.result == 4#32 && t.memWord 0x800 == 0x04030201#32 && t.estate == .idle &&
      (mosiBytes t.env.bus).take 4 == [0x09#8, 0x00#8, 0x30#8, 0x04#8]) = true := by decide +kernel

/-- V1, the entry: the I-block, and the read of the answer. -/
theorem test_transceive_entry : answers (exec .transceive
      (started .transceive { w0 := 1#32, w1 := 2#32, w2 := 1024#32 } [0x00#8, 0xA4#8] [card 1#8 5000#32 false] 4
        (counted 4 ++ counted 4 ++ [0x0A#8, 0x01#8, 0x90#8, 0x00#8])))
    (fun t => t.seq == .received 4 && t.estate == .awaitingResponse && t.frameByte 2 == 0x90#8 &&
      (mosiBytes t.env.bus).take 6 == [0x09#8, 0x00#8, 0x0A#8, 0x01#8, 0x00#8, 0xA4#8]) = true := by decide +kernel

/-- V1, the answer: the payload is delivered and the mark toggles. -/
theorem test_pcbI : answers (step (classifying [0x0A#8, 0x01#8, 0x90#8, 0x01#8] false 1024#32 0 []))
    (fun t => t.completed && t.err == .ok && t.result == 2#32 && t.rxByte 0 == 0x90#8 && t.rxByte 1 == 0x01#8 &&
      t.estate == .complete && t.registry == [card 1#8 5000#32 true]) = true := by decide +kernel

/-- V10: a payload that exceeds the capacity; nothing is stored and the mark stays. -/
theorem test_pcbI_overflow : answers (step (classifying [0x0A#8, 0x01#8, 0x11#8, 0x22#8] false 1#32 0 []))
    (fun t => t.err == .overflow && t.result == 0xFFFFFFFF#32 && t.mem == [] && t.estate == .failed &&
      t.registry == [card 1#8 5000#32 false]) = true := by decide +kernel

/-- V2, the first part: the ACK carries the toggled mark. -/
theorem test_pcbIChained : answers (step (classifying [0x1A#8, 0x01#8, 0xAA#8, 0xBB#8] false 1024#32 4
      (counted 3 ++ counted 3 ++ [0x0B#8, 0x01#8, 0xCC#8])))
    (fun t => t.seq == .received 3 && t.acc == 2 && t.level == 1 && t.rxByte 1 == 0xBB#8 && t.frameByte 2 == 0xCC#8 &&
      t.registry == [card 1#8 5000#32 true] &&
      (mosiBytes t.env.bus).take 4 == [0x09#8, 0x00#8, 0xAB#8, 0x01#8]) = true := by decide +kernel

/-- V9, the second part: level 1 is the maximum. -/
theorem test_pcbIChained_depth : answers (step { classifying [0x1B#8, 0x01#8, 0x22#8] true 1024#32 0 [] with level := 1 })
    (fun t => t.err == .chainDepth && t.estate == .failed && t.registry == [card 1#8 5000#32 true]) = true := by
  decide +kernel

/-- V5: no response, so a NAK with the current mark, and another read. -/
theorem test_pcbR_sent : answers (step (classifying [] true 1024#32 4
      (counted 4 ++ counted 4 ++ [0x0B#8, 0x01#8, 0x90#8, 0x00#8])))
    (fun t => t.seq == .received 4 && t.r == 1 &&
      (mosiBytes t.env.bus).take 4 == [0x09#8, 0x00#8, 0xAB#8, 0x01#8]) = true := by decide +kernel

/-- V14: an R-block received. -/
theorem test_pcbR_received : answers (step (classifying [0xAA#8, 0x01#8] false 1024#32 0 []))
    (fun t => t.err == .badPcb && t.estate == .failed && t.env.bus == []) = true := by decide +kernel

/-- V6: the extension is echoed with its third byte. -/
theorem test_pcbSWtx : answers (step (classifying [0xFA#8, 0x01#8, 0x05#8] false 1024#32 4
      (counted 4 ++ counted 4 ++ [0x0A#8, 0x01#8, 0x90#8, 0x00#8])))
    (fun t => t.seq == .received 4 && t.r == 1 && t.estate == .awaitingResponse &&
      (mosiBytes t.env.bus).take 5 == [0x09#8, 0x00#8, 0xFA#8, 0x01#8, 0x05#8]) = true := by decide +kernel

/-- V16: the sixth extension. -/
theorem test_pcbSWtx_retries : answers (step { classifying [0xFA#8, 0x01#8, 0x01#8] false 1024#32 0 [] with r := 5 })
    (fun t => t.err == .retries && t.estate == .failed && t.env.bus == []) = true := by decide +kernel

/-- Q1: the target answers. -/
theorem test_probe : answers (exec .probe (started .probe { w0 := 2#32 } [] [card 2#8 5000#32 true] 4
      (counted 2 ++ counted 2 ++ [0xAB#8, 0x02#8])))
    (fun t => t.result == 1#32 && t.result1 == 0#32 && t.registry == [card 2#8 5000#32 true] &&
      (mosiBytes t.env.bus).take 4 == [0x09#8, 0x00#8, 0xAB#8, 0x02#8]) = true := by decide +kernel

/-- Q7: the answer has the wrong mark; the target is removed. -/
theorem test_probe_mark : answers (exec .probe (started .probe { w0 := 2#32 } [] [card 2#8 5000#32 true] 4
      (counted 2 ++ counted 2 ++ [0xAA#8, 0x02#8])))
    (fun t => t.err == .ok && t.result == 0#32 && t.result1 == 4#32 && t.registry == []) = true := by decide +kernel

/-- Q11: target 1 answers, target 3 does not. -/
theorem test_probeAll : answers (exec .probeAll (started .probeAll {} [] [card 1#8 0#32 false, card 3#8 0#32 false] 5
      (counted 2 ++ [0xAA#8, 0x01#8] ++ counted 0)))
    (fun t => t.err == .ok && t.result == 1#32 && t.result1 == 1#32 && t.registry == [card 1#8 0#32 false]) = true := by
  decide +kernel

/-- Q12: a busy timeout after target 1 was removed. -/
theorem test_probeAll_notReady : answers (exec .probeAll
      { started .probeAll {} [] [card 1#8 0#32 false, card 3#8 0#32 false] 0 [] with
        env := { busy := readyFor 2 ++ [false], miso := counted 0 } })
    (fun t => t.err == .notReady && t.result == 0xFFFFFFFF#32 && t.result1 == 1#32 &&
      t.registry == [card 3#8 0#32 false]) = true := by decide +kernel

/-- G1. -/
theorem test_tgtAlloc :
    answers (exec .tgtAlloc (started .tgtAlloc {} [] [card 1#8 0#32 false, card 3#8 0#32 false] 0 []))
      (fun t => t.result == 2#32 && t.regcnt == 2) = true := by decide +kernel

/-- G4. -/
theorem test_tgtInstall :
    answers (exec .tgtInstall (started .tgtInstall { w0 := 1#32, w1 := 5000#32 }
        [0x11#8, 0x22#8, 0x33#8, 0x44#8, 1#8, 2#8, 3#8, 4#8, 5#8, 6#8, 7#8, 8#8, 9#8, 10#8, 11#8, 12#8] [] 0 []))
      (fun t => t.result == 0#32 && t.err == .ok && t.registry == [card 1#8 5000#32 false]) = true := by decide +kernel

/-- G6: target number 15. -/
theorem test_tgtInstall_number : answers (exec .tgtInstall (started .tgtInstall { w0 := 15#32 } [] [] 0 []))
    (fun t => t.err == .argTarget && t.registry == []) = true := by decide +kernel

/-- G7, its first command. -/
theorem test_tgtRemove : answers (exec .tgtRemove (started .tgtRemove { w0 := 2#32 } []
      [card 1#8 0#32 false, card 2#8 0#32 false, card 3#8 0#32 false] 0 []))
    (fun t => t.err == .ok && t.registry == [card 1#8 0#32 false, card 3#8 0#32 false]) = true := by decide +kernel

/-- G11. -/
theorem test_tgtRead : answers (exec .tgtRead (started .tgtRead { w0 := 3#32 } []
      [card 1#8 0#32 false, card 3#8 2000#32 true] 0 []))
    (fun t => t.result == 2000#32 && t.result1 == 0x00010103#32 && t.memWord 0x800 == 0x44332211#32 &&
      t.rxByte 15 == 12#8) = true := by decide +kernel

/-- Z1: a reserved command; the `STATUS` word. -/
theorem test_reserved : answers (step { started .crcA {} [] [] 0 [] with opc := 0x00#8 })
    (fun t => t.statusWord == 0x00004002#32 && t.result == 0xFFFFFFFF#32 && t.env.bus == []) = true := by decide +kernel

/-- Z4: a write to `ARG0` that lands while a command runs is lost and sets `OVR`. -/
theorem test_overrun : answers (exec .tgtAlloc { started .tgtAlloc {} [] [] 0 [] with
      env := { host := [.access { op := .write 5#32, off := 0x008#12 }] } })
    (fun t => t.ovr && t.arg.w0 == 0#32 && t.completed && t.result == 1#32 && t.env.replies == [.wrote]) = true := by
  decide +kernel

/-- Z9: `CTRL` reads its two bits. -/
theorem test_ctrl : (State.reset.hostWrite 0x000 0xFFFFFFFF#32).hostRead 0x000 = 0x00000003#32 := by decide +kernel

/-- P1, its fifth transaction: the write to `CMD` is accepted. -/
theorem test_accept : answers (step { State.reset with
      env := { host := [.access { op := .write 0x00000001#32, off := 0x004#12 }] } })
    (fun t => t.busy && t.seq == .start && t.opc == 0x01#8 && !t.done) = true := by decide +kernel

/-! ## Witnesses: each shows states and operands that meet the hypotheses of the statement it names, for each of its
clauses and at the boundaries of their ranges -/

/-- A step that answers a next state with a property. -/
theorem answers_next {o : Host.Outcome State Fault Refusal} {p : State → Bool} (h : answers o p = true) :
    ∃ t, o = .next t ∧ p t = true := by
  cases o with
  | next t => exact ⟨t, rfl, h⟩
  | fault _ => cases h
  | refused _ => cases h

/-- A registry of this many entries. -/
def cards (n : Nat) : List Target := (List.range n).map fun k => card (BitVec.ofNat 8 (k + 1)) 0#32 false

/-- An answer: polls of these counts, then these bytes. -/
def reply (counts : List Nat) (bytes : List Byte) : Answer := { polls := counts.map counted, bytes := bytes }

/-- The bytes of a receive-status read that reports the count 509. -/
def counted509 : List Byte := [0xFD#8, 0x01#8, 0#8, 0#8]

/-- A state with a quiet host in which a command runs and the environment supplies these answers, each after a window
without read bytes. -/
def supplying (i : Instr) (a : Operands) (tx : List Byte) (registry : List Target) (as : List Answer) : State :=
  started i a tx registry (as.map fun x => 1 + x.windows {}).sum (as.flatMap Answer.miso)

/-- `StatusFields`: a full registry. -/
theorem witness_StatusFields :
    State.regcnt { State.reset with registry := cards 14 } = 14 := by
  decide +kernel

/-- `StepRunsDecoded`: one state for each clause, and each kind of host event. -/
theorem witness_StepRunsDecoded :
    (State.reset.seq = .idle ∧ State.reset.env.host = []) ∧
    (∀ ev ∈ [HostEvent.access { op := .read, off := 0x018#12 }, .rst false, .rst true, .pass, .await],
      let s : State := { State.reset with env := { host := ev :: [.pass] } }
      s.seq = .idle ∧ s.env.host = ev :: [.pass]) ∧
    decodeOpc (started .tgtRead {} [] [] 0 []).opc = .ok .tgtRead ∧ (started .tgtRead {} [] [] 0 []).seq = .start ∧
    (classifying [0xFA#8] true 0#32 0 []).seq = .received (0 + 1) ∧
    decodePcb ((classifying [0xFA#8] true 0#32 0 []).frameByte 0) = .ok .pcbSWtx ∧
    (classifying [] true 0#32 0 []).seq = .received 0 ∧
    (classifying [] true 0#32 0 []).exchange? = some (card 1#8 5000#32 true, 0) := by
  decide +kernel

/-- `ReservedCommand`: the code 0. -/
theorem witness_ReservedCommand :
    let s := { started .crcA {} [] [] 0 [] with opc := 0x00#8 }
    s.quiet = true ∧ s.seq = .start ∧ ∀ i : Instr, i.format = .cmd → encode i ≠ s.opc := by
  refine ⟨rfl, rfl, fun i hi => ?_⟩
  cases i <;> first | decide | exact nomatch hi

/-- The state while `rst_n` is 0 meets the invariant. -/
theorem inv_held : Inv State.reset.assertReset := by
  refine ⟨⟨fun e he => (by cases he), List.nodup_nil⟩, rfl, rfl, by decide, fun _ => rfl, fun h => absurd rfl h, rfl,
    fun _ => rfl, by decide, fun n h => by cases h⟩

/-- A state in which a registry command runs meets the invariant. -/
theorem inv_started : Inv (started .tgtAlloc {} [] (cards 14) 0 []) := by
  refine ⟨⟨by decide +kernel, by decide +kernel⟩, by decide +kernel, rfl, by decide, fun _ => rfl,
    fun h => absurd rfl h, rfl, fun h => (by cases h), by decide, fun n h => by cases h⟩

/-- A state in which the engine is about to classify a frame, all retries used, meets the invariant. -/
theorem inv_classifying :
    Inv { classifying [0xFA#8, 0x01#8, 0x01#8] true 1024#32 0 [] with r := 5, level := 1, acc := 1024 } := by
  refine ⟨⟨by decide +kernel, by decide +kernel⟩, by decide +kernel, by decide +kernel, ?_, fun _ => rfl,
    fun h => absurd rfl h, rfl, fun h => (by cases h), by decide, fun n h => ?_⟩
  · exact ⟨fun _ h => (by cases h), fun _ => rfl⟩
  · injection h with h
    subst h
    exact ⟨rfl, by decide +kernel, rfl, by decide, by decide, by decide, by decide, by decide⟩

/-- `ResetInput`: both clauses with hypotheses; the last offset of the range that reads 0. -/
theorem witness_ResetInput :
    State.reset.rstn = true ∧ Inv State.reset.assertReset ∧ State.reset.assertReset.rstn = false ∧ 0x3FF < 0x400 :=
  ⟨rfl, inv_held, rfl, by decide⟩

/-- `ResetAbandons`: a next state, and a reset that comes at once. -/
theorem witness_ResetAbandons :
    let s := started .tgtAlloc {} [] [] 0 []
    let s' := { s with env := { host := [.rst false, .rst true] } }
    s.busy = true ∧ s.sel = false ∧ (∃ t, exec .tgtAlloc s = .next t) ∧ s'.busy = true ∧ s'.sel = false ∧
      s'.env.host = .rst false :: [.rst true] ∧ Instr.tgtAlloc.format = .cmd :=
  ⟨rfl, rfl, ⟨_, rfl⟩, rfl, rfl, rfl, rfl⟩

/-- `HostReads`: the first and last words of the buffers, and the ends of the reserved ranges. -/
theorem witness_HostReads :
    State.reset.busy = false ∧ 0 < 256 ∧ 255 < 256 ∧ 0x400 + 4 * 255 = 0x7FC ∧
    (0x024 ≤ 0x024 ∧ 0x024 < 0x400) ∧ (0x024 ≤ 0x3FF ∧ 0x3FF < 0x400) ∧ 0xC00 ≤ 0xC00 ∧
    (0xFFC#12 : BitVec 12).toNat % 4 = 0 ∧ (0x01A#12 : BitVec 12).toNat % 4 ≠ 0 := by
  decide +kernel

/-- `HostWrites`: a running and an idle machine, and the ends of the ranges of offsets. -/
theorem witness_HostWrites :
    (started .crcA {} [] [] 0 []).busy = true ∧ State.reset.busy = false ∧ 0x017 < 0x018 ∧
    (0x400 ≤ 0x400 ∧ 0x400 < 0x800) ∧ (0x400 ≤ 0x7FC ∧ 0x7FC < 0x800) ∧ (0x01C ≤ 0x01C ∧ 0x01C < 0x400) ∧
    (0x01C ≤ 0x3FF ∧ 0x3FF < 0x400) ∧ 0x800 ≤ 0x800 ∧ (0x7FC#12 : BitVec 12).toNat % 4 = 0 ∧
    State.reset.rstn = true ∧ (0x01A#12 : BitVec 12).toNat % 4 ≠ 0 := by
  decide +kernel

/-- `BusErrorResponse`: a narrow access, and a misaligned one. -/
theorem witness_BusErrorResponse :
    ({ op := .read, off := 0x000#12, width := .w16 } : HostAccess).width ≠ .w32 ∧
    ({ op := .write 0#32, off := 0x401#12 } : HostAccess).off.toNat % 4 ≠ 0 := by
  decide +kernel

/-- `AcceptsCommand`: idle, and while a command runs. -/
theorem witness_AcceptsCommand :
    State.reset.busy = false ∧ State.reset.rstn = true ∧
    (State.reset.accept 0x01#8).busy = true ∧ (State.reset.accept 0x01#8).rstn = true := by
  decide +kernel

/-- `InterruptFollowsDone`. -/
theorem witness_InterruptFollowsDone :
    (0x2#32 : Word).getLsbD 1 = true ∧ State.reset.busy = false := by
  decide +kernel

/-- `CrcAResult`: both sides of the length check. -/
theorem witness_CrcAResult :
    (started .crcA { w0 := 1024#32 } [] [] 0 []).quiet = true ∧ ¬ 1024 < (1024#32 : Word).toNat ∧
    (started .crcA { w0 := 1025#32 } [] [] 0 []).quiet = true ∧ 1024 < (1025#32 : Word).toNat := by
  decide +kernel

/-- `CrcBResult`: both sides of the length check. -/
theorem witness_CrcBResult :
    (started .crcB { w0 := 1024#32 } [] [] 0 []).quiet = true ∧ ¬ 1024 < (1024#32 : Word).toNat ∧
    (started .crcB { w0 := 1025#32 } [] [] 0 []).quiet = true ∧ 1024 < (1025#32 : Word).toNat := by
  decide +kernel

/-- `FrameSucceeds`: read bytes in one window and in two. -/
theorem witness_FrameSucceeds :
    let s := started .xchg {} [] [] 1 [7#8]
    let s' := { started .xchg {} [] [] 2 [7#8] with cfg := { readFraming := .splitWindows } }
    s.quiet = true ∧ s.supplied (readyFor (frameWindows s.cfg 1)) [7#8] ∧
      s'.quiet = true ∧ frameWindows s'.cfg 1 = 2 ∧ s'.supplied (readyFor (frameWindows s'.cfg 1)) [7#8] := by
  simp only [State.supplied]
  decide +kernel

/-- `WindowTimesOut`: one state for each clause. -/
theorem witness_WindowTimesOut :
    (let s : State := { State.reset with env := { busy := [false] } }
     s.quiet = true ∧ s.supplied [false] []) ∧
    (let s : State := { State.reset with env := { busy := [true, false], miso := [7#8] } }
     s.quiet = true ∧ s.supplied [true, false] [7#8]) ∧
    let s : State := { State.reset with env := { busy := [true, true, false], miso := [7#8] } }
    s.quiet = true ∧ s.supplied [true, true, false] [7#8] := by
  simp only [State.supplied]
  decide +kernel

/-- `WindowAlwaysReleases`. -/
theorem witness_WindowAlwaysReleases :
    (started .xchg {} [] [] 0 []).busy = true ∧ (started .xchg {} [] [] 0 []).sel = false := by
  decide +kernel

/-- `ReadTimeoutIsBounded`: the greatest capacity; a count above it, and a reset, with the one deadline poll. -/
theorem witness_ReadTimeoutIsBounded :
    let s := started .readTmo {} [] [] 1 (counted 1)
    let s' := { s with env := { s.env with host := [.pass, .rst false] } }
    (s.busy = true ∧ s.sel = false ∧ 508 ≤ 508) ∧
    (match readWithTimeout 0 0 s with | .err c _ => c == .rxOverflow | _ => false) = true ∧
    (match readWithTimeout 508 0 s' with | .cut t => !t.rstn | _ => false) = true := by
  decide +kernel

/-- `ExchangeResult`: both lengths too great, none, and the greatest lengths. -/
theorem witness_ExchangeResult :
    (started .xchg { w0 := 1025#32 } [] [] 0 []).quiet = true ∧ 1024 < (1025#32 : Word).toNat ∧
    (0#32 : Word).toNat + (0#32 : Word).toNat = 0 ∧
    let s := started .xchg { w0 := 1024#32, w1 := 1024#32 } [] [] 1 (List.replicate 1024 7#8)
    let rd := List.replicate 1024 7#8
    s.quiet = true ∧ s.a.w0.toNat ≤ 1024 ∧ s.a.w1.toNat ≤ 1024 ∧ s.a.w1.toNat = rd.length ∧
      0 < s.a.w0.toNat + rd.length ∧ s.supplied (readyFor (frameWindows s.cfg rd.length)) rd := by
  simp only [State.supplied]
  decide +kernel

/-- `RxStatusResult`. -/
theorem witness_RxStatusResult :
    let s := started .rxStatus {} [] [] 1 [0xFF#8, 0x01#8, 0#8, 0#8]
    s.quiet = true ∧ s.supplied (readyFor (frameWindows s.cfg 4)) [0xFF#8, 0x01#8, 0#8, 0#8] := by
  simp only [State.supplied]
  decide +kernel

/-- `RegisterReadResult`. -/
theorem witness_RegisterReadResult :
    let s := started .regRd { w0 := 0x13#32 } [] [] 1 [5#8, 0x20#8, 0#8, 0#8]
    s.quiet = true ∧ s.supplied (readyFor (frameWindows s.cfg 4)) [5#8, 0x20#8, 0#8, 0#8] := by
  simp only [State.supplied]
  decide +kernel

/-- `RegisterWriteResult`. -/
theorem witness_RegisterWriteResult :
    let s := started .regOr { w1 := 1#32 } [] [] 1 []
    s.quiet = true ∧ s.supplied (readyFor 1) [] ∧ (Instr.regOr = .regOr ∧ (0x01#8 : Byte) = s.cfg.opWriteRegOr) := by
  simp only [State.supplied]
  decide +kernel

/-- `TransportErrorsSurface`: every failure of a frame of two windows, and the greatest operands of each kind of frame. -/
theorem witness_TransportErrorsSurface :
    (∀ f ∈ frameFailures { readFraming := .splitWindows } [7#8] [8#8],
      let s : State := { started .xchg { w0 := 1#32, w1 := 1#32 } [7#8] [] 0 [] with
        cfg := { readFraming := .splitWindows }, env := { busy := f.busy, miso := f.miso } }
      s.quiet = true ∧ s.sel = false ∧ firstFrame s .xchg [7#8] [8#8].length s ∧ s.supplied f.busy f.miso) ∧
    (let s := started .xchg { w0 := 1024#32, w1 := 1024#32 } [] [] 0 []
     firstFrame s .xchg (s.txBytes 0 1024) 1024 s) ∧
    (let s := started .sendData { w0 := 260#32, w1 := 8#32 } [] [] 0 []
     firstFrame s .sendData ([0x09#8, 0#8] ++ s.txBytes 0 260) 0 s) ∧
    (let s := started .readData { w0 := 508#32 } [] [] 0 []
     firstFrame s .readData [0x0A#8, 0#8] 508 s) ∧
    (let s := started .readTmo { w0 := 508#32 } [] [] 0 []
     firstFrame s .readTmo [0x04#8, 0x13#8] 4 s) ∧
    (let s := started .transceive { w1 := 260#32, w2 := 1024#32 } [0x30#8] [] 0 []
     firstFrame s .transceive ([0x09#8, 0#8] ++ s.txBytes 0 260) 0 s) ∧
    (let s := started .transceive { w0 := 14#32, w1 := 258#32, w2 := 1024#32 } [] (cards 14) 0 []
     firstFrame s .transceive ([0x09#8, 0#8, 0x0A#8, 14#8] ++ s.txBytes 0 258) 0 { s with estate := .failed }) ∧
    (let s := started .probeAll {} [] (cards 2) 0 []
     firstFrame s .probeAll [0x09#8, 0#8, 0xAA#8, 1#8] 0 s) ∧
    let s : State := { started .readTmo { w0 := 508#32, w1 := 1#32 } [] [] 0 [] with
      env := { busy := readyFor 2 ++ [true, false], miso := counted 1 ++ counted 1 } }
    (Instr.readTmo.format = .cmd ∧ s.busy = true ∧ s.noReset = true) ∧
      ∃ t, exec .readTmo s = .next t ∧ t.completed = true ∧ t.err.isTransport = true := by
  refine ⟨?_, ⟨by decide, by decide, by decide, rfl, rfl, rfl⟩, ⟨by decide, by decide, by decide, rfl, rfl, rfl⟩,
    ⟨by decide, rfl, rfl, rfl⟩, ⟨by decide, rfl, rfl, rfl⟩,
    ⟨rfl, .inl ⟨by decide, by decide, by decide, by decide +kernel, rfl, rfl⟩⟩,
    ⟨rfl, .inr ⟨⟨by decide, by decide, by decide, by decide⟩, ⟨card 14#8 0#32 false, rfl, rfl⟩, rfl⟩⟩,
    ⟨⟨_, _, rfl, rfl⟩, rfl, rfl⟩, ⟨rfl, rfl, rfl⟩, ?_⟩
  · simp only [State.supplied, firstFrame]
    decide +kernel
  · obtain ⟨t, ht, hp⟩ := answers_next (p := fun t => t.completed && t.err.isTransport)
      (o := exec .readTmo { started .readTmo { w0 := 508#32, w1 := 1#32 } [] [] 0 [] with
        env := { busy := readyFor 2 ++ [true, false], miso := counted 1 ++ counted 1 } }) (by decide +kernel)
    exact ⟨t, ht, by simpa using hp⟩

/-- `SendDataResult`: one state for each clause, at the ends of the ranges. -/
theorem witness_SendDataResult :
    (started .sendData { w0 := 261#32 } [] [] 0 []).quiet = true ∧ 260 < (261#32 : Word).toNat ∧
    (260#32 : Word).toNat ≤ 260 ∧ (0#32 : Word).toNat = 0 ∧ 8 < (9#32 : Word).toNat ∧
    (let s := started .sendData { w0 := 260#32, w1 := 7#32 } [] [] 1 []
     s.quiet = true ∧ s.a.w0.toNat ≤ 260 ∧ (1 ≤ s.a.w1.toNat ∧ s.a.w1.toNat ≤ 7 ∧ (7#8 : Byte).toNat = s.a.w1.toNat) ∧
       s.supplied (readyFor 1) []) ∧
    let s := started .sendData { w0 := 0#32, w1 := 8#32 } [] [] 1 []
    s.quiet = true ∧ s.a.w0.toNat ≤ 260 ∧ s.a.w1.toNat = 8 ∧ s.supplied (readyFor 1) [] := by
  simp only [State.supplied]
  decide +kernel

/-- `ReadDataResult`: both sides of the length check. -/
theorem witness_ReadDataResult :
    (started .readData { w0 := 509#32 } [] [] 0 []).quiet = true ∧ 508 < (509#32 : Word).toNat ∧
    let s := started .readData { w0 := 508#32 } [] [] 1 (List.replicate 508 7#8)
    let rd := List.replicate 508 7#8
    s.quiet = true ∧ s.a.w0.toNat = rd.length ∧ rd.length ≤ 508 ∧
      s.supplied (readyFor (frameWindows s.cfg rd.length)) rd := by
  simp only [State.supplied]
  decide +kernel

/-- `ReadTimeoutResult`: a capacity of 509; no response; a stable count that fills the capacity; one above it. -/
theorem witness_ReadTimeoutResult :
    (started .readTmo { w0 := 509#32 } [] [] 0 []).quiet = true ∧ 508 < (509#32 : Word).toNat ∧
    (let s := started .readTmo { w0 := 508#32, w1 := 0#32 } [] [] 1 (counted 0)
     s.quiet = true ∧ s.a.w0.toNat ≤ 508 ∧ s.answers 0 (reply [0] []) ∧
       (reply [0] []).fits s.a.w0.toNat s.a.w1.toNat) ∧
    (let s := started .readTmo { w0 := 2#32, w1 := 5#32 } [] [] 4 (counted 0 ++ counted 2 ++ counted 2 ++ [7#8, 8#8])
     s.quiet = true ∧ s.a.w0.toNat ≤ 508 ∧ s.answers 0 (reply [0, 2, 2] [7#8, 8#8]) ∧
       (reply [0, 2, 2] [7#8, 8#8]).fits s.a.w0.toNat s.a.w1.toNat) ∧
    let s := started .readTmo { w0 := 0#32, w1 := 5#32 } [] [] 2 (counted 1 ++ counted 1)
    s.quiet = true ∧ s.a.w0.toNat ≤ 508 ∧ s.answers 0 (reply [1, 1] []) ∧
      (reply [1, 1] []).tooLong s.a.w0.toNat s.a.w1.toNat := by
  simp only [State.supplied, State.answers, Answer.fits, Answer.tooLong, Answer.polled]
  decide +kernel

/-- `TransceiveChecks`: the three length checks just failed; the target-0 check; a target that is not installed. -/
theorem witness_TransceiveChecks :
    (started .transceive { w2 := 1025#32 } [] [] 0 []).quiet = true ∧ 1024 < (1025#32 : Word).toNat ∧
    260 < (261#32 : Word).toNat ∧ 258 < (259#32 : Word).toNat ∧ lowByte 0x100#32 = 0#8 ∧
    (let s := started .transceive { w1 := 1#32, w2 := 1024#32 } [0x60#8] [] 0 []
     s.quiet = true ∧ ¬ (1024 < s.a.w2.toNat ∨ s.operandByte = 0#8 ∧ 260 < s.a.w1.toNat ∨
         s.operandByte ≠ 0#8 ∧ 258 < s.a.w1.toNat) ∧
       s.operandByte = 0#8 ∧ 1 ≤ s.a.w1.toNat ∧ s.txByte 0 ∈ s.cfg.authOpcodes) ∧
    let s := started .transceive { w0 := 5#32, w1 := 258#32, w2 := 1024#32 } [] [card 1#8 0#32 false] 0 []
    s.quiet = true ∧ ¬ (1024 < s.a.w2.toNat ∨ s.operandByte = 0#8 ∧ 260 < s.a.w1.toNat ∨
        s.operandByte ≠ 0#8 ∧ 258 < s.a.w1.toNat) ∧ s.operandByte ≠ 0#8 ∧ s.target? s.operandByte = none := by
  decide +kernel

/-- `TransceiveTypeA`: an answer that fills the capacity, and one above it. -/
theorem witness_TransceiveTypeA :
    (let a := reply [4, 4] [1#8, 2#8, 3#8, 4#8]
     let s := supplying .transceive { w1 := 260#32, w2 := 4#32, w3 := 10#32 } [0x30#8] [] [a]
     s.quiet = true ∧ s.operandByte = 0#8 ∧ s.a.w1.toNat ≤ 260 ∧ s.a.w2.toNat ≤ 1024 ∧
       ¬ (1 ≤ s.a.w1.toNat ∧ s.txByte 0 ∈ s.cfg.authOpcodes) ∧ s.answers 1 a ∧
       a.fits (min s.a.w2.toNat 508) s.a.w3.toNat) ∧
    let a := reply [5, 5] []
    let s := supplying .transceive { w1 := 0#32, w2 := 4#32, w3 := 10#32 } [] [] [a]
    s.quiet = true ∧ s.operandByte = 0#8 ∧ s.a.w1.toNat ≤ 260 ∧ s.a.w2.toNat ≤ 1024 ∧
      ¬ (1 ≤ s.a.w1.toNat ∧ s.txByte 0 ∈ s.cfg.authOpcodes) ∧ s.answers 1 a ∧
      a.tooLong (min s.a.w2.toNat 508) s.a.w3.toNat := by
  simp only [State.supplied, State.answers, Answer.fits, Answer.tooLong, Answer.polled]
  decide +kernel

/-- `TransceiveEntersEngine`: the longest payload; an answer, a count above 508, and a busy peer. -/
theorem witness_TransceiveEntersEngine :
    let e := card 1#8 5000#32 true
    let o : Operands := { w0 := 1#32, w1 := 258#32, w2 := 1024#32 }
    (let a := reply [2, 2] [0x0B#8, 0x01#8]
     let s := supplying .transceive o [] [e] [a]
     s.quiet = true ∧ s.operandByte ≠ 0#8 ∧ s.a.w1.toNat ≤ 258 ∧ s.a.w2.toNat ≤ 1024 ∧
       s.target? s.operandByte = some e ∧ s.answers 1 a ∧ a.fits 508 (e.fwt.toNat / 1000)) ∧
    (let a : Answer := { polls := [counted509, counted509], bytes := [] }
     let s := supplying .transceive o [] [e] [a]
     s.quiet = true ∧ s.target? s.operandByte = some e ∧ s.answers 1 a ∧ a.tooLong 508 (e.fwt.toNat / 1000)) ∧
    let s : State := { started .transceive o [] [e] 0 [] with env := { busy := [false] } }
    s.quiet = true ∧ s.target? s.operandByte = some e ∧ s.supplied [false] [] ∧ s.sel = false := by
  simp only [State.supplied, State.answers, Answer.fits, Answer.tooLong, Answer.polled]
  decide +kernel

/-- `FinalBlock`: a payload that fills the capacity, and one above it. -/
theorem witness_FinalBlock :
    let f := [0x0A#8, 0x01#8, 0x11#8, 0x22#8]
    let s := classifying f false 2#32 0 []
    let s' := classifying f false 1#32 0 []
    s.quiet = true ∧ s.seq = .received 4 ∧ s.target? s.operandByte = some (card 1#8 5000#32 false) ∧ 2 ≤ 4 ∧
      s.frameByte 1 = 1#8 ∧ s.acc + (4 - 2) ≤ s.a.w2.toNat ∧ s'.quiet = true ∧ s'.a.w2.toNat < s'.acc + (4 - 2) := by
  decide +kernel

/-- `ChainedBlock`: one state for each clause. -/
theorem witness_ChainedBlock :
    let f := [0x1A#8, 0x01#8, 0x11#8, 0x22#8]
    let a := reply [2, 2] [0x0B#8, 0x01#8]
    let s := classifying f false 2#32 (1 + a.windows {}) a.miso
    let s' := classifying f false 1#32 0 []
    s.quiet = true ∧ s.seq = .received 4 ∧ s.target? s.operandByte = some (card 1#8 5000#32 false) ∧
      s.frameByte 1 = 1#8 ∧ s.level ≠ 1 ∧ s.acc + (4 - 2) ≤ s.a.w2.toNat ∧ a.fits 508 5 ∧ s.answers 1 a ∧
      State.level { s with level := 1 } = 1 ∧ s'.quiet = true ∧ s'.level ≠ 1 ∧ s'.a.w2.toNat < s'.acc + (4 - 2) := by
  simp only [State.supplied, State.answers, Answer.fits, Answer.polled]
  decide +kernel

/-- `RBlock`: the last retry, no retry left, and an R-block received. -/
theorem witness_RBlock :
    let a := reply [2, 2] [0x0A#8, 0x01#8]
    let s := { classifying [] false 1024#32 (1 + a.windows {}) a.miso with r := 4 }
    let s' := classifying [0xAB#8, 0x01#8] false 1024#32 0 []
    s.quiet = true ∧ s.seq = .received 0 ∧ s.r < 5 ∧ s.target? s.operandByte = some (card 1#8 5000#32 false) ∧
      a.fits 508 5 ∧ s.answers 1 a ∧ State.r { s with r := 5 } = 5 ∧ s'.quiet = true ∧ s'.seq = .received 2 ∧
      s'.frameByte 1 = 1#8 := by
  simp only [State.supplied, State.answers, Answer.fits, Answer.polled]
  decide +kernel

/-- `ExtensionBlock`: the last retry, a block of two bytes, and no retry left. -/
theorem witness_ExtensionBlock :
    let a := reply [2, 2] [0x0A#8, 0x01#8]
    let s := { classifying [0xFA#8, 0x01#8, 0x05#8] false 1024#32 (1 + a.windows {}) a.miso with r := 4 }
    let s' := classifying [0xFA#8, 0x01#8] false 1024#32 0 []
    s.quiet = true ∧ s.seq = .received 3 ∧ s.r < 5 ∧ s.target? s.operandByte = some (card 1#8 5000#32 false) ∧
      s.frameByte 1 = 1#8 ∧ a.fits 508 5 ∧ s.answers 1 a ∧ State.r { s with r := 5 } = 5 ∧ s'.quiet = true ∧
      s'.seq = .received 2 ∧ s'.frameByte 1 = 1#8 := by
  simp only [State.supplied, State.answers, Answer.fits, Answer.polled]
  decide +kernel

/-- `RejectedFrames`: one byte, another target's frame, and a control byte of neither kind. -/
theorem witness_RejectedFrames :
    (let s := classifying [0x0A#8] false 0#32 0 []
     s.quiet = true ∧ s.seq = .received 1 ∧ s.target? s.operandByte = some (card 1#8 5000#32 false)) ∧
    (let s := classifying [0x0A#8, 0x02#8] false 0#32 0 []
     s.quiet = true ∧ s.seq = .received 2 ∧ s.frameByte 1 ≠ 1#8) ∧
    let s := classifying [0xC2#8, 0x01#8] false 0#32 0 []
    s.quiet = true ∧ s.seq = .received 2 ∧ s.frameByte 1 = 1#8 ∧
      ∀ i : Instr, i.format = .pcb → encode i ≠ s.frameByte 0 := by
  refine ⟨by decide +kernel, by decide +kernel, rfl, rfl, rfl, fun i hi => ?_⟩
  have : ∀ m : Bool, pcbIByte m ≠ 0xC2#8 ∧ pcbIChainedByte m ≠ 0xC2#8 ∧ pcbRByte m ≠ 0xC2#8 := by decide
  cases i <;> first | exact (this _).1 | exact (this _).2.1 | exact (this _).2.2 | decide

/-- `SingleBlockExchange`: the longest payload out, an answer that fills the capacity. -/
theorem witness_SingleBlockExchange :
    let e := card 1#8 5000#32 false
    let a := reply [4, 4] [0x0A#8, 0x01#8, 0x90#8, 0x00#8]
    let s := supplying .transceive { w0 := 1#32, w1 := 258#32, w2 := 2#32 } [] [e] [a]
    s.quiet = true ∧ s.seq = .start ∧ s.opc = 0x40#8 ∧ s.operandByte ≠ 0#8 ∧ s.a.w1.toNat ≤ 258 ∧
      s.a.w2.toNat ≤ 1024 ∧ s.target? s.operandByte = some e ∧ a.fits 508 (e.fwt.toNat / 1000) ∧ s.answers 1 a ∧
      a.bytes = [pcbIByte e.mark, e.tn] ++ [0x90#8, 0x00#8] ∧ [0x90#8, (0x00#8 : Byte)].length ≤ s.a.w2.toNat := by
  simp only [State.supplied, State.answers, Answer.fits, Answer.polled]
  decide +kernel

/-- `ChainedExchange`: V2 of 95_test_vectors.md. -/
theorem witness_ChainedExchange :
    let e := card 1#8 5000#32 false
    let a := reply [4, 4] [0x1A#8, 0x01#8, 0xAA#8, 0xBB#8]
    let b := reply [3, 3] [0x0B#8, 0x01#8, 0xCC#8]
    let s := supplying .transceive { w0 := 1#32, w1 := 2#32, w2 := 3#32 } [] [e] [a, b]
    s.quiet = true ∧ s.seq = .start ∧ s.opc = 0x40#8 ∧ s.operandByte ≠ 0#8 ∧ s.a.w1.toNat ≤ 258 ∧
      s.a.w2.toNat ≤ 1024 ∧ s.target? s.operandByte = some e ∧ a.fits 508 (e.fwt.toNat / 1000) ∧
      b.fits 508 (e.fwt.toNat / 1000) ∧ s.answersAll [a, b] ∧
      a.bytes = [pcbIChainedByte e.mark, e.tn] ++ [0xAA#8, 0xBB#8] ∧
      b.bytes = [pcbIByte (!e.mark), e.tn] ++ [0xCC#8] ∧ 2 + 1 ≤ s.a.w2.toNat := by
  simp only [State.supplied, State.answersAll, Answer.fits, Answer.polled]
  decide +kernel

/-- `CardNeverAnswers`: V3 of 95_test_vectors.md. -/
theorem witness_CardNeverAnswers :
    let e := card 2#8 0#32 false
    let a := reply [0] []
    let s := supplying .transceive { w0 := 2#32, w1 := 1#32, w2 := 1024#32 } [0x00#8] [e] (List.replicate 6 a)
    s.quiet = true ∧ s.seq = .start ∧ s.opc = 0x40#8 ∧ s.operandByte ≠ 0#8 ∧ s.a.w1.toNat ≤ 258 ∧
      s.a.w2.toNat ≤ 1024 ∧ s.target? s.operandByte = some e ∧ (List.replicate 5 a).length = 5 ∧
      (a.fits 508 (e.fwt.toNat / 1000) ∧ a.bytes = []) ∧ s.answersAll (a :: List.replicate 5 a) := by
  simp only [State.supplied, State.answersAll, Answer.fits, Answer.polled]
  decide +kernel

/-- `ProbeResult`: each verdict of R130, and a busy peer. -/
theorem witness_ProbeResult :
    let e := card 2#8 5000#32 true
    let o : Operands := { w0 := 2#32 }
    (started .probe o [] [] 0 []).target? 2#8 = none ∧
    (∀ p ∈ [(reply [2, 2] [0xAB#8, 0x02#8], 0), (reply [0, 0, 0, 0, 0, 0] [], 1), (reply [3, 3] [0xAB#8, 2#8, 0#8], 2),
        ({ polls := [counted509, counted509], bytes := [] }, 2), (reply [2, 2] [0xAB#8, 0x03#8], 3),
        (reply [2, 2] [0xAA#8, 0x02#8], 4)],
      (supplying .probe o [] [e] [p.1]).quiet = true ∧ (supplying .probe o [] [e] [p.1]).target? 2#8 = some e ∧
        (supplying .probe o [] [e] [p.1]).answers 1 p.1 ∧ p.1.toProbe e ∧ probeVerdict e p.1 = p.2) ∧
    let s : State := { started .probe o [] [e] 0 [] with env := { busy := [false] } }
    s.quiet = true ∧ s.target? s.operandByte = some e ∧ s.supplied [false] [] ∧ s.sel = false := by
  simp only [State.supplied, State.answers, Answer.toProbe, Answer.fits, Answer.tooLong, Answer.polled]
  decide +kernel

/-- `ProbeAllResult`: Q11 and Q12 of 95_test_vectors.md; a pass that ends, and one that a transport error ends. -/
theorem witness_ProbeAllResult :
    let l := [card 1#8 0#32 false, card 3#8 0#32 false]
    (let as := [reply [2] [0xAA#8, 0x01#8], reply [0] []]
     let s := supplying .probeAll {} [] l as
     s.quiet = true ∧ registryOk s.registry ∧ as.length = s.registry.length ∧
       (∀ p ∈ s.registry.zip as, p.2.toProbe p.1) ∧ s.answersAll as) ∧
    (let as := [reply [0] []]
     ∀ f ∈ frameFailures {} [0x09#8, 0#8, 0xAA#8, 3#8] [],
       let s : State := { started .probeAll {} [] l 0 [] with env := { busy := readyFor 2 ++ f.busy, miso := counted 0 } }
       s.quiet = true ∧ registryOk s.registry ∧ s.registry = [card 1#8 0#32 false] ++ card 3#8 0#32 false :: [] ∧
         as.length = 1 ∧ (∀ p ∈ [card 1#8 0#32 false].zip as, p.2.toProbe p.1) ∧ s.sel = false ∧
         s.supplied (readyFor (as.map fun a => 1 + a.windows s.cfg).sum ++ f.busy) (as.flatMap Answer.miso)) ∧
    ∀ o ∈ [exec .probeAll (supplying .probeAll {} [] l [reply [2] [0xAA#8, 0x01#8], reply [0] []]),
        exec .probeAll { started .probeAll {} [] l 0 [] with env := { busy := readyFor 2 ++ [false], miso := counted 0 } }],
      answers o State.completed = true := by
  simp only [registryOk, State.answersAll, State.supplied, Answer.toProbe, Answer.fits, Answer.tooLong, Answer.polled]
  decide +kernel

/-- `AllocResult`: an empty registry, a gap, the last number, and a full registry. -/
theorem witness_AllocResult :
    (started .tgtAlloc {} [] (cards 14) 0 []).quiet = true ∧
    (∀ n < 15, 1 ≤ n → ∃ e ∈ (started .tgtAlloc {} [] (cards 14) 0 []).registry, e.tn.toNat = n) ∧
    (¬ ∃ e ∈ cards 13, e.tn.toNat = 14) ∧ (∀ m < 14, 1 ≤ m → ∃ e ∈ cards 13, e.tn.toNat = m) ∧
    ¬ ∃ e ∈ cards 0, e.tn.toNat = 1 := by
  decide +kernel

/-- `InstallResult`: numbers 0 and 15; a number that is held; 14, which is free. -/
theorem witness_InstallResult :
    (started .tgtInstall {} [] [] 0 []).quiet = true ∧ (lowByte 0#32).toNat = 0 ∧ 14 < (lowByte 15#32).toNat ∧
    (1 ≤ (lowByte 1#32).toNat ∧ (lowByte 1#32).toNat ≤ 14 ∧ ∃ e ∈ cards 13, e.tn = lowByte 1#32) ∧
    (1 ≤ (lowByte 14#32).toNat ∧ (lowByte 14#32).toNat ≤ 14 ∧ ∀ e ∈ cards 13, e.tn ≠ lowByte 14#32) := by
  decide +kernel

/-- `RemoveResult`: an entry in the middle, and none. -/
theorem witness_RemoveResult :
    let s := started .tgtRemove { w0 := 2#32 } [] (cards 3) 0 []
    s.quiet = true ∧ s.registry = cards 1 ++ card 2#8 0#32 false :: [card 3#8 0#32 false] ∧
      (card 2#8 0#32 false).tn = s.operandByte ∧ registryOk s.registry ∧
      ∀ e ∈ (started .tgtRemove { w0 := 2#32 } [] (cards 1) 0 []).registry, e.tn ≠ 2#8 := by
  simp only [registryOk]
  decide +kernel

/-- `TargetReadResult`: the last entry, and none. -/
theorem witness_TargetReadResult :
    let s := started .tgtRead { w0 := 14#32 } [] (cards 14) 0 []
    s.quiet = true ∧ s.registry = cards 13 ++ card 14#8 0#32 false :: [] ∧
      (card 14#8 0#32 false).tn = s.operandByte ∧ registryOk s.registry ∧
      ∀ e ∈ (started .tgtRead { w0 := 2#32 } [] (cards 1) 0 []).registry, e.tn ≠ 2#8 := by
  simp only [registryOk]
  decide +kernel

/-- `InstructionEnds`, `ErrorCodes`, `EarlyErrors`: a command that ends with an early error. -/
theorem witness_InstructionEnds :
    let s := started .tgtAlloc {} [] (cards 14) 0 []
    s.busy = true ∧ s.noReset = true ∧ s.quiet = true ∧
      ∃ t, exec .tgtAlloc s = .next t ∧ t.completed = true ∧ t.err = .regFull ∧ t.err.errClass = 3#4 := by
  obtain ⟨t, ht, hp⟩ := answers_next (p := fun t => t.completed && t.err == .regFull && t.err.errClass == 3#4)
    (o := exec .tgtAlloc (started .tgtAlloc {} [] (cards 14) 0 [])) (by decide +kernel)
  simp only [Bool.and_eq_true, beq_iff_eq] at hp
  exact ⟨rfl, rfl, rfl, t, ht, hp.1.1, hp.1.2, hp.2⟩

/-- `RegistryChanges`, `EngineStates`: a block accepted; an engine entry that ends in an error; a payload one byte too
long for the engine to run. -/
theorem witness_EngineStates :
    (let s := classifying [0x0A#8, 0x01#8, 0x90#8] false 1024#32 0 []
     s.busy = true ∧ s.noReset = true ∧ (Instr.pcbI false).format = .pcb ∧
       ∃ t, exec (.pcbI false) s = .next t ∧ t.registry = [card 1#8 5000#32 true]) ∧
    (let s : State := { started .transceive { w0 := 1#32, w1 := 258#32, w2 := 1024#32 } []
       [card 1#8 5000#32 false] 0 [] with env := { busy := [true, false] } }
     s.busy = true ∧ s.noReset = true ∧ s.engineRuns ∧ ∃ t, exec .transceive s = .next t ∧ t.err = .latchTimeout) ∧
    ¬ (started .transceive { w0 := 1#32, w1 := 259#32 } [] [card 1#8 5000#32 false] 0 []).engineRuns := by
  obtain ⟨t, ht, hp⟩ := answers_next (p := fun t => t.registry == [card 1#8 5000#32 true])
    (o := exec (.pcbI false) (classifying [0x0A#8, 0x01#8, 0x90#8] false 1024#32 0 [])) (by decide +kernel)
  obtain ⟨u, hu, hq⟩ := answers_next (p := fun t => t.err == .latchTimeout)
    (o := exec .transceive { started .transceive { w0 := 1#32, w1 := 258#32, w2 := 1024#32 } []
       [card 1#8 5000#32 false] 0 [] with env := { busy := [true, false] } }) (by decide +kernel)
  exact ⟨⟨rfl, rfl, rfl, t, ht, by simpa using hp⟩,
    ⟨rfl, rfl, ⟨by decide, by decide, by decide, by decide⟩, u, hu, by simpa using hq⟩,
    fun h => absurd h.2.2.1 (by decide)⟩

/-- What the one answer a host got in a run says: the code of `ESTATE` and the bits `DONE` and `BUSY`. -/
def seen (o : Host.Outcome State Fault Refusal) : Option (BitVec 3 × BitVec 2) :=
  match o with
  | .next t => match t.env.replies with
    | [.data v] => some (v.extractLsb' 16 3, v.extractLsb' 0 2)
    | _ => none
  | _ => none

/-- `s` with one window supplied, a busy peer after it, and a host that reads `STATUS` before operation `j` of the run. -/
def watching (s : State) (j : Nat) : State :=
  { s with env := { busy := readyFor 1 ++ [false],
                    host := List.replicate j .pass ++ [.access { op := .read, off := 0x018#12 }, .await] } }

/-- `EngineStatesSeen`: the hypotheses at the first and the last operation of each clause, and what is seen there: the
transitions of R129 through `Chaining` and `ExtensionRequested`. -/
theorem witness_EngineStatesSeen :
    (∀ j ∈ [0, 1, 269], let s := watching (started .transceive { w0 := 1#32, w1 := 258#32, w2 := 1024#32 } []
        [card 1#8 5000#32 false] 0 []) j
      s.busy = true ∧ s.done = false ∧ s.target? s.operandByte = some (card 1#8 5000#32 false) ∧
        s.supplied (readyFor 1) [] ∧ s.readsStatus j ∧ s.engineRuns) ∧
    (let s := classifying [0x1A#8, 0x01#8, 0xAA#8] false 1#32 0 []
     s.done = false ∧ s.seq = .received 3 ∧ s.frameByte 1 = 1#8 ∧ s.level ≠ 1 ∧ s.acc + (3 - 2) ≤ s.a.w2.toNat ∧
       [0, 1, 10, 11].map (fun j => seen (exec (.pcbIChained false) (watching s j))) =
         [some (1#3, 1#2), some (2#3, 1#2), some (2#3, 1#2), some (1#3, 1#2)]) ∧
    (let s := { classifying [0xFA#8, 0x01#8, 0x05#8] false 1#32 0 [] with r := 4 }
     s.seq = .received 3 ∧ s.frameByte 1 = 1#8 ∧ s.r < 5 ∧
       [1, 11, 12].map (fun j => seen (exec .pcbSWtx (watching s j))) =
         [some (3#3, 1#2), some (3#3, 1#2), some (1#3, 1#2)]) ∧
    let s := { classifying [] false 1#32 0 [] with r := 4 }
    s.seq = .received 0 ∧ s.r < 5 ∧ s.estate = .awaitingResponse ∧
      seen (exec (.pcbR false) (watching s 11)) = some (1#3, 1#2) := by
  simp only [State.supplied, State.readsStatus, State.engineRuns]
  decide +kernel

/-- `AccessesLand`: a write that is discarded, the last one of a run, and one that more follows. -/
theorem witness_AccessesLand :
    let a : HostAccess := { op := .write 5#32, off := 0x7FC#12 }
    (let s := { started .tgtAlloc {} [] [] 0 [] with env := { host := [.access a] } }
     let u := State.hostAccess a { s with env := { s.env with host := [] } }
     s.busy = true ∧ s.env.host = .access a :: [] ∧ (0x7FC#12 : BitVec 12).toNat % 4 = 0 ∧ s.rstn = true ∧
       (0x400 ≤ (0x7FC#12 : BitVec 12).toNat ∧ (0x7FC#12 : BitVec 12).toNat < 0x800) ∧ u.quiet = true ∧
       answers (exec .tgtAlloc s) (fun t => t.ovr && t.env.replies == [.wrote]) = true) ∧
    let s := { started .tgtAlloc {} [] [] 0 [] with env := { host := [.access a, .pass] } }
    s.busy = true ∧ s.env.host = .access a :: [.pass] := by
  decide +kernel

/-- `AccessesDoNotInterfere`: a write of `ARG0` and a read of `STATUS` while the command runs. -/
theorem witness_AccessesDoNotInterfere :
    let s := { started .tgtAlloc {} [] [] 0 [] with env := { host :=
      [.access { op := .write 5#32, off := 0x008#12 }, .pass, .access { op := .read, off := 0x018#12 }] } }
    s.busy = true ∧ s.done = false ∧ s.noReset = true ∧ ∃ t, exec .tgtAlloc s = .next t ∧ t.env.replies.length = 2 := by
  obtain ⟨t, ht, hp⟩ := answers_next (p := fun t => t.env.replies.length == 2)
    (o := exec .tgtAlloc { started .tgtAlloc {} [] [] 0 [] with env := { host :=
      [.access { op := .write 5#32, off := 0x008#12 }, .pass, .access { op := .read, off := 0x018#12 }] } })
    (by decide +kernel)
  exact ⟨rfl, rfl, rfl, t, ht, by simpa using hp⟩

/-- `StepKeepsInvariant`, `StepNeverStops`, `CommandsEnd`: a running command, and the engine at its last retry. -/
theorem witness_StepKeepsInvariant :
    (let s := started .tgtAlloc {} [] (cards 14) 0 []
     Inv s ∧ s.busy = true ∧ ∃ t, step s = .next t) ∧
    let s := { classifying [0xFA#8, 0x01#8, 0x01#8] true 1024#32 0 [] with r := 5, level := 1, acc := 1024 }
    Inv s ∧ s.busy = true ∧ ∃ t, step s = .next t := by
  refine ⟨⟨inv_started, rfl, ?_⟩, inv_classifying, rfl, ?_⟩
  · obtain ⟨t, ht, -⟩ := answers_next (p := fun _ => true)
      (o := step (started .tgtAlloc {} [] (cards 14) 0 [])) (by decide +kernel)
    exact ⟨t, ht⟩
  · obtain ⟨t, ht, -⟩ := answers_next (p := fun _ => true)
      (o := step { classifying [0xFA#8, 0x01#8, 0x01#8] true 1024#32 0 [] with r := 5, level := 1, acc := 1024 })
      (by decide +kernel)
    exact ⟨t, ht⟩

end Sys2Proof.Tests
end

section
/-!
PROOFS. The words a host reads at `STATUS` and `CTRL` (R19, R22, R23, R147), and the state after reset (R156).
-/

namespace Sys2Proof.Machine

/-- R22: the bits of the word read at `STATUS`, from the flags up. -/
theorem State.statusWord_flags (s : State) :
    s.statusWord.getLsbD 0 = s.busy ∧ s.statusWord.getLsbD 1 = s.done ∧ s.statusWord.getLsbD 2 = s.ovr := by
  simp only [State.statusWord, BitVec.getLsbD_append]
  exact ⟨by cases s.busy <;> rfl, by cases s.done <;> rfl, by cases s.ovr <;> rfl⟩

/-- R22: the fields of more than one bit in the word read at `STATUS`, and its reserved bits. -/
theorem State.statusWord_fields (s : State) :
    s.statusWord.extractLsb' 3 5 = 0#5 ∧ s.statusWord.extractLsb' 8 8 = s.err.code ∧
    s.statusWord.extractLsb' 16 3 = s.estate.code ∧ s.statusWord.extractLsb' 19 5 = 0#5 ∧
    s.statusWord.extractLsb' 24 4 = BitVec.ofNat 4 s.regcnt ∧ s.statusWord.extractLsb' 28 4 = 0#4 := by
  simp only [State.statusWord]
  generalize BitVec.ofNat 4 s.regcnt = n, s.estate.code = e, s.err.code = c, BitVec.ofBool s.ovr = o,
    BitVec.ofBool s.done = d, BitVec.ofBool s.busy = b
  refine ⟨?_, ?_, ?_, ?_, ?_, ?_⟩ <;>
    (refine BitVec.eq_of_getLsbD_eq fun i hi => ?_
     simp only [BitVec.getLsbD_extractLsb', hi, decide_true, Bool.true_and, BitVec.getLsbD_append]
     interval_cases i <;> rfl)

/-- R19: the word read at `CTRL`. -/
theorem State.ctrlWord_fields (s : State) :
    s.ctrlWord.getLsbD 0 = s.crcEn ∧ s.ctrlWord.getLsbD 1 = s.ie ∧ s.ctrlWord.extractLsb' 2 30 = 0#30 := by
  simp only [State.ctrlWord]
  cases s.crcEn <;> cases s.ie <;> decide

/-- Settles O4: the flags, then the wider fields, then the codes, each by its table. -/
theorem statusFields : Obligations.StatusFields := by
  intro s
  obtain ⟨hbusy, hdone, hovr⟩ := s.statusWord_flags
  obtain ⟨hlow, herr, hestate, hmid, hcnt, hhigh⟩ := s.statusWord_fields
  obtain ⟨hcrc, hie, hctrl⟩ := s.ctrlWord_fields
  refine ⟨hbusy, hdone, hovr, hlow, herr, hestate, hmid, fun hle => ?_, hhigh, hcrc, hie, hctrl, ?_, ?_⟩
  · rw [hcnt, BitVec.toNat_ofNat, Nat.mod_eq_of_lt (by omega)]
  · cases s.estate <;> rfl
  · cases s.err <;> rfl

/-- Settles O8: the reset state is a literal, so each entry of R156 is read off it. -/
theorem resetState : Obligations.ResetState := by
  unfold Obligations.ResetState
  decide

end Sys2Proof.Machine
end

section
/-!
PROOFS. What a step is (R17, R62, R113, R140): the host side's next event while no command runs, else the instruction
`fetch` names, and the format of that instruction.
-/

namespace Sys2Proof.Machine

theorem step_idle {s : State} (h : s.seq = .idle) : step s = .next s.hostTurn := by
  simp only [step, h]

theorem step_fetched {s : State} {i : Instr} (h : s.seq ≠ .idle) (hf : fetch s = some i) : step s = exec i s := by
  rw [step]
  split
  · next hidle => exact absurd hidle h
  · rw [hf]

theorem step_unfetched {s : State} (h : s.seq ≠ .idle) (hf : fetch s = none) : step s = noInstruction s := by
  rw [step]
  split
  · next hidle => exact absurd hidle h
  · rw [hf]

@[simp] theorem State.hostTurn_nil {s : State} (h : s.env.host = []) : s.hostTurn = s := by
  simp only [State.hostTurn, h]

theorem State.hostTurn_cons {s : State} {ev : HostEvent} {es : List HostEvent} (h : s.env.host = ev :: es) :
    s.hostTurn = State.hostEvent ev (State.elapse 0 (s.withHost es)) := by
  simp only [State.hostTurn, h]

theorem fetch_start {s : State} (h : s.seq = .start) : fetch s = accepted (decodeOpc s.opc) := by
  simp only [fetch, h]

theorem fetch_received {s : State} {n : Nat} (h : s.seq = .received (n + 1)) :
    fetch s = accepted (decodePcb (s.frameByte 0)) := by
  simp only [fetch, h]

theorem fetch_noResponse {s : State} (h : s.seq = .received 0) :
    fetch s = s.exchange?.map fun x => .pcbR x.1.mark := by
  simp only [fetch, h]

theorem accepted_eq_some {ε α : Type} {x : Except ε α} {a : α} : accepted x = some a ↔ x = .ok a := by
  cases x <;> simp [accepted]

/-- Settles O5: the step by its three places, and the host side's turn by its event. -/
theorem stepRunsDecoded : Obligations.StepRunsDecoded := by
  intro s
  refine ⟨fun hs => ⟨fun hh => ?_, fun ev es hh => ?_⟩, fun i hs hd => ?_, fun i n hs hd => ?_, fun e hs hx => ?_⟩
  · rw [step_idle hs, State.hostTurn_nil hh]
  · rw [step_idle hs, State.hostTurn_cons hh]
    cases ev <;> rfl
  · exact step_fetched (by simp [hs]) (by rw [fetch_start hs, hd]; rfl)
  · exact step_fetched (by simp [hs]) (by rw [fetch_received hs, hd]; rfl)
  · exact step_fetched (by simp [hs]) (by rw [fetch_noResponse hs, hx]; rfl)

theorem mem_of_tableLookup {rows : List (Byte × Instr)} {b : Byte} {i : Instr} (h : tableLookup rows b = some i) :
    (b, i) ∈ rows := by
  induction rows with
  | nil => cases h
  | cons row rows ih =>
    obtain ⟨c, j⟩ := row
    rw [tableLookup] at h
    split at h
    · next hb =>
      injection h with h
      rw [hb, h]
      exact List.mem_cons_self
    · exact List.mem_cons_of_mem _ (ih h)

/-- R53: a command code decodes to a command, the one it encodes. -/
theorem decodeOpc_ok {b : Byte} {i : Instr} (h : decodeOpc b = .ok i) : i.format = .cmd ∧ encode i = b := by
  rw [decodeOpc] at h
  split at h
  · next j hj =>
    injection h with h
    have rows : ∀ row ∈ commandTable, row.2.format = .cmd ∧ encode row.2 = row.1 := by decide
    exact h ▸ rows (b, j) (mem_of_tableLookup hj)
  · cases h

/-- R58 to R60: a control byte decodes to the meaning of a control byte. -/
theorem decodePcb_format {b : Byte} {i : Instr} (h : decodePcb b = .ok i) : i.format = .pcb := by
  dsimp only [decodePcb] at h
  split at h
  · injection h with h; exact h ▸ rfl
  · split at h
    · injection h with h; exact h ▸ rfl
    · split at h
      · injection h with h; exact h ▸ rfl
      · split at h
        · injection h with h; exact h ▸ rfl
        · cases h

/-- A command is taken from `CMD.OPC` at the first step; a control byte where the engine has read a frame. -/
theorem fetch_some {s : State} {i : Instr} (h : fetch s = some i) :
    s.seq = .start ∧ i.format = .cmd ∧ encode i = s.opc ∨ (∃ n, s.seq = .received n) ∧ i.format = .pcb := by
  cases hs : s.seq with
  | idle => rw [fetch, hs] at h; cases h
  | start =>
    rw [fetch_start hs, accepted_eq_some] at h
    exact .inl ⟨rfl, decodeOpc_ok h⟩
  | received n =>
    refine .inr ⟨⟨n, rfl⟩, ?_⟩
    cases n with
    | zero =>
      rw [fetch_noResponse hs, Option.map_eq_some_iff] at h
      obtain ⟨x, -, rfl⟩ := h
      rfl
    | succ n =>
      rw [fetch_received hs, accepted_eq_some] at h
      exact decodePcb_format h

end Sys2Proof.Machine
end

section
/-!
PROOFS. The invariant (R22, R27, R30, R74, R139, R142, R155): the reset state meets it, and the host side's turn and
every instruction keep it. What a run does before its end comes from `exec_ends`; here only its end is looked at.
-/

namespace Sys2Proof.Machine

/-! ## Where the invariant holds at once -/

/-- The reset state meets the invariant, whether `rst_n` is released or not. -/
theorem inv_resetState (level : Bool) (m : Byte) (c : Config.Params) (e : Env) :
    Inv { State.reset with rstn := level, mosi := m, cfg := c, env := e } where
  registry := ⟨fun e he => (by cases he), List.nodup_nil⟩
  mem := rfl
  frame := rfl
  busy := by simp [State.reset]
  done hb := nomatch hb
  sentinel h := absurd rfl h
  sel := rfl
  held h := by
    have hlevel : level = false := h
    rw [hlevel]
  counters := ⟨Nat.zero_le _, Nat.zero_le _, Nat.zero_le _, Nat.zero_le _⟩
  engine n h := nomatch h

/-- Settles O55. -/
theorem resetMeetsInvariant : Obligations.ResetMeetsInvariant :=
  inv_resetState true 0#8 {} {}

/-- What a reset in a run leaves meets the invariant. -/
theorem CutFrom.inv {s t : State} (h : CutFrom s t) : Inv t := by
  have ht := inv_resetState false State.reset.mosi s.cfg t.env
  rw [h.1]
  exact ht

/-! ## The parts of the invariant that a run keeps -/

theorem Inv.sound {s : State} (h : Inv s) : Sound s :=
  ⟨h.registry, h.mem, h.frame, h.counters, fun n hn => (h.engine n hn).cap⟩

/-- R155: no command runs while `rst_n` = 0. -/
theorem Inv.rstn {s : State} (h : Inv s) (hb : s.busy = true) : s.rstn = true := by
  cases hr : s.rstn with
  | true => rfl
  | false =>
    have hidle : s.busy = false := congrArg State.busy (h.held hr)
    rw [hb] at hidle
    cases hidle

theorem Ran.worked {s t : State} (h : Ran s t) (hsel : t.sel = s.sel) : Worked s t :=
  (Heard.of_ran h (h.world hsel.trans)).worked

/-- A run that is not cut off leaves `rst_n` = 1. -/
theorem Inv.rstn_worked {s w : State} (h : Inv s) (hb : s.busy = true) (hw : Worked s w) : w.rstn = true :=
  (hw.field State.rstn fun _ => rfl).trans (h.rstn hb)

/-- R142: the completion of a run. -/
theorem Inv.complete {s w : State} (h : Inv s) (hb : s.busy = true) (hw : Worked s w) {c : ErrCode} {res : Word}
    (hres : c ≠ .ok → res = failResult) (res1 : Word) : Inv (w.complete c res res1) where
  registry := (hw.sound h.sound).registry
  mem := (hw.sound h.sound).mem
  frame := (hw.sound h.sound).frame
  busy := by simp
  done hbusy := nomatch hbusy
  sentinel := hres
  sel := hw.world.sel h.sel
  held hr := absurd ((h.rstn_worked hb hw).symm.trans hr) (by decide)
  counters := (hw.sound h.sound).counters
  engine n hseq := nomatch hseq

/-- R113: the end of a run in which the engine has read a frame. -/
theorem Inv.received {s w : State} (h : Inv s) (hb : s.busy = true) (hw : Worked s w) {n : Nat}
    (he : EngineOk (w.toReceived n) n) : Inv (w.toReceived n) where
  registry := (hw.sound h.sound).registry
  mem := (hw.sound h.sound).mem
  frame := (hw.sound h.sound).frame
  busy := by simp [hw.world.busy, hb]
  done _ := hw.world.done (h.done hb)
  sentinel herr := by
    have hsame : w.err = s.err := hw.field State.err fun _ => rfl
    exact (hw.field State.result fun _ => rfl).trans (h.sentinel (hsame ▸ herr))
  sel := hw.world.sel h.sel
  held hr := absurd ((h.rstn_worked hb hw).symm.trans hr) (by decide)
  counters := (hw.sound h.sound).counters
  engine m hseq := by
    injection hseq with hm
    exact hm ▸ he

/-- Every end of a run keeps the invariant, if what it leaves where a frame has been read is an engine's state. -/
theorem RunEnd.inv {P : State → After → State → Prop} {E : State → ErrCode → State → Prop} {s u : State}
    (h : RunEnd P E s u) (hi : Inv s) (hb : s.busy = true)
    (he : ∀ t v n, Ran s t → Worked s t → Worked t v → P t (.received n) v → EngineOk (v.toReceived n) n) : Inv u := by
  cases h with
  | complete t v w c res res1 first sel run last sel' how eq =>
    subst eq
    refine hi.complete hb (((first.worked sel).trans run).trans (last.worked sel')) (fun hc => ?_) res1
    rcases how with ⟨hok, -⟩ | ⟨hres, -⟩ | ⟨hres, -, -⟩
    · exact absurd hok hc
    · exact hres
    · exact hres
  | received t v n first sel run how eq =>
    subst eq
    exact hi.received hb ((first.worked sel).trans run) (he t v n first (first.worked sel) run how)
  | cut how => exact how.inv

/-! ## The engine's state where it has read a frame -/

/-- A mark toggle and an untouched registry keep every number installed (R27, R125). -/
theorem RegistryChange.target_isSome {i : Instr} (hi : i.format = .pcb) {s t : State} (h : RegistryChange i s t)
    {tn : Byte} (hs : (s.target? tn).isSome = true) : (t.target? tn).isSome = true := by
  have hshape : t.registry = s.registry ∨ ∃ e : Target,
      t.registry = s.registry.map fun x => if x.tn = e.tn then { x with mark := !e.mark } else x := by
    cases i with
    | pcbI _ | pcbIChained _ => exact h.imp id fun ⟨e, _, hr⟩ => ⟨e, hr⟩
    | pcbR _ | pcbSWtx => exact .inl h
    | _ => cases hi
  simp only [State.target?, List.find?_isSome] at hs ⊢
  obtain ⟨x, hx, htn⟩ := hs
  rcases hshape with hr | ⟨e, hr⟩
  · exact ⟨x, hr ▸ hx, htn⟩
  · refine ⟨_, hr ▸ List.mem_map_of_mem hx, ?_⟩
    split <;> exact htn

/-- What the host's accesses leave of the engine's state. -/
theorem EngineOk.of_ran {s t : State} {n : Nat} (h : EngineOk s n) (ht : Ran s t) : EngineOk t n where
  opc := (ht.field State.opc fun _ => rfl).trans h.opc
  target := (ht.field (fun u => (u.target? u.operandByte).isSome) fun _ => rfl).trans h.target
  estate := (ht.field State.estate fun _ => rfl).trans h.estate
  count := h.count
  retries := (ht.field State.r fun _ => rfl).trans_le h.retries
  level := (ht.field State.level fun _ => rfl).trans_le h.level
  acc := by rw [ht.field State.acc fun _ => rfl, ht.field State.a fun _ => rfl]; exact h.acc
  cap := by rw [ht.field State.a fun _ => rfl]; exact h.cap

/-- What a run for `TRANSCEIVE` has to leave where it has read a frame; the counters are in range after any run. -/
theorem EngineOk.of_worked {s t : State} {n : Nat} (hw : Worked s t) (hs : Sound s) (hopc : s.opc = 0x40#8)
    (htarget : (t.target? s.operandByte).isSome = true) (hestate : t.estate = .awaitingResponse)
    (hn : n ≤ Config.maxRead) (hacc : t.acc ≤ s.a.w2.toNat) (hcap : s.a.w2.toNat ≤ Config.bufSize) :
    EngineOk (t.toReceived n) n := by
  obtain ⟨-, hr, hlevel, -⟩ := (hw.sound hs).counters
  have ha : t.a = s.a := hw.field State.a fun _ => rfl
  refine ⟨(hw.field State.opc fun _ => rfl).trans hopc, ?_, hestate, hn, hr, hlevel, ?_, ?_⟩
  · show (t.target? t.operandByte).isSome = true
    rw [hw.operandByte]
    exact htarget
  · show t.acc ≤ t.a.w2.toNat
    rw [ha]
    exact hacc
  · show t.a.w2.toNat ≤ _
    rw [ha]
    exact hcap

/-- R113: a `TRANSCEIVE` that has read its first frame is in the engine. -/
theorem engineOk_of_entered {s t : State} {n : Nat} (hopc : s.opc = 0x40#8) (hw : Worked s t) (hs : Sound s)
    (h : Outcome .transceive s (.received n) t) : EngineOk (t.toReceived n) n := by
  obtain ⟨hreg, hn, ⟨-, htarget, -, hcap⟩, hestate, -, -, hacc⟩ := h
  have hsame : t.target? s.operandByte = s.target? s.operandByte := congrArg (List.find? _) hreg
  exact .of_worked hw hs hopc (hsame ▸ htarget) hestate hn (hacc ▸ Nat.zero_le _) hcap

/-- R113: a turn of the engine that has read another frame stays in the engine. -/
theorem engineOk_of_turned {i : Instr} (hi : i.format = .pcb) {s t : State} {m n : Nat} (he : EngineOk s m)
    (hw : Worked s t) (hs : Sound s) (h : Outcome i s (.received n) t) : EngineOk (t.toReceived n) n := by
  obtain ⟨hreg, hn, hturned⟩ := h
  have hback : t.estate = .awaitingResponse ∧ t.acc ≤ s.a.w2.toNat := by
    cases i with
    | pcbI _ | pcbIChained _ | pcbR _ | pcbSWtx =>
      obtain ⟨-, hestate, -, hacc⟩ := hturned
      exact ⟨hestate he.estate, hacc he.acc⟩
    | _ => cases hi
  exact .of_worked hw hs he.opc (hreg.target_isSome hi he.target) hback.1 hn hback.2 he.cap

/-! ## The steps of a running command -/

/-- No command but `TRANSCEIVE` ends with a frame read. -/
theorem Outcome.received_command {i : Instr} (hi : i.format = .cmd) {s t : State} {n : Nat}
    (h : Outcome i s (.received n) t) : i = .transceive := by
  obtain ⟨-, -, hturned⟩ := h
  cases i with
  | transceive => rfl
  | pcbI _ | pcbIChained _ | pcbR _ | pcbSWtx => cases hi
  | _ => exact nomatch hturned.1

/-- The instruction that `fetch` names keeps the invariant. -/
theorem Inv.exec {s u : State} {i : Instr} (hi : Inv s) (hb : s.busy = true) (hf : fetch s = some i)
    (h : exec i s = .next u) : Inv u := by
  refine (exec_ends (.inl hb) h).inv hi hb fun t v n ht hst hw hout => ?_
  rcases fetch_some hf with ⟨-, hcmd, hopc⟩ | ⟨⟨m, hseq⟩, hpcb⟩
  · obtain rfl := hout.received_command hcmd
    exact engineOk_of_entered ((ht.field State.opc fun _ => rfl).trans hopc.symm) hw (hst.sound hi.sound) hout
  · exact engineOk_of_turned hpcb ((hi.engine m hseq).of_ran ht) hw (hst.sound hi.sound) hout

/-- An unknown control byte is a bad PCB, as a received R-block is (R62, R123). -/
theorem unknownPcb_eq (s : State) : unknownPcb s = exec (.pcbR false) s := rfl

/-- A step without an instruction keeps the invariant (R62, R63). -/
theorem Inv.noInstruction {s u : State} (hi : Inv s) (hb : s.busy = true) (h : noInstruction s = .next u) : Inv u := by
  cases hs : s.seq with
  | idle => exact absurd hs (hi.busy.mp hb)
  | start =>
    rw [Machine.noInstruction, hs] at h
    injection h with h
    subst h
    have hrun : RunEnd (fun _ _ _ => False) (fun _ _ _ => True) s (runCommand (Op.raise .badCmd) s) :=
      runCommand_cases (.inl hb) fun t _ => ⟨Worked.refl t, trivial⟩
    exact hrun.inv hi hb fun _ _ _ _ _ _ hfalse => hfalse.elim
  | received m =>
    rw [Machine.noInstruction, hs] at h
    dsimp only at h
    rw [unknownPcb_eq] at h
    exact (exec_ends (.inl hb) h).inv hi hb fun t v n ht hst hw hout =>
      engineOk_of_turned rfl ((hi.engine m hs).of_ran ht) hw (hst.sound hi.sound) hout

/-! ## The host side's turn -/

theorem Inv.with_env {s : State} (h : Inv s) (e : Env) : Inv { s with env := e } :=
  { h with
    held := fun hr => congrArg (fun u : State => { u with env := e }) (h.held hr)
    engine := fun n hn => { h.engine n hn with } }

/-- R155: a low level resets the block once and is then held, a high one releases it. -/
theorem Inv.driveReset {s : State} (h : Inv s) (level : Bool) : Inv (s.driveReset level) := by
  cases level with
  | true =>
    exact { h with
      held := fun hr => nomatch hr
      engine := fun n hn => { h.engine n hn with } }
  | false =>
    rw [State.driveReset, if_neg (by decide)]
    split
    · exact inv_resetState false _ s.cfg _
    · exact h

/-- R144: an acknowledgement. -/
theorem Inv.writeStatus {s : State} (h : Inv s) (hr : s.rstn = true) (v : Word) : Inv (s.writeStatus v) :=
  { h with
    done := fun hb => by
      show (s.done && _) = false
      rw [h.done hb, Bool.false_and]
    held := fun hlow => absurd (hr.symm.trans hlow) (by decide)
    engine := fun n hn => { h.engine n hn with } }

/-- R140: a command is accepted. -/
theorem Inv.accept {s : State} (h : Inv s) (hr : s.rstn = true) (opc : Byte) : Inv (s.accept opc) :=
  { h with
    busy := by simp
    done := fun _ => rfl
    held := fun hlow => absurd (hr.symm.trans hlow) (by decide)
    engine := fun n hn => nomatch hn }

/-- R36: a write of a word of `TXBUF`. -/
theorem Inv.write_txbuf {s : State} (h : Inv s) (hr : s.rstn = true) {off : Nat} (hoff : 0x400 ≤ off ∧ off + 4 ≤ 0x800)
    (v : Word) : Inv { s with mem := Memory.store s.mem off (bytesLe32 v) } :=
  { h with
    mem := Memory.wf_store h.mem hoff.1 (hoff.2.trans (by decide))
    held := fun hlow => absurd (hr.symm.trans hlow) (by decide)
    engine := fun n hn => { h.engine n hn with } }

/-- R36: a write of a register or of `TXBUF` that is not discarded. -/
theorem Inv.writeGuarded {s : State} (h : Inv s) (hr : s.rstn = true) {off : Nat} (ha : off % 4 = 0)
    (hg : guardedOffset off = true) (v : Word) : Inv (s.writeGuarded off v) := by
  have plain : ∀ (c e : Bool) (w : Operands), Inv { s with crcEn := c, ie := e, arg := w } := fun _ _ _ =>
    { h with
      held := fun hlow => absurd (hr.symm.trans hlow) (by decide)
      engine := fun n hn => { h.engine n hn with } }
  rw [guardedOffset_iff] at hg
  unfold State.writeGuarded
  split
  · exact plain _ _ s.arg
  · split
    · exact h.accept hr _
    · split
      · exact plain s.crcEn s.ie _
      · split
        · exact plain s.crcEn s.ie _
        · split
          · exact plain s.crcEn s.ie _
          · split
            · exact plain s.crcEn s.ie _
            · exact h.write_txbuf hr (by omega) v

/-- R36: a host write while no command runs. -/
theorem Inv.hostWrite {s : State} (h : Inv s) (hr : s.rstn = true) (hb : s.busy = false) {off : Nat} (ha : off % 4 = 0)
    (v : Word) : Inv (s.hostWrite off v) := by
  unfold State.hostWrite
  split
  · exact h.writeStatus hr v
  · split
    · next hg =>
      rw [if_neg (by simp [hb])]
      exact h.writeGuarded hr ha hg v
    · exact h

/-- A host access while no command runs. -/
theorem Inv.hostAccess {s : State} (h : Inv s) (hb : s.busy = false) (a : HostAccess) : Inv (s.hostAccess a) := by
  unfold State.hostAccess
  split
  · next hwf =>
    have haligned : a.off.toNat % 4 = 0 := by
      simp only [HostAccess.wellFormed, HostAccess.aligned, Bool.and_eq_true, decide_eq_true_eq] at hwf
      exact hwf.2
    split
    · rw [State.afterRead, if_neg (by simp [hb])]
      exact h.with_env _
    · split
      · next hr => exact (h.hostWrite hr hb haligned _).with_env _
      · exact h.with_env _
  · exact h.with_env _

/-- The host side's turn while no command runs. -/
theorem Inv.hostTurn {s : State} (h : Inv s) (hb : s.busy = false) : Inv s.hostTurn := by
  cases hh : s.env.host with
  | nil => rw [State.hostTurn_nil hh]; exact h
  | cons ev es =>
    rw [State.hostTurn_cons hh]
    have hu : Inv (State.elapse 0 (s.withHost es)) := h.with_env _
    cases ev with
    | access a => exact hu.hostAccess hb a
    | rst level => exact hu.driveReset level
    | pass | await => exact hu

/-- Settles O56: the host side's turn while no command runs, else the instruction fetched, or none. -/
theorem stepKeepsInvariant : Obligations.StepKeepsInvariant := by
  intro s t hi h
  by_cases hs : s.seq = .idle
  · rw [step_idle hs] at h
    injection h with h
    subst h
    exact hi.hostTurn (by simpa [hs] using hi.busy)
  · have hb : s.busy = true := hi.busy.mpr hs
    cases hf : fetch s with
    | some i => exact hi.exec hb hf (by rwa [step_fetched hs hf] at h)
    | none => exact hi.noInstruction hb (by rwa [step_unfetched hs hf] at h)

end Sys2Proof.Machine
end

section
/-!
PROOFS. What a run does to the registry and to `ESTATE` in every environment (R23, R27, R125, R129, R139), with no
reset in store: what `exec_ends` says of its end, carried over the host's accesses before its first step and before its
completion.
-/

namespace Sys2Proof.Machine

/-- With no reset in store a run is not cut off. -/
theorem CutFrom.noReset {s t : State} (h : CutFrom s t) (hn : s.noReset = true) : False := by
  have hreset := h.2.1
  rw [hn] at hreset
  cases hreset

/-- How an instruction may change the registry does not look at what the host's accesses can change. -/
theorem RegistryChange.of_ran {i : Instr} {s t u : State} (ht : Ran s t) (h : RegistryChange i t u) :
    RegistryChange i s u := by
  have hr : t.registry = s.registry := ht.field State.registry fun _ => rfl
  have ho : t.operandByte = s.operandByte := ht.field State.operandByte fun _ => rfl
  cases i <;> simp only [RegistryChange, State.target?, hr, ho] at h ⊢ <;> exact h

/-- Settles O52: the run's part of the registry, at either of its two ends. -/
theorem registryChanges : Obligations.RegistryChanges := by
  intro i s u hb hn h
  have key : RegistryChange i s u := by
    cases exec_ends (.inl hb) h with
    | complete t v w c res res1 first sel run last sel' how eq =>
      subst eq
      have hlast : w.registry = v.registry := last.field State.registry fun _ => rfl
      refine (RegistryChange.of_ran first ?_).of_eq (u := w.complete c res res1) hlast
      rcases how with ⟨-, hout⟩ | ⟨-, hout⟩ | ⟨-, -, hfail⟩
      · exact hout.1
      · exact hout.1
      · exact hfail.2.1
    | received t v n first sel run how eq =>
      subst eq
      exact RegistryChange.of_ran first how.1
    | cut how => exact (how.noReset hn).elim
  cases i <;> exact key

/-- The engine runs in `s` where it does after the host's accesses (R107, R111). -/
theorem Ran.engineRuns {s t : State} (h : Ran s t) : t.engineRuns ↔ s.engineRuns :=
  iff_of_eq (h.field State.engineRuns fun _ => rfl)

/-- Every error code of an instruction's table is an error (R147). -/
theorem ErrCode.ne_ok_of_mem {i : Instr} {c : ErrCode} (h : c ∈ errorsOf i) : c ≠ .ok := by
  rintro rfl
  cases i <;> simp [errorsOf] at h

/-- The engine is at work in the run of `i` from `s` (R113): a turn of it, or a `TRANSCEIVE` that enters it. -/
def EngineOn (i : Instr) (s : State) : Prop := i.format = .pcb ∨ i = .transceive ∧ s.engineRuns

theorem EngineOn.of_ran {i : Instr} {s t : State} (h : EngineOn i s) (ht : Ran s t) : EngineOn i t :=
  h.imp id fun ⟨hi, hr⟩ => ⟨hi, ht.engineRuns.mpr hr⟩

/-- R129: `ESTATE` where a run completes normally. -/
theorem Outcome.done_estate {i : Instr} {s t : State} {res res1 : Word} (h : Outcome i s (.done res res1) t) :
    (i.format = .cmd → t.estate = s.estate) ∧ (EngineOn i s → t.estate = .complete) := by
  obtain ⟨-, hcmd, hpcb⟩ := h
  refine ⟨fun hi => (hcmd hi).1, fun hon => ?_⟩
  rcases hon with hi | ⟨rfl, hr⟩
  · exact hpcb hi
  · exact absurd hr ((hcmd rfl).2 rfl)

/-- R129: `ESTATE` where a run raises an error. -/
theorem Failure.estate {i : Instr} {s t : State} {c : ErrCode} (h : Failure i s c t) :
    (i.format = .cmd → (i ≠ .transceive ∨ ¬ s.engineRuns) → t.estate = s.estate) ∧
      (EngineOn i s → t.estate = .failed) := by
  obtain ⟨-, -, -, hpcb, hcmd⟩ := h
  refine ⟨fun hi hoff => ?_, fun hon => ?_⟩
  · rcases (hcmd hi).2 with ⟨hsame, -⟩ | ⟨ht, hr, -⟩
    · exact hsame
    · exact absurd ht (hoff.resolve_right fun hnot => hnot hr)
  · rcases hon with hi | ⟨rfl, hr⟩
    · exact hpcb hi
    · rcases (hcmd rfl).2 with ⟨-, hoff⟩ | ⟨-, -, hfailed⟩
      · exact absurd hr (hoff rfl)
      · exact hfailed

/-- R113: `ESTATE` where a frame has been read, and that the engine is then at work. -/
theorem Outcome.received_estate {i : Instr} {s t : State} {n : Nat} (h : Outcome i s (.received n) t) :
    EngineOn i s ∧ (i.format = .cmd ∨ s.estate = .awaitingResponse → t.estate = .awaitingResponse) := by
  by_cases hi : i.format = .cmd
  · obtain rfl := h.received_command hi
    obtain ⟨-, -, hr, hestate, -⟩ := h
    exact ⟨.inr ⟨rfl, hr⟩, fun _ => hestate⟩
  · obtain ⟨-, -, hturned⟩ := h
    cases i with
    | pcbI _ | pcbIChained _ | pcbR _ | pcbSWtx =>
      exact ⟨.inl rfl, fun hs => hturned.2.1 (hs.resolve_left hi)⟩
    | _ => exact absurd rfl hi

/-- `PROBE_ALL`, which ends in its own error (R132), leaves `ESTATE` as it was and does not enter the engine. -/
theorem Outcome.failed_estate {i : Instr} {s t : State} {c : ErrCode} {res1 : Word}
    (h : Outcome i s (.failed c res1) t) : t.estate = s.estate ∧ ¬ EngineOn i s := by
  obtain ⟨-, rfl, -, hestate, -⟩ := h
  exact ⟨hestate, by rintro (hi | ⟨hi, -⟩) <;> cases hi⟩

/-- Settles O53: `ESTATE` at the end of the run's own work, which the completion and the host's accesses leave. -/
theorem engineStates : Obligations.EngineStates := by
  intro i s u hb hn h
  cases exec_ends (.inl hb) h with
  | complete t v w c res res1 first sel run last sel' how eq =>
    subst eq
    have hsame : t.estate = s.estate := first.field State.estate fun _ => rfl
    have hlast : (w.complete c res res1).estate = v.estate := last.field State.estate fun _ => rfl
    have hover : (w.complete c res res1).completed = true := rfl
    rw [hlast]
    rcases how with ⟨hok, hout⟩ | ⟨-, hout⟩ | ⟨-, -, hfail⟩
    · exact ⟨fun hi _ => (hout.done_estate.1 hi).trans hsame,
        fun hon => .inl ⟨hover, hok, hout.done_estate.2 (EngineOn.of_ran hon first)⟩⟩
    · exact ⟨fun _ _ => hout.failed_estate.1.trans hsame,
        fun hon => absurd (EngineOn.of_ran hon first) hout.failed_estate.2⟩
    · exact ⟨fun hi hoff => (hfail.estate.1 hi (hoff.imp id (mt first.engineRuns.mp))).trans hsame,
        fun hon => .inr (.inl ⟨hover, ErrCode.ne_ok_of_mem hfail.1, hfail.estate.2 (EngineOn.of_ran hon first)⟩)⟩
  | received t v n first sel run how eq =>
    subst eq
    obtain ⟨hon, hestate⟩ := how.received_estate
    have hbusy : v.busy = true := run.world.busy.trans ((first.field State.busy fun _ => rfl).trans hb)
    refine ⟨fun hi hoff => ?_, fun _ => .inr (.inr ⟨hbusy, ⟨n, rfl⟩, fun hs => ?_⟩)⟩
    · rcases hon with hpcb | ⟨ht, hr⟩
      · rw [hi] at hpcb; cases hpcb
      · exact absurd ht (hoff.resolve_right fun hnot => hnot (first.engineRuns.mp hr))
    · exact hestate (hs.imp id (first.field State.estate fun _ => rfl).trans)
  | cut how => exact (how.noReset hn).elim

end Sys2Proof.Machine
end

section
/-!
PROOFS. What a host that reads `STATUS` once finds in `ESTATE` while the engine runs (R23, R35, R129): before the first
operation the state before the run, then the state the engine sends its frame in, and at the first poll after the frame
`AwaitingResponse`. The four frames the engine sends are cases of one argument (`Sends`).
-/

namespace Sys2Proof.Machine

/-- What the host has seen of `m` in a run stands at the end of it. -/
theorem seesEState_of_saw {i : Instr} {s m : State} {body : Op After} (hx : exec i s = command body s)
    (hm : m.env.replies = s.env.replies)
    (h : (hostSlot.andThen body s).Sat (fun _ u => Saw m u) (fun _ u => Saw m u) fun _ => False) :
    seesEState i s m.estate := by
  obtain ⟨t, v, ht, hsaw⟩ := runCommand_saw hm h
  exact ⟨t, v, hx.trans ht, hsaw⟩

/-! ## A read before the first operation -/

theorem Saw.of_worked {s t u : State} (h : Saw s t) (hw : Worked t u) : Saw s u := by
  obtain ⟨hq, v, hv, hword⟩ := h
  obtain ⟨-, -, -, hreplies, -⟩ := hw.world.calm hq
  exact ⟨hw.world.quiet hq, v, hreplies.trans hv, hword⟩

/-- A read before the first operation of any run finds `ESTATE` as it was. -/
theorem seesEState_first {i : Instr} {s : State} (hb : s.busy = true) (hd : s.done = false) (hj : s.readsStatus 0)
    (hi : i.format = .cmd ∨ s.exchange?.isSome = true) : seesEState i s s.estate := by
  have hbody := (exec_cases i (.inl hb)).resolve_right fun ⟨hpcb, hnone, _⟩ => by
    rcases hi with hi | hi
    · rw [hi] at hpcb; cases hpcb
    · rw [hnone] at hi; cases hi
  obtain ⟨body, hx, hworks⟩ := hbody
  obtain ⟨t, ht, hw, -⟩ := hostSlot_watched (.inr ⟨⟨0, hj⟩, hb, hd⟩)
  have hsaw : Saw s t := hw.seen 0 hj Nat.one_pos hb hd
  have hran : Ran s t := by
    have hslot := hostSlot_sat (.inl hb : s.steady)
    rw [ht] at hslot
    exact hslot.1
  refine seesEState_of_saw hx rfl ?_
  rw [Op.andThen_ok ht]
  refine (hworks t hran).mono (fun _ _ h => hsaw.of_worked h.1) (fun _ _ h => hsaw.of_worked h.1) fun u hcut => ?_
  have hnot := hcut.2.2
  rw [hsaw.1] at hnot
  cases hnot

/-! ## A read while the engine sends a frame -/

/-- An update that a host that watches cannot tell but by `ESTATE`. -/
def Discreet (f : State → State) : Prop := ∀ t, (f t).env = t.env ∧ (f t).busy = t.busy ∧ (f t).done = t.done

theorem Saw.of_discreet {f : State → State} (hf : Discreet f) {s t : State} (h : Saw s t) : Saw s (f t) := by
  obtain ⟨hq, v, hv, hword⟩ := h
  obtain ⟨henv, -, -⟩ := hf t
  exact ⟨(State.quiet_congr (by rw [henv])).trans hq, v, by rw [henv]; exact hv, hword⟩

/-- The run of `i` from `s` does `m` and sends the frame `data`, with the engine in the state `x`; then it does `f`,
which leaves the engine in `AwaitingResponse`, and reads the answer of `e` (R113, R120, R121). -/
structure Sends (i : Instr) (s : State) (e : Target) (data : List Byte) (m f : State → State) (x : EState) : Prop where
  short : data.length ≤ Config.maxSend
  run : ∃ body, exec i s = command body s ∧ ∀ t, Watched 1 s t →
    body t = inEngine ((sendFrame data 8).andThen ((Op.upd f).andThen (readAnswer e))) (m t)
  before : Discreet m
  between : Discreet f
  sending : ∀ t, Watched 1 s t → (m t).estate = x
  awaiting : ∀ t, t.estate = x → (f t).estate = .awaitingResponse

/-- A read of `STATUS` before operation `j + 1` of the run finds `x` while the frame is sent, and `AwaitingResponse` at
the first poll after it. -/
theorem Sends.sees {i : Instr} {s : State} {e : Target} {data : List Byte} {m f : State → State} {x : EState}
    (h : Sends i s e data m f x) (hb : s.busy = true) (hd : s.done = false) (hsup : s.supplied (readyFor 1) []) {j : Nat}
    (hj : s.readsStatus (j + 1)) :
    (j < data.length + 8 → seesEState i s x) ∧ (j = data.length + 8 → seesEState i s .awaitingResponse) := by
  obtain ⟨body, hx, hbody⟩ := h.run
  obtain ⟨t, ht, hw, hreads, htb, htd, hbusy, hreplies⟩ := hostSlot_reads hj hb hd
  obtain ⟨henv, hmb, hmd⟩ := h.before t
  have hmreads : (m t).reads j := by unfold State.reads; rw [henv]; exact hreads
  have hmready : readyFor 1 <+: (m t).env.busy := by rw [henv, hbusy]; exact hsup.1
  have hrun : hostSlot.andThen body s =
      inEngine ((sendFrame data 8).andThen ((Op.upd f).andThen (readAnswer e))) (m t) := by
    rw [Op.andThen_ok ht, hbody t hw]
  refine ⟨fun hlt => ?_, fun hpoll => ?_⟩
  · rw [← h.sending t hw]
    refine seesEState_of_saw hx (by rw [henv, hreplies]) ?_
    rw [hrun]
    exact inEngine_saw (sendRead_saw (fun _ _ => Saw.of_discreet h.between) e h.short hmreads (hmb.trans htb)
      (hmd.trans htd) hmready hlt)
  · subst hpoll
    obtain ⟨u, hstill, hu, hsat⟩ := sendRead_saw_poll h.between e h.short hmreads (hmb.trans htb) (hmd.trans htd) hmready
    have hestate : u.estate = x := (congrArg State.estate hstill).trans (h.sending t hw)
    rw [← h.awaiting u hestate]
    refine seesEState_of_saw hx (by rw [(h.between u).1, hu, henv, hreplies]) ?_
    rw [hrun]
    exact inEngine_saw hsat

/-! ## The four frames of the engine -/

/-- Two runs inside the engine that are the same end the same. -/
theorem inEngine_congr {α : Type} {x y : Op α} {s t : State} (h : x s = y t) : inEngine x s = inEngine y t := by
  simp only [inEngine, Op.catching, h]

/-- A byte of `FRAME` is the same while the host watches. -/
theorem Watched.frameByte {n : Nat} {s t : State} (h : Watched n s t) (k : Nat) : t.frameByte k = s.frameByte k := by
  rw [State.frameByte, State.frameByte, h.epoch, h.field State.frame fun _ => rfl]

theorem Watched.txBytes {n : Nat} {s t : State} (h : Watched n s t) (i l : Nat) : t.txBytes i l = s.txBytes i l := by
  have hbyte := State.memByte_congr (h.field State.mem fun _ => rfl) h.epoch
  simp only [State.txBytes, State.txByte, hbyte]

theorem discreet_id : Discreet id := fun _ => ⟨rfl, rfl, rfl⟩

theorem discreet_setEState (x : EState) : Discreet (State.setEState x) := fun _ => ⟨rfl, rfl, rfl⟩

/-- R113, R114: the I-block. -/
theorem sends_iBlock {s : State} {e : Target} (hr : s.engineRuns) (he : s.target? s.operandByte = some e) :
    Sends .transceive s e ([pcbIByte e.mark, e.tn] ++ s.txBytes 0 s.a.w1.toNat) State.enterEngine id
      .awaitingResponse where
  short := by
    rw [List.length_append, State.length_txBytes]
    obtain ⟨-, -, hlen, -⟩ := hr
    simp only [Config.maxSend, Config.maxTxPayload, List.length_cons, List.length_nil] at *
    omega
  run := by
    refine ⟨transceiveBody, rfl, fun t ht => ?_⟩
    obtain ⟨htn, -, hlen, hcap⟩ := hr
    have ha : t.a = s.a := ht.field State.a fun _ => rfl
    have ho : t.operandByte = s.operandByte := ht.field State.operandByte fun _ => rfl
    have het : t.target? t.operandByte = some e := (ht.field (fun u => u.target? u.operandByte) fun _ => rfl).trans he
    rw [transceiveBody_engine (ho ▸ htn) (ha ▸ hlen) (ha ▸ hcap) het, ha]
    refine inEngine_congr ?_
    rw [engineEnter, Op.upd_andThen, ht.txBytes]
    rfl
  before := fun _ => ⟨rfl, rfl, rfl⟩
  between := discreet_id
  sending := fun _ _ => rfl
  awaiting := fun _ h => h

/-- The turn of the engine on a frame read, taken after the host's accesses. -/
theorem engineTurn_watched {s : State} {e : Target} {n : Nat} (hs : s.seq = .received n)
    (he : s.target? s.operandByte = some e) (f : Target → Nat → Op After) {y : Op After} {m : State → State}
    (h : ∀ t, Watched 1 s t → classified e n (f e n) t = y (m t)) :
    ∃ body, engineTurn f s = command body s ∧ ∀ t, Watched 1 s t → body t = inEngine y (m t) :=
  ⟨_, engineTurn_eq hs he f, fun t ht => inEngine_congr (h t ht)⟩

/-- R119, R120: the ACK of a first part that is taken. -/
theorem sends_ack {s : State} {e : Target} {n : Nat} (he : s.target? s.operandByte = some e) (hs : s.seq = .received n)
    (hn : 2 ≤ n) (hown : s.frameByte 1 = e.tn) (hlevel : s.level ≠ 1) (hfit : s.acc + (n - 2) ≤ s.a.w2.toNat) :
    Sends (.pcbIChained e.mark) s e [pcbRByte (!e.mark), e.tn]
      (fun t => (t.takePart e n).levelUp.setEState .chaining) (State.setEState .awaitingResponse) .chaining where
  short := by simp [Config.maxSend]
  run := by
    refine engineTurn_watched hs he _ fun t ht => ?_
    have hlevel' : t.level ≠ 1 := by rw [ht.field State.level fun _ => rfl]; exact hlevel
    have hfit' : t.acc + (n - 2) ≤ t.a.w2.toNat := by
      rw [ht.field State.acc fun _ => rfl, ht.field State.a fun _ => rfl]; exact hfit
    rw [classified_own hn ((ht.frameByte 1).trans hown), if_pos rfl, onChained_eq hlevel' hfit']
  before := fun _ => by simp
  between := discreet_setEState _
  sending := fun _ _ => rfl
  awaiting := fun _ _ => rfl

/-- R121: the echo of an S(WTX) with a retry left. -/
theorem sends_echo {s : State} {e : Target} {n : Nat} (he : s.target? s.operandByte = some e) (hs : s.seq = .received n)
    (hn : 3 ≤ n) (hown : s.frameByte 1 = e.tn) (hr : s.r < Config.retryMax) :
    Sends .pcbSWtx s e [pcbWtxByte, e.tn, s.frameByte 2] (fun t => t.retried.setEState .extensionRequested)
      (State.setEState .awaitingResponse) .extensionRequested where
  short := by simp [Config.maxSend]
  run := by
    refine engineTurn_watched hs he _ fun t ht => ?_
    have hr' : t.r ≠ Config.retryMax := by rw [ht.field State.r fun _ => rfl]; exact hr.ne
    rw [classified_own (by omega) ((ht.frameByte 1).trans hown), onExtension, if_neg (by omega), if_neg hr',
      Op.upd_andThen, ht.frameByte]
  before := fun _ => ⟨rfl, rfl, rfl⟩
  between := discreet_setEState _
  sending := fun _ _ => rfl
  awaiting := fun _ _ => rfl

/-- R115: the NAK where the read brought no byte and a retry is left. -/
theorem sends_nak {s : State} {e : Target} (he : s.target? s.operandByte = some e) (hs : s.seq = .received 0)
    (hr : s.r < Config.retryMax) (hestate : s.estate = .awaitingResponse) (mark : Bool) :
    Sends (.pcbR mark) s e [pcbRByte e.mark, e.tn] State.retried id .awaitingResponse where
  short := by simp [Config.maxSend]
  run := by
    refine engineTurn_watched hs he _ fun t ht => ?_
    have hr' : t.r ≠ Config.retryMax := by rw [ht.field State.r fun _ => rfl]; exact hr.ne
    rw [classified, if_pos rfl, onNoResponse, if_neg hr', Op.upd_andThen, sendRBlock]
    rfl
  before := fun _ => ⟨rfl, rfl, rfl⟩
  between := discreet_id
  sending := fun t ht => (ht.field State.estate fun _ => rfl).trans hestate
  awaiting := fun _ h => h

theorem exchange?_of_received {s : State} {e : Target} {n : Nat} (hs : s.seq = .received n)
    (he : s.target? s.operandByte = some e) : s.exchange? = some (e, n) := by
  simp only [State.exchange?, hs, he, Option.map_some]

/-- Settles O59: a read before the first operation, or one while the clause's frame is sent or at the first poll. -/
theorem engineStatesSeen : Obligations.EngineStatesSeen := by
  intro s e j hb hd he hsup hj
  refine ⟨fun hr => ⟨fun hrange => ?_, fun hzero => ?_⟩, fun n hs hn hown hlevel hfit => ?_, fun n hs hn hown hr => ?_,
    fun hs hr hestate hlast => ?_⟩
  · obtain ⟨k, rfl⟩ := Nat.exists_eq_add_of_le' hrange.1
    have hsees := (sends_iBlock hr he).sees hb hd hsup hj
    simp only [List.length_append, State.length_txBytes, List.length_cons, List.length_nil] at hsees
    by_cases hk : k = 0 + 1 + 1 + s.a.w1.toNat + 8
    · exact hsees.2 hk
    · exact hsees.1 (by omega)
  · subst hzero
    exact seesEState_first hb hd hj (.inl rfl)
  · have hsees := fun k (hk : s.readsStatus (k + 1)) => (sends_ack he hs hn hown hlevel hfit).sees hb hd hsup hk
    refine ⟨fun hrange => ?_, fun hpoll => ?_⟩
    · obtain ⟨k, rfl⟩ := Nat.exists_eq_add_of_le' hrange.1
      exact (hsees k hj).1 (by simp only [List.length_cons, List.length_nil]; omega)
    · subst hpoll
      exact (hsees 10 hj).2 rfl
  · have hsees := fun k (hk : s.readsStatus (k + 1)) => (sends_echo he hs hn hown hr).sees hb hd hsup hk
    refine ⟨fun hrange => ?_, fun hpoll => ?_⟩
    · obtain ⟨k, rfl⟩ := Nat.exists_eq_add_of_le' hrange.1
      exact (hsees k hj).1 (by simp only [List.length_cons, List.length_nil]; omega)
    · subst hpoll
      exact (hsees 11 hj).2 rfl
  · cases j with
    | zero =>
      have hfirst := seesEState_first (i := .pcbR e.mark) hb hd hj (.inr (by rw [exchange?_of_received hs he]; rfl))
      rwa [hestate] at hfirst
    | succ k =>
      have hsees := (sends_nak he hs hr hestate e.mark).sees hb hd hsup hj
      simp only [List.length_cons, List.length_nil] at hsees
      by_cases hk : k = 10
      · exact hsees.2 hk
      · exact hsees.1 (by omega)

end Sys2Proof.Machine
end

section
/-!
PROOFS. The host port (R34 to R36): what an access answers, what a write does, and what neither changes.
-/

namespace Sys2Proof.Machine

theorem HostAccess.wellFormed_iff (a : HostAccess) :
    a.wellFormed = true ↔ a.width = .w32 ∧ a.off.toNat % 4 = 0 := by
  simp [HostAccess.wellFormed, HostAccess.wideEnough, HostAccess.aligned]

/-- R34: an access of another width or alignment. -/
theorem State.hostAccess_illFormed (s : State) {a : HostAccess} (h : a.width ≠ .w32 ∨ a.off.toNat % 4 ≠ 0) :
    s.hostAccess a = s.reply .busError := by
  rw [State.hostAccess, if_neg]
  rw [HostAccess.wellFormed_iff]
  rintro ⟨hwidth, halign⟩
  exact h.elim (· hwidth) (· halign)

/-- R35: an aligned read. -/
theorem State.hostAccess_read (s : State) {off : BitVec 12} (h : off.toNat % 4 = 0) :
    s.hostAccess { op := .read, off := off } = (s.afterRead off.toNat).reply (.data (s.hostRead off.toNat)) := by
  rw [State.hostAccess, if_pos ((HostAccess.wellFormed_iff _).mpr ⟨rfl, h⟩)]

/-- R36: an aligned write while `rst_n` = 1. -/
theorem State.hostAccess_write {s : State} (hr : s.rstn = true) {off : BitVec 12} (h : off.toNat % 4 = 0) (v : Word) :
    s.hostAccess { op := .write v, off := off } = (s.hostWrite off.toNat v).reply .wrote := by
  rw [State.hostAccess, if_pos ((HostAccess.wellFormed_iff _).mpr ⟨rfl, h⟩)]
  simp only [hr, if_true]

/-- R38: a read takes a free value at most, and none while `BUSY` = 0. -/
theorem State.afterRead_eq (s : State) (off : Nat) :
    s.afterRead off = { s with env := { s.env with rxDrawn := (s.afterRead off).env.rxDrawn } } ∧
      (s.busy = false → s.afterRead off = s) := by
  unfold State.afterRead
  split
  · next h => exact ⟨rfl, fun hb => by simp [hb] at h⟩
  · exact ⟨rfl, fun _ => rfl⟩

/-- R35: a word of `TXBUF`. -/
theorem State.hostRead_txbuf (s : State) {k : Nat} (hk : k < 256) :
    s.hostRead (0x400 + 4 * k) =
      le32 (s.txByte (4 * k)) (s.txByte (4 * k + 1)) (s.txByte (4 * k + 2)) (s.txByte (4 * k + 3)) := by
  rw [s.hostRead_high (by omega), if_pos (by omega)]
  rfl

/-- R35: a word of `RXBUF` while no command runs. -/
theorem State.hostRead_rxbuf {s : State} (hb : s.busy = false) {k : Nat} (hk : k < 256) :
    s.hostRead (0x800 + 4 * k) =
      le32 (s.rxByte (4 * k)) (s.rxByte (4 * k + 1)) (s.rxByte (4 * k + 2)) (s.rxByte (4 * k + 3)) := by
  rw [s.hostRead_high (by omega), if_neg (by omega), if_pos (by omega), if_neg (by simp [hb])]
  rfl

/-- R35: a reserved offset reads 0. -/
theorem State.hostRead_reserved (s : State) {off : Nat} (h : 0x024 ≤ off ∧ off < 0x400 ∨ 0xC00 ≤ off) :
    s.hostRead off = 0#32 := by
  rw [s.hostRead_high (by omega), if_neg (by omega), if_neg (by omega)]

/-- Settles O11: the registers by their offsets, the buffers and the reserved offsets above them, and the two kinds of
read access. -/
theorem hostReads : Obligations.HostReads := by
  intro s
  refine ⟨rfl, rfl, rfl, rfl, rfl, rfl, rfl, rfl, rfl, fun k hk => s.hostRead_txbuf hk,
    fun hb k hk => State.hostRead_rxbuf hb hk, fun off h => s.hostRead_reserved h, fun off h => ?_,
    fun off h => s.hostAccess_illFormed (.inr h)⟩
  obtain ⟨hchange, hidle⟩ := s.afterRead_eq off.toNat
  rw [s.hostAccess_read h]
  generalize s.afterRead off.toNat = u at hchange hidle ⊢
  refine ⟨(u.reply (.data (s.hostRead off.toNat))).env, ?_, ?_, fun hb => ?_⟩
  · rw [hchange]; rfl
  · rw [hchange]; rfl
  · rw [hidle hb]; rfl

/-- R36: a write of `CTRL`, `CMD` or `ARG0`..`ARG3` while no command runs is taken. -/
theorem State.hostWrite_register {s : State} (hb : s.busy = false) {off : Nat} (h : off < 0x018) (v : Word) :
    s.hostWrite off v = s.writeGuarded off v := by
  rw [State.hostWrite, if_neg (by omega), if_pos ((guardedOffset_iff off).mpr (.inl h)), if_neg (by simp [hb])]

/-- R36, R145: a write at a guarded offset while a command runs is discarded. -/
theorem State.hostWrite_discarded {s : State} (hb : s.busy = true) {off : Nat}
    (h : off < 0x018 ∨ 0x400 ≤ off ∧ off < 0x800) (v : Word) : s.hostWrite off v = { s with ovr := true } := by
  rw [State.hostWrite_busy hb, if_neg (by omega), if_pos ((guardedOffset_iff off).mpr h)]
  rfl

/-- R36: `RESULT`, `RESULT1`, `RXBUF` and the reserved offsets ignore writes. -/
theorem State.hostWrite_ignored (s : State) {off : Nat} (h : 0x01C ≤ off ∧ off < 0x400 ∨ 0x800 ≤ off) (v : Word) :
    s.hostWrite off v = s := by
  rw [State.hostWrite, if_neg (by omega), if_neg (by rw [guardedOffset_iff]; omega)]

/-- R39: byte `i` of the bytes of a word is its bits `8i+7 : 8i`. -/
theorem bytesLe32_getElem? (v : Word) {i : Nat} (hi : i < 4) :
    (bytesLe32 v)[i]? = some (v.extractLsb' (8 * i) 8) := by
  interval_cases i <;> rfl

/-- R36, R39: a stored word is read back byte by byte, and no other byte reads differently. -/
theorem State.memByte_storeWord (s : State) (off : Nat) (v : Word) :
    let t := { s with mem := Memory.store s.mem off (bytesLe32 v) }
    (∀ i < 4, t.memByte (off + i) = v.extractLsb' (8 * i) 8) ∧
      ∀ x, ¬ (off ≤ x ∧ x < off + 4) → t.memByte x = s.memByte x := by
  have hlen : (bytesLe32 v).length = 4 := rfl
  refine ⟨fun i hi => ?_, fun x hx => ?_⟩
  · simp only [State.memByte, Memory.get?_store, hlen]
    rw [if_pos (by omega), Nat.add_sub_cancel_left, bytesLe32_getElem? v hi, Option.getD_some]
  · simp only [State.memByte, Memory.get?_store, hlen, if_neg hx]

/-- Settles O12: `STATUS`, the discarded writes, those taken while no command runs, and those ignored. -/
theorem hostWrites : Obligations.HostWrites := by
  intro s v
  refine ⟨rfl, fun hb off h => State.hostWrite_discarded hb h v, fun hb => ?_, fun off h => s.hostWrite_ignored h v,
    fun off h hr => State.hostAccess_write hr h v, fun off h => s.hostAccess_illFormed (.inr h)⟩
  have taken : ∀ off < 0x018, s.hostWrite off v = s.writeGuarded off v := fun off h =>
    State.hostWrite_register hb h v
  refine ⟨taken 0x000 (by decide), taken 0x004 (by decide), taken 0x008 (by decide), taken 0x00C (by decide),
    taken 0x010 (by decide), taken 0x014 (by decide), fun off hlo hhi => ?_⟩
  obtain ⟨hbytes, hothers⟩ := s.memByte_storeWord off v
  exact ⟨_, State.hostWrite_txbuf hb ⟨hlo, hhi⟩ v, rfl, hbytes, hothers⟩

/-- Settles O13. -/
theorem busErrorResponse : Obligations.BusErrorResponse :=
  fun s _ h => s.hostAccess_illFormed h

end Sys2Proof.Machine
end

section
/-!
PROOFS. The host's accesses do not interfere (R37, R45, R141, R145). `State.alone` is a state as a host that makes no
access would have it. Every sequencer step goes from a state `s` as it goes from `s.alone`, and what it leaves is alike
(`Op.Deaf`); this is closed under the ways steps are put together, so it holds of the run of every instruction.
-/

namespace Sys2Proof.Machine

/-- A command runs that the host side has no reset in store for. -/
structure State.Running (s : State) : Prop where
  busy : s.busy = true
  done : s.done = false
  noReset : s.noReset = true

/-- What is left of a state when all that a host's accesses to a running command can change is wiped out, and with it
the accesses still to come. -/
def State.alone (s : State) : State :=
  { s with ovr := false, env := { s.env with host := [], replies := [], rxDrawn := 0 } }

/-- States that are alike but for what a host's accesses can change. -/
theorem State.eq_of_alone {s t : State} (h : t.alone = s.alone) :
    t = { s with ovr := t.ovr,
                 env := { s.env with host := t.env.host, replies := t.env.replies, rxDrawn := t.env.rxDrawn } } :=
  congrArg (fun u : State => { u with
    ovr := t.ovr
    env := { u.env with host := t.env.host, replies := t.env.replies, rxDrawn := t.env.rxDrawn } }) h

theorem Ran.running {s t : State} (h : Ran s t) (hs : s.Running) : t.Running :=
  ⟨(h.field State.busy fun _ => rfl).trans hs.busy, h.done hs.done, h.events hs.noReset⟩

/-! ## The host side's turn -/

/-- An access to a running command changes `OVR`, the answers, and the count of free values taken, at most. -/
theorem State.alone_hostAccess {s : State} (hb : s.busy = true) (hd : s.done = false) (a : HostAccess) :
    (s.hostAccess a).alone = s.alone := by
  have hstatus : ∀ v, (s.writeStatus v).alone = s.alone := fun v => by
    simp only [State.writeStatus, State.alone, hd, Bool.false_and]
  unfold State.hostAccess
  split
  · split
    · unfold State.afterRead
      split <;> rfl
    · split
      · rw [State.hostWrite_busy hb]
        split
        · exact hstatus _
        · split <;> rfl
      · rfl
  · rfl

theorem land_alone (es : List HostEvent) {s : State} (hb : s.busy = true) (hd : s.done = false) :
    (land es s).Sat (fun _ t => t.alone = s.alone) (fun _ _ => True) (fun _ => True) := by
  induction es generalizing s with
  | nil => exact rfl
  | cons e es ih =>
    match e with
    | .pass | .await => exact rfl
    | .rst true => exact ih hb hd
    | .rst false => trivial
    | .access a =>
      obtain ⟨-, -, hdone, -⟩ := State.hostAccess_busy hb a
      exact (ih (State.busy_hostAccess hb a) (hdone hd)).mono
        (fun _ _ h => h.trans (State.alone_hostAccess hb hd a)) (fun _ _ h => h) (fun _ h => h)

/-- With no reset in store the host side's turn lets the command go on, from a state that is alike. -/
theorem hostSlot_alone {s : State} (hs : s.Running) :
    ∃ t, hostSlot s = .ok () t ∧ t.alone = s.alone ∧ t.Running := by
  have hran := hostSlot_sat (.inl hs.busy : s.steady)
  have halone : (hostSlot s).Sat _ _ _ := land_alone s.env.host hs.busy hs.done
  cases h : hostSlot s with
  | ok v t =>
    rw [h] at hran halone
    exact ⟨t, rfl, halone, hran.1.running hs⟩
  | err c t => rw [h] at hran; exact hran.elim
  | cut t => rw [h] at hran; exact (hran.noReset hs.noReset).elim

/-! ## Steps that do not listen to the host side -/

/-- The ends `x` of a step from a state and `y` of a step from that state's `alone`: the same value or error, in states
that are alike. Neither step is cut off. -/
inductive Res.Echoes {α : Type} : Res α → Res α → Prop
  | ok {v : α} {t : State} (h : t.Running) : Echoes (.ok v t) (.ok v t.alone)
  | err {c : ErrCode} {t : State} (h : t.Running) : Echoes (.err c t) (.err c t.alone)

/-- The step goes as it would with a host that makes no access. -/
def Op.Deaf {α : Type} (x : Op α) : Prop := ∀ s : State, s.Running → (x s).Echoes (x s.alone)

section
variable {α β : Type}

theorem Res.Echoes.ite {c : Prop} [Decidable c] {p q p' q' : Res α} (hp : p.Echoes p') (hq : q.Echoes q') :
    (if c then p else q).Echoes (if c then p' else q') := by
  split
  · exact hp
  · exact hq

theorem Op.Deaf.ite {c : Prop} [Decidable c] {x y : Op α} (hx : x.Deaf) (hy : y.Deaf) : (if c then x else y).Deaf := by
  split
  · exact hx
  · exact hy

theorem Op.deaf_ret (v : α) : (Op.ret v).Deaf := fun _ hs => .ok hs

theorem Op.deaf_raise (c : ErrCode) : (Op.raise c : Op α).Deaf := fun _ hs => .err hs

theorem Op.deaf_upd (f : State → State) (hf : ∀ s, (f s).alone = f s.alone := by exact fun _ => rfl)
    (hr : ∀ s : State, s.Running → (f s).Running := by exact fun _ h => ⟨h.busy, h.done, h.noReset⟩) :
    (Op.upd f).Deaf := fun s hs => by
  rw [Op.upd_apply, Op.upd_apply, ← hf]
  exact .ok (hr s hs)

theorem Op.Deaf.bind {x : Op α} {f : α → Op β} (hx : x.Deaf) (hf : ∀ v, (f v).Deaf) : (x.bind f).Deaf := by
  intro s hs
  have h := hx s hs
  unfold Op.bind
  generalize x s = p, x s.alone = q at h
  cases h with
  | ok ht => exact hf _ _ ht
  | err ht => exact .err ht

theorem Op.Deaf.andThen {x : Op α} {y : Op β} (hx : x.Deaf) (hy : y.Deaf) : (x.andThen y).Deaf := hx.bind fun _ => hy

theorem Op.Deaf.catching {x : Op α} {h : ErrCode → Op α} (hx : x.Deaf) (hh : ∀ c, (h c).Deaf) :
    (x.catching h).Deaf := fun s hs => by
  have hxs := hx s hs
  unfold Op.catching
  generalize x s = p, x s.alone = q at hxs
  cases hxs with
  | ok ht => exact .ok ht
  | err ht => exact hh _ _ ht

theorem Op.deaf_read {f : State → α} (hf : ∀ s, f s.alone = f s) : (Op.get f).Deaf := fun s hs => by
  rw [Op.get_apply, Op.get_apply, hf]
  exact .ok hs

/-- A step that reads what the host side cannot change. -/
theorem Op.deaf_get {f : State → α} {g : α → Op β} (hf : ∀ s, f s.alone = f s) (hg : ∀ v, (g v).Deaf) :
    ((Op.get f).bind g).Deaf := fun s hs => by
  rw [Op.get_bind, Op.get_bind, hf]
  exact hg _ s hs

theorem hostSlot_deaf : hostSlot.Deaf := fun s hs => by
  obtain ⟨t, ht, halone, hrun⟩ := hostSlot_alone hs
  have hquiet : hostSlot s.alone = .ok () s.alone := rfl
  rw [ht, hquiet, ← halone]
  exact .ok hrun

/-- An elementary step: the host side's turn, then bus activity. -/
theorem elementary_deaf {v : State → α} {f : State → State} (hv : ∀ s, v s.alone = v s)
    (hf : ∀ s, (f s).alone = f s.alone)
    (hr : ∀ s : State, s.Running → (f s).Running := by exact fun _ h => ⟨h.busy, h.done, h.noReset⟩) :
    (hostSlot.andThen fun t => .ok (v t) (f t)).Deaf :=
  hostSlot_deaf.andThen fun s hs => by
    rw [hv, ← hf]
    exact .ok (hr s hs)

end

/-! ## The steps of the transport and of frame exchange -/

theorem waitBusy_deaf (want : Bool) (ms : Nat) : (waitBusy want ms).Deaf :=
  elementary_deaf (fun _ => rfl) (fun _ => rfl)

theorem selectLine_deaf (v : Bool) : (selectLine v).Deaf := elementary_deaf (fun _ => rfl) (fun _ => rfl)

theorem delay_deaf (us : Nat) : (delay us).Deaf := elementary_deaf (fun _ => rfl) (fun _ => rfl)

theorem sendByte_deaf (b : Byte) : (sendByte b).Deaf := elementary_deaf (fun _ => rfl) (fun _ => rfl)

theorem recvByte_deaf : recvByte.Deaf := elementary_deaf (fun _ => rfl) (fun _ => rfl)

theorem sendBytes_deaf (w : List Byte) : (sendBytes w).Deaf := by
  induction w with
  | nil => exact Op.deaf_ret ()
  | cons b w ih => exact (sendByte_deaf b).andThen ih

theorem recvBytes_deaf (r : Nat) : (recvBytes r).Deaf := by
  induction r with
  | zero => exact Op.deaf_ret []
  | succ r ih => exact recvByte_deaf.bind fun _ => ih.bind fun _ => Op.deaf_ret _

theorem windowBody_deaf (w : List Byte) (r : Nat) : (windowBody w r).Deaf :=
  (selectLine_deaf true).andThen <| Op.deaf_get (fun _ => rfl) fun _ =>
    (delay_deaf _).andThen <| (sendBytes_deaf w).andThen (recvBytes_deaf r)

theorem windowRelease_deaf (rd : List Byte) : (windowRelease rd).Deaf :=
  (waitBusy_deaf _ _).bind fun _ => .ite
    ((selectLine_deaf false).andThen <| (waitBusy_deaf _ _).bind fun _ => .ite (Op.deaf_ret rd) (Op.deaf_raise _))
    ((selectLine_deaf false).andThen (Op.deaf_raise _))

theorem spiWindow_deaf (w : List Byte) (r : Nat) : (spiWindow w r).Deaf :=
  (waitBusy_deaf _ _).bind fun _ => .ite ((windowBody_deaf w r).bind windowRelease_deaf) (Op.deaf_raise _)

theorem spiFrame_deaf (w : List Byte) (r : Nat) : (spiFrame w r).Deaf :=
  Op.deaf_get (fun _ => rfl) fun _ => .ite (spiWindow_deaf w r) ((spiWindow_deaf w 0).andThen (spiWindow_deaf [] r))

theorem regRead_deaf (addr : Byte) : (regRead addr).Deaf := Op.deaf_get (fun _ => rfl) fun _ => spiFrame_deaf _ 4

theorem regWrite_deaf (op addr : Byte) (v : Word) : (regWrite op addr v).Deaf :=
  (spiFrame_deaf _ 0).andThen (Op.deaf_ret ())

theorem regWriteCommand_deaf {op : State → Byte} (h : ∀ s, op s.alone = op s) : (regWriteCommand op).Deaf :=
  fun s hs => by
    unfold regWriteCommand
    rw [h]
    exact (regWrite_deaf _ _ _).andThen (Op.deaf_ret _) s hs

theorem sendFrame_deaf (data : List Byte) (vb : Nat) : (sendFrame data vb).Deaf :=
  .ite (Op.deaf_raise _) <| .ite (Op.deaf_raise _) <|
    Op.deaf_get (fun _ => rfl) fun _ => (spiFrame_deaf _ 0).andThen (Op.deaf_ret ())

theorem readFrame_deaf (n : Nat) : (readFrame n).Deaf :=
  .ite (Op.deaf_raise _) <| Op.deaf_get (fun _ => rfl) fun w => spiFrame_deaf w n

theorem getRxStatus_deaf : getRxStatus.Deaf :=
  Op.deaf_get (fun _ => rfl) fun _ => (regRead_deaf _).bind fun _ => Op.deaf_ret _

theorem pollLoop_deaf (left : Nat) : (pollLoop left).Deaf := by
  induction left with
  | zero => exact getRxStatus_deaf.bind fun _ => Op.deaf_ret _
  | succ left ih =>
    refine getRxStatus_deaf.bind fun st s hs => .ite (.ok hs) ?_
    exact ((Op.deaf_upd _).andThen <| (delay_deaf _).andThen ih) s hs

theorem readWithTimeout_deaf (cap T : Nat) : (readWithTimeout cap T).Deaf :=
  (Op.deaf_upd _).andThen <| (pollLoop_deaf T).bind fun cnt =>
    .ite (Op.deaf_ret 0) <| .ite (Op.deaf_raise _) <| (readFrame_deaf cnt).bind fun _ =>
      (Op.deaf_upd _).andThen (Op.deaf_ret cnt)

theorem deliverFrame_deaf (n : Nat) : (deliverFrame n).Deaf := (Op.deaf_upd _).andThen (Op.deaf_ret _)

/-! ## The block engine and the probe -/

theorem inEngine_deaf {α : Type} {x : Op α} (h : x.Deaf) : (inEngine x).Deaf :=
  h.catching fun _ => (Op.deaf_upd _).andThen (Op.deaf_raise _)

theorem readAnswer_deaf (e : Target) : (readAnswer e).Deaf := (readWithTimeout_deaf _ _).bind fun _ => Op.deaf_ret _

theorem sendRBlock_deaf (mark : Bool) (tn : Byte) : (sendRBlock mark tn).Deaf := sendFrame_deaf _ _

theorem engineEnter_deaf (e : Target) (nout : Nat) : (engineEnter e nout).Deaf := fun s hs =>
  ((Op.deaf_upd _).andThen <| (sendFrame_deaf _ 8).andThen (readAnswer_deaf e)) s hs

theorem typeA_deaf (nout cap T : Nat) : (typeA nout cap T).Deaf := fun s hs =>
  .ite (.err hs) (((sendFrame_deaf _ 8).andThen <| (readWithTimeout_deaf _ T).bind deliverFrame_deaf) s hs)

theorem State.target?_alone (s : State) (tn : Byte) : s.alone.target? tn = s.target? tn := rfl

theorem State.lowestFree_alone (s : State) : s.alone.lowestFree = s.lowestFree := rfl

theorem State.operandByte_alone (s : State) : s.alone.operandByte = s.operandByte := rfl

theorem transceiveBody_deaf : transceiveBody.Deaf := fun s hs => by
  refine .ite (.err hs) (.ite (.err hs) (.ite (.err hs) (.ite (typeA_deaf _ _ _ s hs) ?_)))
  rw [State.operandByte_alone, State.target?_alone]
  cases s.target? s.operandByte with
  | none => exact .err hs
  | some e => exact inEngine_deaf (engineEnter_deaf e _) s hs

theorem onNoResponse_deaf (e : Target) : (onNoResponse e).Deaf := fun s hs =>
  .ite (.err hs) (((Op.deaf_upd _).andThen <|
    (sendRBlock_deaf e.mark e.tn).andThen (readAnswer_deaf e)) s hs)

theorem classified_deaf (e : Target) (n : Nat) {byPcb : Op After} (h : byPcb.Deaf) : (classified e n byPcb).Deaf :=
  fun s hs => .ite (onNoResponse_deaf e s hs) (.ite (.err hs) (.ite (.err hs) (h s hs)))

theorem acceptPart_deaf (e : Target) (n : Nat) : (acceptPart e n).Deaf := fun s hs =>
  .ite (.err hs) ((Op.deaf_upd (State.takePart e n)) s hs)

theorem onFinal_deaf (e : Target) (n : Nat) : (onFinal e n).Deaf :=
  (acceptPart_deaf e n).andThen <| (Op.deaf_upd _).andThen fun _ hs => .ok hs

theorem onChained_deaf (e : Target) (n : Nat) : (onChained e n).Deaf := fun s hs =>
  .ite (.err hs) (((acceptPart_deaf e n).andThen <| (Op.deaf_upd _).andThen <|
    (sendRBlock_deaf _ _).andThen <| (Op.deaf_upd _).andThen (readAnswer_deaf e)) s hs)

theorem onExtension_deaf (e : Target) (n : Nat) : (onExtension e n).Deaf := fun s hs =>
  .ite (.err hs) (.ite (.err hs) (((Op.deaf_upd _).andThen <|
    (sendFrame_deaf _ 8).andThen <| (Op.deaf_upd _).andThen (readAnswer_deaf e)) s hs))

theorem probeRead_deaf (e : Target) : (probeRead e).Deaf :=
  ((readWithTimeout_deaf _ _).bind fun _ => Op.deaf_read fun _ => rfl).catching fun _ =>
    .ite (Op.deaf_ret 2) (Op.deaf_raise _)

theorem probeOne_deaf (e : Target) : (probeOne e).Deaf :=
  (sendRBlock_deaf e.mark e.tn).andThen <| (probeRead_deaf e).bind fun _ =>
    .ite (Op.deaf_ret 0) ((Op.deaf_upd _).andThen (Op.deaf_ret _))

theorem probeEach_deaf (es : List Target) (removed : Nat) : (probeEach es removed).Deaf := by
  induction es generalizing removed with
  | nil => exact fun _ hs => .ok hs
  | cons e es ih =>
    intro s hs
    have h := probeOne_deaf e s hs
    unfold probeEach
    generalize probeOne e s = p, probeOne e s.alone = q at h
    cases h with
    | ok ht => exact ih _ _ ht
    | err ht => exact .ok ht

/-! ## All instructions -/

/-- From every state in the same exchange as `s`, `x` runs one and the same body, which does not listen to the host
side; or it is the fault of a control byte outside an exchange. -/
def RunsDeaf (x : State → Host.Outcome State Fault Refusal) (s : State) : Prop :=
  (∃ body : Op After, body.Deaf ∧ ∀ t, t.exchange? = s.exchange? → x t = command body t) ∨
    ∀ t, t.exchange? = s.exchange? → x t = .fault .noExchange

theorem RunsDeaf.command {x : State → Host.Outcome State Fault Refusal} {body : Op After}
    (hx : ∀ t, x t = Machine.command body t) (h : body.Deaf) (s : State) : RunsDeaf x s :=
  .inl ⟨body, h, fun t _ => hx t⟩

theorem engineTurn_deaf {byPcb : Target → Nat → Op After} (h : ∀ e n, (byPcb e n).Deaf) (s : State) :
    RunsDeaf (engineTurn byPcb) s := by
  cases hx : s.exchange? with
  | none => exact .inr fun t ht => by rw [engineTurn, ht, hx]
  | some p =>
    obtain ⟨e, n⟩ := p
    exact .inl ⟨_, inEngine_deaf (classified_deaf e n (h e n)), fun t ht => by rw [engineTurn, ht, hx]⟩

theorem crcInput_deaf : crcInput.Deaf := fun _ hs => .ite (.err hs) (.ok hs)

theorem exec_deaf (i : Instr) (s : State) : RunsDeaf (exec i) s := by
  cases i with
  | crcA | crcB => exact .command (fun _ => rfl) (crcInput_deaf.bind fun _ => Op.deaf_ret _) s
  | xchg =>
    refine .command (fun _ => rfl) (fun t ht => ?_) s
    exact .ite (.err ht) (((spiFrame_deaf _ _).bind fun _ => (Op.deaf_upd _).andThen (Op.deaf_ret _)) t ht)
  | regRd =>
    refine .command (fun _ => rfl) (fun t ht => ?_) s
    exact ((regRead_deaf _).bind fun _ => Op.deaf_ret _) t ht
  | regWr | regOr | regAnd => exact .command (fun _ => rfl) (regWriteCommand_deaf fun _ => rfl) s
  | sendData =>
    refine .command (fun _ => rfl) (fun t ht => ?_) s
    exact .ite (.err ht) (((sendFrame_deaf _ _).andThen (Op.deaf_ret _)) t ht)
  | readData =>
    refine .command (fun _ => rfl) (fun t ht => ?_) s
    exact ((readFrame_deaf _).bind fun _ => (Op.deaf_upd _).andThen (Op.deaf_ret _)) t ht
  | rxStatus => exact .command (fun _ => rfl) (getRxStatus_deaf.bind fun _ => Op.deaf_ret _) s
  | readTmo =>
    refine .command (fun _ => rfl) (fun t ht => ?_) s
    exact .ite (.err ht) (((readWithTimeout_deaf _ _).bind deliverFrame_deaf) t ht)
  | transceive => exact .command (fun _ => rfl) transceiveBody_deaf s
  | probe =>
    refine .command (fun _ => rfl) (fun t ht => ?_) s
    rw [State.operandByte_alone, State.target?_alone]
    cases t.target? t.operandByte with
    | none => exact .err ht
    | some e => exact ((probeOne_deaf e).bind fun _ => Op.deaf_ret _) t ht
  | probeAll =>
    refine .command (fun _ => rfl) (fun t ht => ?_) s
    exact probeEach_deaf t.registry 0 t ht
  | tgtAlloc =>
    refine .command (fun _ => rfl) (fun t ht => ?_) s
    rw [State.lowestFree_alone]
    cases t.lowestFree with
    | none => exact .err ht
    | some n => exact .ok ht
  | tgtInstall =>
    refine .command (fun _ => rfl) (fun t ht => ?_) s
    refine .ite (.err ht) (.ite (.err ht) ?_)
    exact ((Op.deaf_upd fun u => u.install u.newTarget).andThen (Op.deaf_ret _)) t ht
  | tgtRemove =>
    refine .command (fun _ => rfl) (fun t ht => ?_) s
    refine .ite ?_ (.err ht)
    exact ((Op.deaf_upd (State.removeTarget t.operandByte)).andThen (Op.deaf_ret _)) t ht
  | tgtRead =>
    refine .command (fun _ => rfl) (fun t ht => ?_) s
    dsimp only
    rw [State.operandByte_alone, State.target?_alone]
    cases t.target? t.operandByte with
    | none => exact .err ht
    | some e => exact ((Op.deaf_upd fun u => (u.storeRx 0 e.uid).storeRx 4 e.atqb).andThen (Op.deaf_ret _)) t ht
  | pcbI m => exact engineTurn_deaf (fun e n => .ite (onFinal_deaf e n) (Op.deaf_raise _)) s
  | pcbIChained m => exact engineTurn_deaf (fun e n => .ite (onChained_deaf e n) (Op.deaf_raise _)) s
  | pcbR m => exact engineTurn_deaf (fun _ _ => Op.deaf_raise _) s
  | pcbSWtx => exact engineTurn_deaf onExtension_deaf s

/-! ## The end of a run -/

theorem closing_alone (f : State → State) (hf : ∀ s, (f s).alone = f s.alone) {s : State} (hs : s.Running) :
    (closing f s).alone = closing f s.alone := by
  have h := hostSlot_deaf s hs
  unfold closing
  generalize hostSlot s = p, hostSlot s.alone = q at h
  cases h with
  | ok ht => exact hf _
  | err ht => rfl

/-- A run ends as it would with a host that makes no access. -/
theorem runCommand_alone {body : Op After} (h : body.Deaf) {s : State} (hs : s.Running) :
    (runCommand body s).alone = runCommand body s.alone := by
  have hrun := hostSlot_deaf.andThen h s hs
  unfold runCommand
  generalize hostSlot.andThen body s = p, hostSlot.andThen body s.alone = q at hrun
  cases hrun with
  | @ok v t ht =>
    cases v with
    | done res res1 => exact closing_alone (State.complete .ok res res1) (fun _ => rfl) ht
    | failed c res1 => exact closing_alone (State.completeError c res1) (fun _ => rfl) ht
    | received n => rfl
  | @err c t ht => exact closing_alone (State.completeError c 0#32) (fun _ => rfl) ht

/-- Settles O54: the run with any accesses and the run with none both end as the run from the state alone. -/
theorem accessesDoNotInterfere : Obligations.AccessesDoNotInterfere := by
  intro i s t hb hd hn h
  rcases exec_deaf i s with ⟨body, hdeaf, hx⟩ | hx
  · rw [hx s rfl] at h
    injection h with h
    subst h
    refine ⟨_, hx (s.withHost []) rfl, State.eq_of_alone ?_⟩
    calc (runCommand body s).alone = runCommand body s.alone := runCommand_alone hdeaf ⟨hb, hd, hn⟩
      _ = (runCommand body (s.withHost [])).alone :=
        (runCommand_alone (s := s.withHost []) hdeaf ⟨hb, hd, rfl⟩).symm
  · rw [hx s rfl] at h
    cases h

end Sys2Proof.Machine
end

section
/-!
PROOFS. An access that lands while a command runs (R36, R145). Each elementary operation, the end of a run and every
instruction begin with the host side's turn, and that goes on from the state the access leaves (`hostSlot_access`).
-/

namespace Sys2Proof.Machine

/-- An operation goes on from what the host side's turn before it leaves. -/
theorem andThen_slot {α : Type} (y : Op α) {s u : State} (h : hostSlot s = hostSlot u) :
    (hostSlot.andThen y) s = (hostSlot.andThen y) u := by
  simp only [Op.andThen, Op.bind, h]

theorem closing_slot (f : State → State) {s u : State} (h : hostSlot s = hostSlot u) : closing f s = closing f u := by
  simp only [closing, h]

/-- An instruction goes on from what the host side's turn before its first operation leaves. -/
theorem exec_slot (i : Instr) {s u : State} (h : hostSlot s = hostSlot u) (hx : u.exchange? = s.exchange?) :
    exec i s = exec i u := by
  rcases exec_deaf i s with ⟨body, -, hexec⟩ | hexec
  · rw [hexec s rfl, hexec u hx, command, command, runCommand, runCommand, andThen_slot body h]
  · rw [hexec s rfl, hexec u hx]

/-- With a quiet host `OVR` and the answers stand at the end of a run. -/
theorem exec_calm {i : Instr} {u t : State} (hq : u.quiet = true) (h : exec i u = .next t) :
    t.ovr = u.ovr ∧ t.env.replies = u.env.replies := by
  cases exec_ends (.inr hq) h with
  | complete v w x c res res1 first sel run last sel' how eq =>
    subst eq
    obtain ⟨-, hovr, -, hreplies, -⟩ := first.calm hq
    obtain ⟨-, hovr', -, hreplies', -⟩ := run.world.calm (first.quiet hq)
    obtain ⟨-, hovr'', -, hreplies'', -⟩ := last.calm (run.world.quiet (first.quiet hq))
    exact ⟨hovr''.trans (hovr'.trans hovr), hreplies''.trans (hreplies'.trans hreplies)⟩
  | received v w n first sel run how eq =>
    subst eq
    obtain ⟨-, hovr, -, hreplies, -⟩ := first.calm hq
    obtain ⟨-, hovr', -, hreplies', -⟩ := run.world.calm (first.quiet hq)
    exact ⟨hovr'.trans hovr, hreplies'.trans hreplies⟩
  | cut how =>
    have hnot := how.2.2
    rw [hq] at hnot
    cases hnot

/-- Settles O60: the host side's turn is the same from `u`, so all that begins with it is; a guarded write is
discarded; and from `u` on the host is quiet. -/
theorem accessesLand : Obligations.AccessesLand := by
  intro s a es hb hhost u
  have hslot : hostSlot s = hostSlot u := hostSlot_access hb hhost
  have hstill : u.still = s.still := (State.hostAccess_busy (s := s.withHost es) hb a).1
  have hexchange : u.still.exchange? = s.still.exchange? := congrArg State.exchange? hstill
  have hexec : ∀ i, exec i s = exec i u := fun i => exec_slot i hslot hexchange
  refine ⟨fun _ _ => andThen_slot _ hslot, fun _ => andThen_slot _ hslot, fun _ => andThen_slot _ hslot,
    fun _ => andThen_slot _ hslot, andThen_slot _ hslot, fun f => closing_slot f hslot, hexec,
    fun off v ha haligned hr hoff => ?_, fun i t hq h => exec_calm hq (hexec i ▸ h)⟩
  have hwrite : u = ((s.withHost es).hostWrite off.toNat v).reply .wrote := by
    simp only [u, ha]
    exact State.hostAccess_write (s := s.withHost es) hr haligned v
  rw [hwrite, State.hostWrite_discarded (s := s.withHost es) hb hoff]
  rfl

end Sys2Proof.Machine
end

section
/-!
PROOFS. The encodings (R52, R53, R57 to R60, R63): a byte decodes to exactly the instruction it encodes, what the
receive-status decode says in numbers, and the two commands that turn on them, `RX_STATUS` and a reserved code.
-/

namespace Sys2Proof.Machine

/-! ## The decoder and the encoder -/

theorem Instr.wellFormed_iff {f : Format} {i : Instr} : i.wellFormed f = true ↔ i.format = f := decide_eq_true_iff

open Laws.RoundTrip in
/-- Every instruction's encoding is read as that instruction, in its own format only. -/
theorem roundTrip (i : Instr) : Statement i := by
  cases i
  exacts [crcA, crcB, xchg, regRd, regWr, regOr, regAnd, sendData, readData, rxStatus, readTmo, transceive, probe,
    probeAll, tgtAlloc, tgtInstall, tgtRemove, tgtRead, pcbI _, pcbIChained _, pcbR _, pcbSWtx]

theorem decode_encode (i : Instr) : decode i.format (encode i) = .ok i := accepted_eq_some.mp (roundTrip i).1

/-- R58, R59: a byte whose high seven bits are a pattern's is that pattern with its own bit 0 as the mark. -/
theorem or_markBit {b p : Byte} (h : b &&& 0xFE#8 = p) : p ||| markBit (b.getLsbD 0) = b := by
  subst h
  refine BitVec.eq_of_getLsbD_eq fun k hk => ?_
  cases hmark : b.getLsbD 0 <;> interval_cases k <;> simp_all [markBit]

/-- R58 to R60: a control byte decodes to what encodes it. -/
theorem encode_of_decodePcb {b : Byte} {i : Instr} (h : decodePcb b = .ok i) : encode i = b := by
  dsimp only [decodePcb] at h
  split at h
  · next hb => injection h with h; exact h ▸ or_markBit hb
  · split at h
    · next hb => injection h with h; exact h ▸ or_markBit hb
    · split at h
      · next hb => injection h with h; exact h ▸ or_markBit hb
      · split at h
        · next hb => injection h with h; exact h ▸ hb.symm
        · cases h

theorem decode_ok {f : Format} {b : Byte} {i : Instr} (h : decode f b = .ok i) : i.format = f ∧ encode i = b := by
  cases f with
  | cmd => exact decodeOpc_ok h
  | pcb => exact ⟨decodePcb_format h, encode_of_decodePcb h⟩

/-- R52: bits 31:8 of a command word are ignored. -/
theorem decodeCommandWord_append (hi : BitVec 24) (b : Byte) : decodeCommandWord (hi ++ b : BitVec 32) = decodeOpc b :=
  congrArg decodeOpc BitVec.extractLsb'_append_eq_right

/-- Settles O1: `decode_ok` one way, `decode_encode` the other. -/
theorem decodeIsInverseOfEncode : Obligations.DecodeIsInverseOfEncode := by
  refine ⟨fun f b i => ?_, decodeCommandWord_append⟩
  rw [Instr.wellFormed_iff]
  constructor
  · exact decode_ok
  · rintro ⟨rfl, rfl⟩
    exact decode_encode i

/-- Settles O2. -/
theorem writtenWordsDecode : Obligations.WrittenWordsDecode := by
  unfold Obligations.WrittenWordsDecode
  decide

/-! ## The receive status -/

theorem toNat_getLsbD_zero (b : Byte) : (b.getLsbD 0).toNat = b.toNat % 2 := by
  rw [BitVec.getLsbD, Nat.toNat_testBit, pow_zero, Nat.div_one]

/-- A byte with further bits above it. -/
theorem toNat_append_byte {n : Nat} (x : BitVec n) (b : Byte) : (x ++ b).toNat = b.toNat + 256 * x.toNat := by
  rw [BitVec.toNat_append, ← Nat.shiftLeft_add_eq_or_of_lt b.isLt, Nat.shiftLeft_eq]
  omega

/-- The value of `le32` (R10). -/
theorem toNat_le32 (b0 b1 b2 b3 : Byte) :
    (le32 b0 b1 b2 b3).toNat = b0.toNat + 256 * (b1.toNat + 256 * (b2.toNat + 256 * b3.toNat)) := by
  simp only [le32, toNat_append_byte]

/-- R57: the byte count is `s0` with bit 0 of `s1` above it. -/
theorem rxCount_eq (s0 s1 : Byte) : rxCount s0 s1 = s0.toNat + 256 * (s1.getLsbD 0).toNat := by
  have hword : (s0.setWidth 16 ||| (s1 &&& 0x01#8).setWidth 16 <<< 8 : Half) = (s1 &&& 0x01#8) ++ s0 := by
    rw [BitVec.or_comm, BitVec.append_def, BitVec.shiftLeftZeroExtend_eq, BitVec.setWidth'_eq]
  have hbit : (s1 &&& 0x01#8).toNat = s1.toNat % 2 := Nat.and_one_is_mod _
  rw [rxCount, hword, toNat_append_byte, hbit, toNat_getLsbD_zero]

/-- R57: the valid-bit count is bits 7:5 of `s1`. -/
theorem rxValidBits_eq (s1 : Byte) : rxValidBits s1 = s1.toNat / 32 := by
  have hmask : (s1 &&& 0xE0#8) >>> 5 = s1 >>> 5 := by
    refine BitVec.eq_of_getLsbD_eq fun k hk => ?_
    interval_cases k <;> simp
  rw [rxValidBits, hmask, BitVec.toNat_ushiftRight, Nat.shiftRight_eq_div_pow]

theorem rxStatusOf_eq (s0 s1 s2 s3 : Byte) :
    rxStatusOf [s0, s1, s2, s3] = (s0.toNat + 256 * (s1.getLsbD 0).toNat, s1.toNat / 32) :=
  Prod.ext (rxCount_eq s0 s1) (rxValidBits_eq s1)

/-- Settles O3: both fields as remainders and quotients of the register value. -/
theorem receiveStatusDecode : Obligations.ReceiveStatusDecode := by
  intro s0 s1 s2 s3
  have h0 : s0.toNat < 256 := s0.isLt
  have h1 : s1.toNat < 256 := s1.isLt
  refine ⟨rxStatusOf_eq s0 s1 s2 s3, ?_, ?_⟩ <;>
    rw [BitVec.extractLsb'_toNat, toNat_le32, Nat.shiftRight_eq_div_pow]
  · rw [toNat_getLsbD_zero]
    omega
  · omega

/-! ## `RX_STATUS` and a reserved code -/

/-- Settles O29: a receive-status read, and the decode of its four bytes. -/
theorem rxStatusResult : Obligations.RxStatusResult := by
  intro s b0 b1 b2 b3 hq hsupplied es
  obtain ⟨e, hread, he⟩ := getRxStatus_makes (st := [b0, b1, b2, b3]) rfl hq hsupplied
  rw [rxStatusOf_eq] at hread
  exact ⟨_, e, command_done hq (Op.bind_ok hread) (he.quiet hq rfl), rfl, he, .of rfl rfl he.epoch⟩

/-- R63: where `OPC` is no command's code, no instruction is fetched. -/
theorem fetch_reserved {s : State} (hs : s.seq = .start) (h : ∀ i : Instr, i.format = .cmd → encode i ≠ s.opc) :
    fetch s = none := by
  refine Option.eq_none_iff_forall_ne_some.mpr fun i hi => ?_
  rw [fetch_start hs, accepted_eq_some] at hi
  obtain ⟨hcmd, hopc⟩ := decodeOpc_ok hi
  exact h i hcmd hopc

theorem noInstruction_start {s : State} (hs : s.seq = .start) : noInstruction s = command (Op.raise .badCmd) s := by
  simp only [noInstruction, hs]

/-- Settles O7: no instruction is fetched, so the run raises the error at once. -/
theorem reservedCommand : Obligations.ReservedCommand := by
  intro s hq hs hreserved
  have hstep : step s = noInstruction s := step_unfetched (by simp [hs]) (fetch_reserved hs hreserved)
  rw [hstep, noInstruction_start hs]
  exact ⟨_, command_err hq rfl hq, rfl, .of rfl rfl rfl⟩

end Sys2Proof.Machine
end

section
/-!
PROOFS. The transport link (R67 to R79): a frame that succeeds and the bytes it puts on MOSI, a window that times out,
a window in every environment, and `XCHG`.
-/

namespace Sys2Proof.Machine

/-! ## The bytes on MOSI -/

theorem mosiBytes_append (es es' : List BusEvent) : mosiBytes (es ++ es') = mosiBytes es ++ mosiBytes es' := by
  induction es with
  | nil => rfl
  | cons e es ih => cases e <;> simp only [List.cons_append, mosiBytes, ih]

theorem mosiBytes_out (w : List Byte) : mosiBytes (w.map BusEvent.out) = w := by
  induction w with
  | nil => rfl
  | cons b w ih => simp only [List.map_cons, mosiBytes, ih]

theorem mosiBytes_filler (rd : List Byte) :
    mosiBytes (rd.map BusEvent.filler) = List.replicate rd.length Config.filler := by
  induction rd with
  | nil => rfl
  | cons b rd ih => simp only [List.map_cons, mosiBytes, ih, List.length_cons, List.replicate_succ]

/-- R42, R67: a window drives its write bytes and a filler for each byte read. -/
theorem mosiBytes_windowTrace (us : Nat) (w rd : List Byte) :
    mosiBytes (windowTrace us w rd) = w ++ List.replicate rd.length Config.filler := by
  simp [windowTrace, windowStart, mosiBytes_append, mosiBytes_out, mosiBytes_filler, mosiBytes]

/-- R42, R76: the bytes on MOSI are the same in either framing. -/
theorem mosiBytes_frameTrace (cfg : Config.Params) (w rd : List Byte) :
    mosiBytes (frameTrace cfg w rd) = w ++ List.replicate rd.length Config.filler := by
  rw [frameTrace]
  split
  · exact mosiBytes_windowTrace _ w rd
  · simp [mosiBytes_append, mosiBytes_windowTrace]

/-- Settles O20: the frame that succeeds (`spiFrame_makes`), and what its trace drives on MOSI. -/
theorem frameSucceeds : Obligations.FrameSucceeds := by
  intro s w rd hq hsupplied
  obtain ⟨e, hframe, he⟩ := spiFrame_makes w rd hq hsupplied
  exact ⟨e, hframe, he, mosiBytes_frameTrace s.cfg w rd⟩

/-! ## Windows that fail, and windows in every environment -/

/-- Bus activity that leaves select as it was and drives no byte on MOSI changes the record of the world outside
alone. -/
theorem Took.eq_env {s t : State} {es : List BusEvent} {nb nm : Nat} (h : Took s t es nb nm) (hq : s.quiet = true)
    (hsel : t.sel = s.sel) (hmosi : lastDriven s.mosi es = s.mosi) : t = { s with env := t.env } := by
  obtain ⟨-, hovr, hdone, -, -⟩ := h.ran.calm hq
  have heq := h.ran.eq
  rw [hovr, hdone, hsel, h.mosi, hmosi] at heq
  exact heq

/-- Settles O21: by the wait that times out. -/
theorem windowTimesOut : Obligations.WindowTimesOut := by
  intro s w rd hq
  refine ⟨fun h => ?_, fun h => Raises.of_took (spiWindow_latchTimeout w rd hq h) hq,
    fun h => Raises.of_took (spiWindow_idleTimeout w rd hq h) hq⟩
  obtain ⟨t, ht, htook, hsel⟩ := spiWindow_notReady w rd.length hq h
  exact ⟨t.env, ht.trans (congrArg _ (htook.eq_env hq hsel rfl)), htook.after hq⟩

/-- R156, R157: what a reset leaves of a command. -/
theorem CutFrom.fields {s t : State} (h : CutFrom s t) :
    t.sel = false ∧ t.rstn = false ∧ t.seq = .idle ∧ t.done = false := by
  obtain ⟨ht, -, -⟩ := h
  rw [ht]
  exact ⟨rfl, rfl, rfl, rfl⟩

/-- Settles O22: the three ways a window ends (`spiWindow_sat`). -/
theorem windowAlwaysReleases : Obligations.WindowAlwaysReleases := by
  intro s w r hb hsel
  have hends := spiWindow_sat w r (.inl hb : s.steady)
  cases hx : spiWindow w r s with
  | ok rd t =>
    rw [hx] at hends
    obtain ⟨-, hreleased, hopened, hlen⟩ := hends
    exact .inl ⟨rd, t, rfl, hlen, hreleased hsel, hopened⟩
  | err c t =>
    rw [hx] at hends
    obtain ⟨-, hreleased, hopened, hc⟩ := hends
    exact .inr (.inl ⟨c, t, rfl, hc, hreleased hsel, hopened⟩)
  | cut t =>
    rw [hx] at hends
    exact .inr (.inr ⟨t, rfl, hends.fields⟩)

/-! ## `XCHG` -/

theorem State.frameByte_congr {s t : State} (hf : t.frame = s.frame) (he : t.env.epoch = s.env.epoch) (k : Nat) :
    t.frameByte k = s.frameByte k := by
  simp only [State.frameByte, hf, he]

/-- R79: `XCHG` with operands that fail a check. -/
theorem execXchg_argLen {s : State} (hq : s.quiet = true)
    (h : 1024 < s.a.w0.toNat ∨ 1024 < s.a.w1.toNat ∨ s.a.w0.toNat + s.a.w1.toNat = 0) :
    exec .xchg s = .next (s.completeError .argLen 0#32) :=
  command_err hq (if_pos h) hq

/-- R79: `XCHG` with operands that pass the checks runs its frame, whatever the environment does. -/
theorem execXchg_run {s : State}
    (h : ¬ (1024 < s.a.w0.toNat ∨ 1024 < s.a.w1.toNat ∨ s.a.w0.toNat + s.a.w1.toNat = 0)) :
    ∃ body, exec .xchg s = command body s ∧
      body s = ((spiFrame (s.txBytes 0 s.a.w0.toNat) s.a.w1.toNat).bind fun rd =>
        (Op.upd (State.storeRx 0 rd)).andThen (Op.ret (.done s.a.w1 0#32))) s :=
  ⟨_, rfl, if_neg h⟩

/-- Settles O23: the operand checks come first; then the frame, whose bytes are stored. -/
theorem exchangeResult : Obligations.ExchangeResult := by
  intro s hq
  refine ⟨execXchg_argLen hq, ?_⟩
  intro rd h0 h1 hlen hpos hsupplied es
  obtain ⟨e, hframe, he⟩ := spiFrame_makes (s.txBytes 0 s.a.w0.toNat) rd hq hsupplied
  obtain ⟨body, hx, hbody⟩ := execXchg_run (s := s) (by omega)
  rw [hlen, Op.bind_ok hframe] at hbody
  exact ⟨_, e, hx.trans (command_done hq hbody (he.quiet hq rfl)), rfl, he, .of rfl he.epoch,
    State.frameByte_congr rfl he.epoch⟩

end Sys2Proof.Machine
end

section
/-!
PROOFS. A failure of the first transport frame of a command ends the command with that error (R68, R72 to R75, R142),
and a command that ends with a transport error, in whichever frame, leaves `TXBUF` and `RXBUF` as they were (R79, R97).
-/

namespace Sys2Proof.Machine

/-! ## Steps whose first transport frame fails -/

/-- The step `x` from `s` fails as `f` says, in the state `u` but for what bus activity changes. -/
abbrev FailsBy {α : Type} (f : FrameFailure) (x : Op α) (s : State) (u : State → State) : Prop :=
  Raises x s f.code u f.bus f.busy.length f.miso.length

/-- The instruction `i` from `s` ends with the error `f` raises, in the state `u` but for what bus activity and the
completion change (R142). -/
def EndsBy (f : FrameFailure) (i : Instr) (s u : State) : Prop :=
  ∃ t e, exec i s = .next t ∧ t = (u.ranBus f.bus e).completeError f.code 0#32 ∧
    s.env.After e f.bus f.busy.length f.miso.length

section
variable {α : Type} {x y : Op α} {s : State} {c : ErrCode} {u : State → State} {es : List BusEvent} {nb nm : Nat}

theorem Raises.congr (h : x s = y s) (hy : Raises y s c u es nb nm) : Raises x s c u es nb nm := by
  obtain ⟨e, hraise, he⟩ := hy
  exact ⟨e, h.trans hraise, he⟩

/-- R113: an error in the engine sets `ESTATE` besides. -/
theorem Raises.inEngine (h : Raises x s c u es nb nm) :
    Raises (inEngine x) s c (fun t => (u t).setEState .failed) es nb nm := by
  obtain ⟨e, hraise, he⟩ := h
  exact ⟨e, inEngine_err hraise, he⟩

/-- R142: an instruction whose run raises an error ends with it. -/
theorem Raises.ends {f : FrameFailure} {i : Instr} {body x : Op After} (h : FailsBy f x s u) (hq : s.quiet = true)
    (hx : exec i s = command body s) (hbody : body s = x s) : EndsBy f i s (u s) := by
  obtain ⟨e, hraise, he⟩ := h
  exact ⟨_, e, hx.trans (command_err hq (hbody.trans hraise) (he.quiet hq rfl)), rfl, he⟩

end

/-- R131: `PROBE` of an installed target runs its probe. -/
theorem execProbe_run {s : State} {e : Target} (he : s.target? s.operandByte = some e) :
    ∃ body, exec .probe s = command body s ∧
      body s = ((probeOne e).bind fun reason =>
        Op.ret (.done (if reason = 0 then 1#32 else 0#32) (BitVec.ofNat 32 reason))) s :=
  ⟨_, rfl, by rw [he]⟩

section
variable {s : State} {f : FrameFailure} (hq : s.quiet = true) (hsel : s.sel = false) (h : s.supplied f.busy f.miso)
include hq hsel h

theorem spiFrame_failsBy {w rd : List Byte} {n : Nat} (hl : rd.length = n) (hf : f ∈ frameFailures s.cfg w rd) :
    FailsBy f (spiFrame w n) s id := by
  subst hl
  exact spiFrame_raises hf hq hsel h

/-- R114: a card frame with all bits of its last byte valid. -/
theorem send8_failsBy {data : List Byte} (hn : data.length ≤ Config.maxSend)
    (hf : f ∈ frameFailures s.cfg (sendBytesOf s.cfg data) []) : FailsBy f (sendFrame data 8) s id :=
  sendFrame_raises hn (by decide) hf hq hsel h

theorem probeOne_failsBy {e : Target} (hf : f ∈ frameFailures s.cfg (sendBytesOf s.cfg [pcbRByte e.mark, e.tn]) []) :
    FailsBy f (probeOne e) s id :=
  (send8_failsBy hq hsel h (by simp [Config.maxSend]) hf).bind _

/-- R113, R114: the engine's entry, whose I-block fails. -/
theorem engineEnter_failsBy {e : Target} {n : Nat} (hn : n ≤ Config.maxTxPayload)
    (hf : f ∈ frameFailures s.cfg (sendBytesOf s.cfg ([pcbIByte e.mark, e.tn] ++ s.txBytes 0 n)) []) :
    FailsBy f (engineEnter e n) s State.enterEngine := by
  have hlen : ([pcbIByte e.mark, e.tn] ++ s.txBytes 0 n).length ≤ Config.maxSend := by
    rw [List.length_append, State.length_txBytes]
    simp only [Config.maxSend, Config.maxTxPayload, List.length_cons, List.length_nil] at *
    omega
  have hsend : FailsBy f (sendFrame ([pcbIByte e.mark, e.tn] ++ s.txBytes 0 n) 8) s.enterEngine id :=
    send8_failsBy (s := s.enterEngine) hq hsel h hlen hf
  exact hsend.bind _

/-- R107 to R114: both ways of `TRANSCEIVE` that send a frame. -/
theorem transceiveBody_failsBy {w : List Byte} {u : State} (hw : firstFrame s .transceive w 0 u)
    (hf : f ∈ frameFailures s.cfg w []) : FailsBy f transceiveBody s fun _ => u := by
  obtain ⟨-, ⟨htn, hnout, hcap, hauth, rfl, hu⟩ | ⟨⟨htn, -, hnout, hcap⟩, ⟨e, he, rfl⟩, rfl⟩⟩ := hw
  · subst u
    have hbody : transceiveBody s = _ := (transceiveBody_typeA htn hnout hcap).trans (if_neg hauth)
    have hsend := send8_failsBy hq hsel h (by rw [State.length_txBytes]; exact hnout) hf
    exact Raises.congr hbody (hsend.bind _)
  · exact Raises.congr (transceiveBody_engine htn hnout hcap he) (engineEnter_failsBy hq hsel h hnout hf).inEngine

/-- R132: a pass of `PROBE_ALL` whose first probe fails ends in that error, with none removed. -/
theorem execProbeAll_endsBy {e : Target} {es : List Target} (hr : s.registry = e :: es)
    (hf : f ∈ frameFailures s.cfg (sendBytesOf s.cfg [pcbRByte e.mark, e.tn]) []) :
    EndsBy f .probeAll s s := by
  obtain ⟨env, hprobe, henv⟩ := probeOne_failsBy hq hsel h hf
  have hbody : probeEach s.registry 0 s = .ok (.failed f.code 0#32) (s.ranBus f.bus env) := by
    rw [hr, probeEach]
    simp only [hprobe]
    rfl
  exact ⟨_, env, command_failed hq hbody (henv.quiet hq rfl), rfl, henv⟩

/-- R68, R72 to R75: whichever command it is, the failure of its first frame ends it. -/
theorem exec_firstFrame_endsBy {i : Instr} {w rd : List Byte} {n : Nat} {u : State} (hw : firstFrame s i w n u)
    (hl : rd.length = n) (hf : f ∈ frameFailures s.cfg w rd) : EndsBy f i s u := by
  have noRead : n = 0 → f ∈ frameFailures s.cfg w [] := fun hn => by
    rw [hn, List.length_eq_zero_iff] at hl
    exact hl ▸ hf
  cases i with
  | xchg =>
    obtain ⟨h0, h1, hpos, rfl, rfl, hu⟩ := hw
    subst u
    obtain ⟨body, hx, hbody⟩ := execXchg_run (s := s) (by omega)
    exact ((spiFrame_failsBy hq hsel h hl hf).bind _).ends hq hx hbody
  | regRd =>
    obtain ⟨rfl, rfl, hu⟩ := hw
    subst u
    exact ((regRead_raises _ hl hf hq hsel h).bind _).ends hq rfl rfl
  | regWr | regOr | regAnd =>
    obtain ⟨rfl, rfl, hu⟩ := hw
    subst u
    exact (((spiFrame_failsBy hq hsel h hl hf).bind _).bind _).ends hq rfl rfl
  | sendData =>
    obtain ⟨h0, h1, h8, rfl, hn, hu⟩ := hw
    subst u
    have hlen : (s.txBytes 0 s.a.w0.toNat).length ≤ Config.maxSend := by rw [State.length_txBytes]; exact h0
    have hsend := sendFrame_raises hlen ⟨h1, h8⟩ (noRead hn) hq hsel h
    exact (hsend.bind _).ends hq rfl (if_neg (Nat.not_lt.mpr h0))
  | readData =>
    obtain ⟨h0, rfl, rfl, hu⟩ := hw
    subst u
    exact ((readFrame_raises h0 hl hf hq hsel h).bind _).ends hq rfl rfl
  | rxStatus =>
    obtain ⟨rfl, rfl, hu⟩ := hw
    subst u
    exact ((getRxStatus_raises hl hf hq hsel h).bind _).ends hq rfl rfl
  | readTmo =>
    obtain ⟨h0, rfl, rfl, hu⟩ := hw
    subst u
    have hread := readWithTimeout_fails s.a.w0.toNat s.a.w1.toNat hl hf hq hsel h
    exact (hread.bind _).ends hq rfl (if_neg (Nat.not_lt.mpr h0))
  | transceive =>
    have hn : n = 0 := hw.1
    exact (transceiveBody_failsBy hq hsel h (hn ▸ hw) (noRead hn)).ends hq rfl rfl
  | probe =>
    obtain ⟨⟨e, he, rfl⟩, hn, hu⟩ := hw
    subst u
    obtain ⟨body, hx, hbody⟩ := execProbe_run he
    exact ((probeOne_failsBy hq hsel h (noRead hn)).bind _).ends hq hx hbody
  | probeAll =>
    obtain ⟨⟨e, es, hr, rfl⟩, hn, hu⟩ := hw
    subst u
    exact execProbeAll_endsBy hq hsel h hr (noRead hn)
  | _ => exact hw.elim

end

/-! ## A transport error in any environment -/

/-- R79, R97: where the run of a command comes to an end by an error, in whichever frame, it has stored nothing in
`RXBUF`; no reset being in store, the bytes read as before. -/
theorem exec_error_keeps_memByte {i : Instr} (hi : i.format = .cmd) {s u : State} (hb : s.busy = true)
    (hn : s.noReset = true) (h : exec i s = .next u) (hover : u.completed = true) (herr : u.err ≠ .ok) :
    u.result = failResult ∧ u.memByte = s.memByte := by
  cases exec_ends (.inl hb) h with
  | complete t v w c res res1 first sel run last sel' how eq =>
    subst eq
    have hepoch : w.env.epoch = s.env.epoch := last.epoch.trans (run.world.epoch.trans first.epoch)
    have hmem : v.mem = t.mem → w.mem = s.mem := fun hv =>
      (last.field State.mem fun _ => rfl).trans (hv.trans (first.field State.mem fun _ => rfl))
    rcases how with ⟨hok, -⟩ | ⟨hres, -, -, -, -, hv⟩ | ⟨hres, -, -, -, -, -, hcmd⟩
    · exact absurd hok herr
    · exact ⟨hres, State.memByte_congr (hmem hv) hepoch⟩
    · exact ⟨hres, State.memByte_congr (hmem (hcmd hi).1) hepoch⟩
  | received t v n first sel run how eq =>
    subst eq
    simp [State.completed] at hover
  | cut how => exact (how.noReset hn).elim

/-- Settles O26: the failures of the first frame, and a command that ends with an error, which stores nothing. -/
theorem transportErrorsSurface : Obligations.TransportErrorsSurface := by
  refine ⟨fun s hq hsel i w n u rd hw hl f hf h => exec_firstFrame_endsBy hq hsel h hw hl hf, ?_⟩
  intro i s t hi hb hn hx hover herr
  have hfail : t.err ≠ .ok := fun hok => by rw [hok] at herr; cases herr
  obtain ⟨hresult, hbytes⟩ := exec_error_keeps_memByte hi hb hn hx hover hfail
  exact ⟨hresult, congrFun hbytes⟩

end Sys2Proof.Machine
end

section
/-!
PROOFS. Register access (R80 to R85): what a command leaves whose run does nothing but bus activity, the register read,
and the three write forms, which differ in their command byte alone.
-/

namespace Sys2Proof.Machine

/-- R142: a command whose run ends normally after bus activity alone completes with its values, and changes no byte of
a buffer. -/
theorem Makes.completes {i : Instr} {s : State} {body x : Op After} {res res1 : Word} {es : List BusEvent}
    {nb nm : Nat} (h : Makes x s (.done res res1) id es nb nm) (hq : s.quiet = true)
    (hx : exec i s = command body s) (hbody : body s = x s) :
    ∃ t e, exec i s = .next t ∧ t = (s.ranBus es e).complete .ok res res1 ∧ s.env.After e es nb nm ∧
      sameBytes s t := by
  obtain ⟨e, hmakes, he⟩ := h
  exact ⟨_, e, hx.trans (command_done hq (hbody.trans hmakes) (he.quiet hq rfl)), rfl, he, .of rfl rfl he.epoch⟩

/-- Settles O24: the register read (`regRead_makes`), and `le32` of its four bytes. -/
theorem registerReadResult : Obligations.RegisterReadResult := by
  intro s b0 b1 b2 b3 hq hsupplied es
  obtain ⟨e, hread, he⟩ := regRead_makes s.operandByte (rd := [b0, b1, b2, b3]) rfl hq hsupplied
  have hdone : Makes ((regRead s.operandByte).bind fun d => Op.ret (After.done (le32OfList d) 0#32)) s
      (.done (le32OfList [b0, b1, b2, b3]) 0#32) id es (3 * frameWindows s.cfg 4) 4 := ⟨e, Op.bind_ok hread, he⟩
  exact hdone.completes hq rfl rfl

/-- R76: a frame without read bytes is one window in either framing. -/
theorem frameTrace_nil (cfg : Config.Params) (w : List Byte) : frameTrace cfg w [] = windowTrace cfg.settleUs w [] :=
  if_pos (.inr rfl)

/-- R83 to R85: a register write command sends one frame, of its command byte `code`, `A0[7:0]` and the bytes of `A1`. -/
theorem regWriteCommand_makes (code : State → Byte) {s : State} (hq : s.quiet = true)
    (hsupplied : s.supplied (readyFor 1) []) :
    Makes (regWriteCommand code) s (.done 0#32 0#32) id
      (frameTrace s.cfg ([code s, s.operandByte] ++ bytesLe32 s.a.w1) []) 3 0 := by
  obtain ⟨e, hwrite, he⟩ := regWrite_makes (code s) s.operandByte s.a.w1 hq hsupplied
  rw [frameTrace_nil]
  exact ⟨e, Op.andThen_ok hwrite, he⟩

/-- R83 to R85: each of the three forms is the register write command with its own command byte. -/
theorem exec_regWriteCommand {i : Instr} {s : State} {op : Byte}
    (h : i = .regWr ∧ op = s.cfg.opWriteReg ∨ i = .regOr ∧ op = s.cfg.opWriteRegOr ∨
      i = .regAnd ∧ op = s.cfg.opWriteRegAnd) :
    ∃ code, exec i s = command (regWriteCommand code) s ∧ code s = op := by
  rcases h with ⟨rfl, rfl⟩ | ⟨rfl, rfl⟩ | ⟨rfl, rfl⟩ <;> exact ⟨_, rfl, rfl⟩

/-- Settles O25: each form's command byte (`exec_regWriteCommand`), and the one frame all three send. -/
theorem registerWriteResult : Obligations.RegisterWriteResult := by
  intro s hq hsupplied i op hform v es
  obtain ⟨code, hexec, rfl⟩ := exec_regWriteCommand hform
  exact (regWriteCommand_makes code hq hsupplied).completes hq hexec rfl

end Sys2Proof.Machine
end

section
/-!
PROOFS. Frame exchange (R86 to R99): a card frame sent, a card frame read, and the read-with-timeout, where the peer
answers and, as a bound on its use of the bus, in every environment.
-/

namespace Sys2Proof.Machine

/-! ## `SEND_DATA` -/

/-- R86: the valid-bits code on the wire, for a count that passes the check. -/
theorem validBitsCode_eq {n : Nat} {vb : Byte} (h : 1 ≤ n ∧ n ≤ 7 ∧ vb.toNat = n ∨ n = 8 ∧ vb = 0#8) :
    validBitsCode n = vb := by
  rcases h with ⟨-, h7, rfl⟩ | ⟨rfl, rfl⟩
  · rw [validBitsCode, Nat.mod_eq_of_lt (by omega), BitVec.ofNat_toNat, BitVec.setWidth_eq]
  · rfl

/-- R86: a count of valid bits out of range, the length being in range. -/
theorem sendFrame_argValidBits {data : List Byte} {vb : Nat} (hn : data.length ≤ Config.maxSend)
    (hv : vb = 0 ∨ 8 < vb) (s : State) : sendFrame data vb s = .err .argValidBits s := by
  rw [sendFrame, if_neg (by omega), if_pos (by omega)]
  rfl

/-- R96: `SEND_DATA` with a length that passes the check sends its card frame, whatever the environment does. -/
theorem execSendData_run {s : State} (h : s.a.w0.toNat ≤ Config.maxSend) :
    ∃ body, exec .sendData s = command body s ∧
      body s = ((sendFrame (s.txBytes 0 s.a.w0.toNat) s.a.w1.toNat).andThen (Op.ret (.done 0#32 0#32))) s :=
  ⟨_, rfl, if_neg (Nat.not_lt.mpr h)⟩

/-- Settles O27: the two checks in their order, then the one frame, with the code of its valid bits. -/
theorem sendDataResult : Obligations.SendDataResult := by
  intro s hq
  have hlen : s.a.w0.toNat ≤ 260 → (s.txBytes 0 s.a.w0.toNat).length ≤ Config.maxSend := fun h => by
    rw [State.length_txBytes]
    exact h
  refine ⟨fun h => command_err hq (if_pos h) hq, fun h hbits => ?_, ?_⟩
  · obtain ⟨body, hx, hbody⟩ := execSendData_run h
    exact hx.trans (command_err hq (hbody.trans (Op.andThen_err (sendFrame_argValidBits (hlen h) hbits s))) hq)
  · intro vb h hbits hsupplied es
    obtain ⟨body, hx, hbody⟩ := execSendData_run h
    obtain ⟨e, hsend, he⟩ := sendFrame_makes (hlen h) (vb := s.a.w1.toNat) (by omega) hq hsupplied
    rw [validBitsCode_eq hbits, ← frameTrace_nil] at hsend he
    have hdone : Makes ((sendFrame (s.txBytes 0 s.a.w0.toNat) s.a.w1.toNat).andThen (Op.ret (After.done 0#32 0#32))) s
        (.done 0#32 0#32) id es 3 0 := ⟨e, Op.andThen_ok hsend, he⟩
    exact hdone.completes hq hx hbody

/-! ## `READ_DATA` -/

/-- R87: a read of more bytes than a card frame can hold. -/
theorem readFrame_argLen {n : Nat} (h : Config.maxRead < n) (s : State) : readFrame n s = .err .argLen s := by
  rw [readFrame, if_pos h]
  rfl

/-- Settles O28: the length check of the frame read, else its bytes, which are stored. -/
theorem readDataResult : Obligations.ReadDataResult := by
  intro s hq
  refine ⟨fun h => command_err hq (Op.bind_err (readFrame_argLen h s)) hq, ?_⟩
  intro rd hlen hmax hsupplied es
  obtain ⟨e, hread, he⟩ := readFrame_makes hmax hq hsupplied
  rw [← hlen] at hread
  exact ⟨_, e, command_done hq (Op.bind_ok hread) (he.quiet hq rfl), rfl, he, .of rfl he.epoch,
    State.frameByte_congr rfl he.epoch⟩

/-! ## `READ_TMO` -/

/-- R99: `READ_TMO` with a capacity that passes the check reads with timeout and delivers the frame, whatever the
environment does. -/
theorem execReadTmo_run {s : State} (h : s.a.w0.toNat ≤ Config.maxRead) :
    ∃ body, exec .readTmo s = command body s ∧
      body s = ((readWithTimeout s.a.w0.toNat s.a.w1.toNat).bind deliverFrame) s :=
  ⟨_, rfl, if_neg (Nat.not_lt.mpr h)⟩

/-- Settles O30: the capacity check, then the read-with-timeout that delivers its frame (`deliverFrame_heard`) or ends
with a count above the capacity. -/
theorem readTimeoutResult : Obligations.ReadTimeoutResult := by
  intro s hq
  refine ⟨fun h => command_err hq (if_pos h) hq, fun a hcap hanswers => ?_⟩
  obtain ⟨body, hx, hbody⟩ := execReadTmo_run hcap
  refine ⟨fun hfits => ?_, fun hlong => ?_⟩
  · obtain ⟨e, hread, he⟩ := readWithTimeout_makes hfits hcap hq hanswers
    rw [Op.bind_ok hread, deliverFrame_heard a s _ he.epoch] at hbody
    exact ⟨_, e, hx.trans (command_done hq hbody (he.quiet hq rfl)), rfl, he, .of rfl he.epoch, .of rfl he.epoch⟩
  · obtain ⟨e, hread, he⟩ := readWithTimeout_raises hlong hq hanswers
    rw [Op.bind_err hread] at hbody
    obtain ⟨-, hnone, -⟩ := hlong
    have hframe : (s.heard a).frame = s.frame := by rw [State.heard, hnone]; rfl
    exact ⟨_, e, hx.trans (command_err hq hbody (he.quiet hq rfl)), rfl, he, .of rfl hframe he.epoch⟩

/-- Settles O31: the three ways a read-with-timeout ends (`readWithTimeout_sat`), and what each has used of the bus
(`readWithTimeout_spends`). -/
theorem readTimeoutIsBounded : Obligations.ReadTimeoutIsBounded := by
  intro s cap T hb hsel hcap spent
  have hsteady : s.steady := .inl hb
  have hspent : ∀ t : State, t.sel = false →
      Spent s t ((T + 1) * frameWindows s.cfg 4 + frameWindows s.cfg 1) T → spent t := by
    intro t hreleased ⟨_, hwindows, hdelays⟩
    exact ⟨hreleased, by rwa [Nat.add_assoc], hdelays⟩
  have hends := readWithTimeout_sat hcap T hsteady
  have hspends := readWithTimeout_spends cap T hsteady
  cases hx : readWithTimeout cap T s with
  | ok n t =>
    rw [hx] at hends hspends
    obtain ⟨hheard, hn, hpolls, hread⟩ := hends
    exact .inl ⟨n, t, rfl, hspent t (hheard.world.sel hsel) hspends.1, hn, hpolls, hread⟩
  | err c t =>
    rw [hx] at hends hspends
    obtain ⟨hheard, hc⟩ := hends
    exact .inr (.inl ⟨c, t, rfl, hspent t (hheard.world.sel hsel) hspends, hc⟩)
  | cut t =>
    rw [hx] at hends hspends
    obtain ⟨hreleased, hrstn, -, -⟩ := hends.fields
    exact .inr (.inr ⟨t, rfl, hspent t hreleased hspends, hrstn⟩)

end Sys2Proof.Machine
end

section
/-!
PROOFS. The CRC generators (R100 to R106): the core step is linear over XOR, which carries its agreement with the
bit-serial form from the one-bit words to all words; the CRC as a fold; and the two commands, which differ in their
seed and in the output inversion alone.
-/

namespace Sys2Proof.Machine

/-! ## The core step and the bit-serial form -/

/-- The library's form of this splits with an OR; here it is an XOR, since bit `k` is 0 below. -/
theorem setWidth_succ_of_getLsbD_true {w k : Nat} {x : BitVec w} (hbit : x.getLsbD k = true) :
    (x.setWidth (k + 1)).setWidth w = (x.setWidth k).setWidth w ^^^ BitVec.twoPow w k := by
  ext j hj
  by_cases hjk : j = k
  · subst hjk
    simp [hj, hbit]
  · have hlt : j < k + 1 ↔ j < k := by omega
    simp [hjk, hlt]

/-- What holds of 0 and of every one-bit word, and of the XOR of two words it holds of, holds of every word. -/
theorem bitVec_xor_induction {w : Nat} {P : BitVec w → Prop} (zero : P 0#w) (bit : ∀ i < w, P (BitVec.twoPow w i))
    (xor : ∀ x y, P x → P y → P (x ^^^ y)) (x : BitVec w) : P x := by
  have below : ∀ k ≤ w, P ((x.setWidth k).setWidth w) := by
    intro k
    induction k with
    | zero => exact fun _ => by simpa [BitVec.of_length_zero] using zero
    | succ k ih =>
      intro hk
      cases hbit : x.getLsbD k with
      | false =>
        rw [BitVec.setWidth_setWidth_succ_eq_setWidth_setWidth_of_getLsbD_false hbit]
        exact ih (by omega)
      | true =>
        rw [setWidth_succ_of_getLsbD_true hbit]
        exact xor _ _ (ih (by omega)) (bit k hk)
  simpa using below w le_rfl

/-- R100: the core step is linear over XOR. -/
theorem updateCrc_xor (c c' : Half) (b b' : Byte) :
    updateCrc (c ^^^ c') (b ^^^ b') = updateCrc c b ^^^ updateCrc c' b' := by
  simp only [updateCrc, BitVec.extractLsb'_xor, BitVec.shiftLeft_xor_distrib, BitVec.ushiftRight_xor_distrib,
    BitVec.setWidth_xor]
  ac_rfl

/-- What a shift of the bit-serial form feeds back: the polynomial, or nothing (R102). -/
def crcFeedback (d : Bool) : Half := if d then 0x8408#16 else 0#16

theorem crcFeedback_xor (d d' : Bool) : crcFeedback (d ^^ d') = crcFeedback d ^^^ crcFeedback d' := by
  decide +revert

/-- R102: a shift feeds the polynomial back where the low bit and the data bit differ. -/
theorem crcShift_eq (c : Half) (d : Bool) : crcShift c d = (c >>> 1) ^^^ crcFeedback (c.getLsbD 0 ^^ d) := by
  rw [crcShift, crcFeedback]
  split
  · rfl
  · exact BitVec.xor_zero.symm

/-- R102: a shift is linear over XOR. -/
theorem crcShift_xor (c c' : Half) (d d' : Bool) : crcShift (c ^^^ c') (d ^^ d') = crcShift c d ^^^ crcShift c' d' := by
  have hsum : ((c ^^^ c').getLsbD 0 ^^ (d ^^ d')) = ((c.getLsbD 0 ^^ d) ^^ (c'.getLsbD 0 ^^ d')) := by
    rw [BitVec.getLsbD_xor, Bool.xor_assoc, Bool.xor_left_comm (c'.getLsbD 0), ← Bool.xor_assoc]
  rw [crcShift_eq, crcShift_eq, crcShift_eq, hsum, crcFeedback_xor, BitVec.ushiftRight_xor_distrib]
  ac_rfl

/-- R102: the bit-serial form is linear over XOR. -/
theorem crcSerial_xor (c c' : Half) (b b' : Byte) :
    crcSerial (c ^^^ c') (b ^^^ b') = crcSerial c b ^^^ crcSerial c' b' := by
  simp only [crcSerial, BitVec.getLsbD_xor]
  induction List.range 8 generalizing c c' with
  | nil => rfl
  | cons i is ih => simp only [List.foldl_cons, crcShift_xor, ih]

/-- R102: where the two forms agree on two inputs, they agree on the XOR of them, both being linear. -/
theorem crcForms_agree_xor {c c' : Half} {b b' : Byte} (h : updateCrc c b = crcSerial c b)
    (h' : updateCrc c' b' = crcSerial c' b') :
    updateCrc (c ^^^ c') (b ^^^ b') = crcSerial (c ^^^ c') (b ^^^ b') := by
  rw [updateCrc_xor, crcSerial_xor, h, h']

/-- R102: the two forms agree where the byte is 0. -/
theorem crcForms_agree_byte_zero (c : Half) : updateCrc c 0#8 = crcSerial c 0#8 := by
  induction c using bitVec_xor_induction with
  | zero => rfl
  | bit i hi => decide +revert
  | xor x y hx hy => simpa only [BitVec.xor_self] using crcForms_agree_xor hx hy

/-- R102: the two forms agree where the running CRC is 0. -/
theorem crcForms_agree_crc_zero (b : Byte) : updateCrc 0#16 b = crcSerial 0#16 b := by
  induction b using bitVec_xor_induction with
  | zero => rfl
  | bit i hi => decide +revert
  | xor x y hx hy => simpa only [BitVec.xor_self] using crcForms_agree_xor hx hy

/-- Settles O18: an input is the XOR of one with byte 0 and one with running CRC 0, and the forms agree on each. -/
theorem crcBitSerial : Obligations.CrcBitSerial := by
  intro c b
  simpa only [BitVec.xor_zero, BitVec.zero_xor] using
    crcForms_agree_xor (crcForms_agree_byte_zero c) (crcForms_agree_crc_zero b)

/-! ## The fold -/

/-- Settles O19: `crc` is a left fold (R101), so it goes on over the second part from what the first has left. -/
theorem crcAppend : Obligations.CrcAppend :=
  fun _ _ _ => ⟨rfl, List.foldl_append, fun _ => rfl⟩

/-! ## `CRC_A` and `CRC_B` -/

/-- R104, R105: a command that computes its `RESULT` from its CRC input completes either way of the length check. -/
theorem crcCommand_completes {i : Instr} {s : State} (f : List Byte → Word) (hq : s.quiet = true)
    (hx : exec i s = command (crcInput.bind fun d => Op.ret (.done (f d) 0#32)) s) :
    ∃ t, exec i s = .next t ∧ sameBytes s t ∧
      t = if 1024 < s.a.w0.toNat then s.completeError .argLen 0#32
        else s.complete .ok (f (s.txBytes 0 s.a.w0.toNat)) 0#32 := by
  by_cases hlen : 1024 < s.a.w0.toNat
  · have hinput : crcInput s = .err .argLen s := if_pos hlen
    rw [if_pos hlen]
    exact ⟨_, hx.trans (command_err hq (Op.bind_err hinput) hq), .of rfl rfl rfl, rfl⟩
  · have hinput : crcInput s = .ok (s.txBytes 0 s.a.w0.toNat) s := if_neg hlen
    rw [if_neg hlen]
    exact ⟨_, hx.trans (command_done hq (Op.bind_ok hinput) hq), .of rfl rfl rfl, rfl⟩

/-- Settles O16: the CRC command with the seed 0x6363 and no output inversion. -/
theorem crcAResult : Obligations.CrcAResult := fun _ hq =>
  crcCommand_completes (fun d => (crc Config.crcASeed d).setWidth 32) hq rfl

/-- Settles O17: the CRC command with the seed 0xFFFF, its output complemented once. -/
theorem crcBResult : Obligations.CrcBResult := fun _ hq =>
  crcCommand_completes (fun d => (~~~(crc Config.crcBSeed d)).setWidth 32) hq rfl

end Sys2Proof.Machine
end

section
/-!
PROOFS. `TRANSCEIVE` (R107 to R114): the checks of its operands, the target-0 path, and the entry of the engine with its
first read.
-/

namespace Sys2Proof.Machine

/-- R107: operands that fail a length check. -/
theorem transceiveBody_argLen {s : State}
    (h : 1024 < s.a.w2.toNat ∨ s.operandByte = 0#8 ∧ 260 < s.a.w1.toNat ∨
      s.operandByte ≠ 0#8 ∧ 258 < s.a.w1.toNat) : transceiveBody s = .err .argLen s := by
  rw [transceiveBody]
  split
  · rfl
  · next hcap =>
    split
    · rfl
    · next hzero => exact if_pos ((h.resolve_left hcap).resolve_left hzero)

/-- R110: an authentication opcode is not sent to target 0. -/
theorem typeA_unsupported {s : State} {nout : Nat} (h : 1 ≤ nout ∧ s.txByte 0 ∈ s.cfg.authOpcodes) (cap T : Nat) :
    typeA nout cap T s = .err .unsupported s := if_pos h

/-- R109: any other payload for target 0 is sent as it is, and the answer read is delivered. -/
theorem typeA_run {s : State} {nout : Nat} (h : ¬ (1 ≤ nout ∧ s.txByte 0 ∈ s.cfg.authOpcodes)) (cap T : Nat) :
    typeA nout cap T s = ((sendFrame (s.txBytes 0 nout) 8).andThen
      ((readWithTimeout (min cap Config.maxRead) T).bind deliverFrame)) s := if_neg h

/-- R111: a target no entry has. -/
theorem transceiveBody_noTarget {s : State} (ht : s.operandByte ≠ 0#8) (h1 : s.a.w1.toNat ≤ Config.maxTxPayload)
    (h2 : s.a.w2.toNat ≤ Config.bufSize) (he : s.target? s.operandByte = none) :
    transceiveBody s = .err .noTarget s := by
  rw [transceiveBody, if_neg (by omega), if_neg (fun h => ht h.1), if_neg (by omega), if_neg ht, he]

/-- Settles O32: by the check that fails. -/
theorem transceiveChecks : Obligations.TransceiveChecks := by
  intro s hq tn tooLong
  have hpass : ¬ tooLong → s.a.w2.toNat ≤ 1024 ∧ (tn = 0#8 → s.a.w1.toNat ≤ 260) ∧
      (tn ≠ 0#8 → s.a.w1.toNat ≤ 258) := by
    simp only [tooLong, not_or, not_and, Nat.not_lt]
    exact id
  refine ⟨fun h => command_err hq (transceiveBody_argLen h) hq, fun h htn hone hauth => ?_, fun h htn hnone => ?_⟩
  · obtain ⟨hcap, hzero, -⟩ := hpass h
    have hbody := transceiveBody_typeA htn (hzero htn) hcap
    exact command_err hq (hbody.trans (typeA_unsupported ⟨hone, hauth⟩ _ _)) hq
  · obtain ⟨hcap, -, hother⟩ := hpass h
    exact command_err hq (transceiveBody_noTarget htn (hother htn) hcap hnone) hq

/-- Settles O33: the payload is sent as it is and the answer read (`sendRead_fits`, `sendRead_tooLong`); a frame read is
delivered (`deliverFrame_heard`). -/
theorem transceiveTypeA : Obligations.TransceiveTypeA := by
  intro s a hq htn hnout hcap hauth hanswers cap es
  have hbody : transceiveBody s = _ := (transceiveBody_typeA htn hnout hcap).trans (typeA_run hauth _ _)
  have hlen : (s.txBytes 0 s.a.w1.toNat).length ≤ Config.maxSend := by rw [State.length_txBytes]; exact hnout
  refine ⟨fun hfits => ?_, fun hlong => ?_⟩
  · obtain ⟨e, he, hrun⟩ := sendRead_fits deliverFrame hlen hfits (Nat.min_le_right _ _) hq hanswers
    rw [deliverFrame_heard a s _ he.epoch] at hrun
    exact ⟨_, e, command_done hq (hbody.trans hrun) (he.quiet hq rfl), rfl, he, .of rfl he.epoch, .of rfl he.epoch⟩
  · obtain ⟨e, he, hrun⟩ := sendRead_tooLong deliverFrame hlen hlong hq hanswers
    obtain ⟨-, hnone, -⟩ := hlong
    have hframe : (s.heard a).frame = s.frame := by rw [State.heard, hnone]; rfl
    exact ⟨_, e, command_err hq (hbody.trans hrun) (he.quiet hq rfl), rfl, he, .of rfl hframe he.epoch⟩

/-- R58, R61: the I-block with a payload that passes the length check is a frame that can be sent. -/
theorem length_iBlock_le {nout : Nat} (h : nout ≤ Config.maxTxPayload) (e : Target) (s : State) :
    ([pcbIByte e.mark, e.tn] ++ s.txBytes 0 nout).length ≤ Config.maxSend := by
  simp only [Config.maxTxPayload, Config.maxSend, List.length_append, List.length_cons, List.length_nil,
    State.length_txBytes] at *
  omega

/-- R68: the first way in which a frame can fail. -/
theorem notReady_mem_frameFailures (cfg : Config.Params) (w : List Byte) :
    { busy := [false], miso := [], code := .notReady, bus := notReadyTrace } ∈ frameFailures cfg w [] := by
  rw [frameFailures, if_pos (.inr rfl)]
  exact List.mem_cons_self

/-- Settles O34: the I-block sent and the answer read, in the engine, from the state its entry makes; a failure of the
I-block is one of the first frame (`exec_firstFrame_endsBy`). -/
theorem transceiveEntersEngine : Obligations.TransceiveEntersEngine := by
  intro s e hq htn hnout hcap he block u
  have hbody : transceiveBody s = inEngine (engineEnter e s.a.w1.toNat) s := transceiveBody_engine htn hnout hcap he
  have hlen : block.length ≤ Config.maxSend := length_iBlock_le hnout e s
  refine ⟨?_, fun hsupplied hsel => ?_⟩
  · intro a hanswers es
    refine ⟨fun hfits => ?_, fun hlong => ?_⟩
    · obtain ⟨env, henv, hrun⟩ := sendRead_fits (s := s.enterEngine) (fun n => Op.ret (After.received n)) hlen hfits
        (Nat.le_refl _) hq hanswers
      have hend := command_received hq (hbody.trans (inEngine_ok hrun)) (henv.quiet hq rfl)
      exact ⟨_, env, hend, rfl, henv, .of rfl henv.epoch⟩
    · obtain ⟨env, henv, hrun⟩ := sendRead_tooLong (s := s.enterEngine) (fun n => Op.ret (After.received n)) hlen hlong
        hq hanswers
      exact ⟨_, env, command_err hq (hbody.trans (inEngine_err hrun)) (henv.quiet hq rfl), rfl, henv⟩
  · have hruns : s.engineRuns := ⟨htn, by rw [he]; rfl, hnout, hcap⟩
    have hfirst : firstFrame s .transceive (sendBytesOf s.cfg block) 0
        { s with r := 0, level := 0, acc := 0, estate := .failed } := ⟨rfl, .inr ⟨hruns, ⟨e, he, rfl⟩, rfl⟩⟩
    exact exec_firstFrame_endsBy hq hsel hsupplied hfirst rfl (notReady_mem_frameFailures _ _)

end Sys2Proof.Machine
end

section
/-!
PROOFS. The turns of the engine's loop (R113 to R125): the frames it rejects, and what it does with each of the blocks
it accepts. What the instruction does in a state is said once, as the step inside the engine that it runs there
(`Turns`); a turn then ends as that step does.
-/

namespace Sys2Proof.Machine

/-- From `s` the instruction `i` is a turn of the engine that runs the step `x`. -/
def Turns (i : Instr) (s : State) (x : Op After) : Prop :=
  ∃ body, exec i s = command body s ∧ body s = inEngine x s

section
variable {i : Instr} {s t : State} {x : Op After}

/-- R118: a turn that ends the exchange. -/
theorem Turns.done (h : Turns i s x) (hq : s.quiet = true) {res res1 : Word} (hx : x s = .ok (.done res res1) t)
    (ht : t.quiet = true) : exec i s = .next (t.complete .ok res res1) := by
  obtain ⟨body, hexec, hbody⟩ := h
  exact hexec.trans (command_done hq (hbody.trans (inEngine_ok hx)) ht)

/-- R113: a turn that reads another frame. -/
theorem Turns.received (h : Turns i s x) (hq : s.quiet = true) {n : Nat} (hx : x s = .ok (.received n) t)
    (ht : t.quiet = true) : exec i s = .next (t.toReceived n) := by
  obtain ⟨body, hexec, hbody⟩ := h
  exact hexec.trans (command_received hq (hbody.trans (inEngine_ok hx)) ht)

/-- R113: a turn that fails at once sets `ESTATE`, ends the command and changes nothing else. -/
theorem Turns.fails (h : Turns i s x) (hq : s.quiet = true) {c : ErrCode} (hx : x s = .err c s) :
    exec i s = .next (({ s with estate := .failed }).completeError c 0#32) := by
  obtain ⟨body, hexec, hbody⟩ := h
  exact hexec.trans (command_err hq (hbody.trans (inEngine_err hx)) hq)

end

section
variable {s : State} {e : Target} {n : Nat} (hs : s.seq = .received n) (he : s.target? s.operandByte = some e)
include hs he

/-- R58 to R60: the meaning of every control byte is a turn of the engine that classifies the frame first. -/
theorem turns_classified {i : Instr} (hi : i.format = .pcb) : ∃ x, Turns i s (classified e n x) := by
  cases i with
  | pcbI _ | pcbIChained _ | pcbR _ | pcbSWtx => exact ⟨_, _, engineTurn_eq hs he _, rfl⟩
  | _ => cases hi

/-- R115: where the read brought no byte the row of the R-block is the NAK. -/
theorem turns_noResponse (hn : n = 0) (m : Bool) : Turns (.pcbR m) s (onNoResponse e) := by
  subst hn
  exact ⟨_, engineTurn_eq hs he _, rfl⟩

variable (hn : 2 ≤ n) (hown : s.frameByte 1 = e.tn)
include hn hown

/-- R62: the turn on a frame from the target is what its control byte says. -/
theorem turns_own {i : Instr} {f : Target → Nat → Op After} (hi : exec i s = engineTurn f s) :
    Turns i s (f e n) :=
  ⟨_, hi.trans (engineTurn_eq hs he f), inEngine_congr (classified_own hn hown _)⟩

/-- R118: an I-block without the chaining flag, with the current mark. -/
theorem turns_final : Turns (.pcbI e.mark) s (onFinal e n) := by
  have h := turns_own hs he hn hown (i := .pcbI e.mark) rfl
  rwa [if_pos rfl] at h

/-- R119: an I-block with the chaining flag, with the current mark. -/
theorem turns_chained : Turns (.pcbIChained e.mark) s (onChained e n) := by
  have h := turns_own hs he hn hown (i := .pcbIChained e.mark) rfl
  rwa [if_pos rfl] at h

/-- R121: an S(WTX). -/
theorem turns_extension : Turns .pcbSWtx s (onExtension e n) := turns_own hs he hn hown rfl

/-- R62, R123: an I-block with the mark that is not the current one, and a received R-block, are bad PCBs. -/
theorem turns_badPcb {i : Instr} (hi : i = .pcbI (!e.mark) ∨ i = .pcbIChained (!e.mark) ∨ ∃ m, i = .pcbR m) :
    Turns i s (Op.raise .badPcb) := by
  have hmark : (!e.mark) ≠ e.mark := by simp
  rcases hi with rfl | rfl | ⟨m, rfl⟩
  · have h := turns_own hs he hn hown (i := .pcbI (!e.mark)) rfl
    rwa [if_neg hmark] at h
  · have h := turns_own hs he hn hown (i := .pcbIChained (!e.mark)) rfl
    rwa [if_neg hmark] at h
  · exact turns_own hs he hn hown (f := fun _ _ => Op.raise .badPcb) rfl

end

/-! ## Frames that are rejected -/

/-- R116: a frame of one byte. -/
theorem classified_short (s : State) (e : Target) (x : Op After) : classified e 1 x s = .err .shortFrame s := rfl

/-- R117: a frame for another target. -/
theorem classified_foreign {s : State} {e : Target} {n : Nat} (hn : 2 ≤ n) (hother : s.frameByte 1 ≠ e.tn)
    (x : Op After) : classified e n x s = .err .cidMismatch s := by
  rw [classified, if_neg (by omega), if_neg (by omega), if_pos hother]

/-- R62: where `FRAME[0]` is no control byte of the engine's, the frame is classified as one with an R-block is. -/
theorem step_unknownPcb {s : State} {n : Nat} (hs : s.seq = .received (n + 1))
    (h : ∀ i : Instr, i.format = .pcb → encode i ≠ s.frameByte 0) : step s = exec (.pcbR false) s := by
  have hnone : fetch s = none := by
    refine Option.eq_none_iff_forall_ne_some.mpr fun i hi => ?_
    rw [fetch_received hs, accepted_eq_some] at hi
    exact h i (decodePcb_format hi) (encode_of_decodePcb hi)
  rw [step_unfetched (by simp [hs]) hnone, noInstruction, hs]
  exact unknownPcb_eq s

section
variable {s : State} {e : Target} {n : Nat} (hq : s.quiet = true) (hs : s.seq = .received n)
  (he : s.target? s.operandByte = some e) {i : Instr} (hi : i.format = .pcb)
include hq hs he hi

/-- R116: every control byte's turn rejects a frame of one byte. -/
theorem exec_short (hn : n = 1) :
    exec i s = .next (({ s with estate := .failed }).completeError .shortFrame 0#32) := by
  subst hn
  obtain ⟨x, hturns⟩ := turns_classified hs he hi
  exact hturns.fails hq (classified_short s e x)

/-- R117: every control byte's turn, that of S(WTX) too, rejects a frame for another target. -/
theorem exec_foreign (hn : 2 ≤ n) (hother : s.frameByte 1 ≠ e.tn) :
    exec i s = .next (({ s with estate := .failed }).completeError .cidMismatch 0#32) := by
  obtain ⟨x, hturns⟩ := turns_classified hs he hi
  exact hturns.fails hq (classified_foreign hn hother x)

end

/-- Settles O39: the two checks before the control byte is looked at hold for every turn, that on an unknown control
byte included, and that turn then fails. -/
theorem rejectedFrames : Obligations.RejectedFrames := by
  intro s e n hq hs he
  refine ⟨fun i hi => ⟨exec_short hq hs he hi, exec_foreign hq hs he hi⟩, fun hunknown => ?_⟩
  have hstep : 1 ≤ n → step s = exec (.pcbR false) s := fun hn => by
    obtain ⟨m, rfl⟩ := Nat.exists_eq_add_of_le' hn
    exact step_unknownPcb hs hunknown
  refine ⟨fun hn => (hstep hn.ge).trans (exec_short hq hs he rfl hn),
    fun hn hother => (hstep (by omega)).trans (exec_foreign hq hs he rfl hn hother), fun hn hown => ?_⟩
  have hbad := turns_badPcb hs he hn hown (.inr (.inr ⟨false, rfl⟩))
  exact (hstep (by omega)).trans (hbad.fails hq rfl)

/-! ## The I-blocks -/

section
variable {s : State} {e : Target} {n : Nat}

/-- R118: a last block that fits ends the exchange. -/
theorem onFinal_ok (h : s.acc + (n - 2) ≤ s.a.w2.toNat) :
    onFinal e n s =
      .ok (.done (BitVec.ofNat 32 (s.acc + (n - 2))) 0#32) ((s.takePart e n).setEState .complete) := by
  rw [onFinal, Op.andThen_ok (acceptPart_ok h), Op.upd_andThen]
  rfl

/-- R124: a last block that does not fit. -/
theorem onFinal_overflow (h : s.a.w2.toNat < s.acc + (n - 2)) : onFinal e n s = .err .overflow s :=
  Op.andThen_err (acceptPart_err h)

/-- R119: a chained block after a first part. -/
theorem onChained_depth (h : s.level = 1) : onChained e n s = .err .chainDepth s := if_pos h

/-- R124: a first part that does not fit. -/
theorem onChained_overflow (hlevel : s.level ≠ 1) (h : s.a.w2.toNat < s.acc + (n - 2)) :
    onChained e n s = .err .overflow s := by
  rw [onChained, if_neg hlevel, Op.andThen_err (acceptPart_err h)]

/-- R125: what toggling the mark of the target of the exchange does to the registry. -/
theorem toggled.of_exchange {t : State} (he : s.target? s.operandByte = some e)
    (h : t.registry = (s.takePart e n).registry) : toggled s t e :=
  .of (by rw [State.target?_tn he]; exact he) h

end

/-- Settles O35: the turn on a last block with the current mark, which fits or not, and with the other mark. -/
theorem finalBlock : Obligations.FinalBlock := by
  intro s e n hq hs he hn hown
  have hturns := turns_final hs he hn hown
  refine ⟨fun hfit => ?_, fun hover => hturns.fails hq (onFinal_overflow hover),
    (turns_badPcb hs he hn hown (.inl rfl)).fails hq rfl⟩
  exact ⟨_, hturns.done hq (onFinal_ok hfit) hq, rfl, .of rfl rfl, .of_exchange he rfl⟩

/-- What the environment has in store does not look at the rest of the state. -/
theorem State.answers.congr {s t : State} {n : Nat} {a : Answer} (h : s.answers n a) (hc : t.cfg = s.cfg)
    (he : t.env = s.env) : t.answers n a := by
  rw [State.answers, State.supplied, hc, he]
  exact h

/-- What a turn that has taken a first part and read the next frame leaves (R119, R120). -/
theorem State.chained_eq (s : State) (e : Target) (n : Nat) (a : Answer) (es : List BusEvent) (env : Env) :
    (((((s.takePart e n).levelUp.setEState .chaining).heard a).ranBus es env).setEState .awaitingResponse).toReceived
        a.bytes.length =
      { ((s.heard a).ranBus es env) with
        mem := (s.takePart e n).mem, registry := (s.takePart e n).registry, acc := s.acc + (n - 2), level := 1
        estate := .awaitingResponse, seq := .received a.bytes.length } := by
  simp only [State.toReceived, State.setEState, State.ranBus, State.heard, State.storeFrame, State.levelUp,
    State.takePart, State.setMark, State.storeRx]

/-- Settles O36: the turn on a first part that is taken (`onChained_eq`, `sendAwait_fits`), and the three it rejects. -/
theorem chainedBlock : Obligations.ChainedBlock := by
  intro s e n hq hs he hn hown
  have hturns := turns_chained hs he hn hown
  refine ⟨?_, fun hlevel => hturns.fails hq (onChained_depth hlevel),
    fun hlevel hover => hturns.fails hq (onChained_overflow hlevel hover),
    (turns_badPcb hs he hn hown (.inr (.inl rfl))).fails hq rfl⟩
  intro hlevel hfit a hfits hanswers es
  obtain ⟨env, henv, hrun⟩ := sendAwait_fits (s := (s.takePart e n).levelUp.setEState .chaining)
    (data := [pcbRByte (!e.mark), e.tn]) (by simp [Config.maxSend]) hfits (by simp : _ = s.cfg) (by simp : _ = s.env)
    ((State.quiet_congr (by simp)).trans hq) (hanswers.congr (by simp) (by simp))
  have hend := hturns.received hq ((onChained_eq hlevel hfit).trans hrun) (henv.quiet (s := s) hq rfl)
  rw [State.chained_eq] at hend
  exact ⟨_, env, hend, rfl, henv, .of rfl henv.epoch, .of rfl henv.epoch, .of_exchange he rfl⟩

/-! ## The R-block and the S-block -/

section
variable {s : State} {e : Target} {n : Nat}

/-- R115: no response, with a retry left. -/
theorem onNoResponse_nak (h : s.r < Config.retryMax) :
    onNoResponse e s = ((sendFrame [pcbRByte e.mark, e.tn] 8).andThen (readAnswer e)) s.retried := by
  rw [onNoResponse, if_neg h.ne]
  rfl

/-- R122: no response, with the retries used up. -/
theorem onNoResponse_retries (h : s.r = Config.retryMax) : onNoResponse e s = .err .retries s := if_pos h

/-- R121: an S(WTX) with its third byte and a retry left. -/
theorem onExtension_echo (hn : 3 ≤ n) (hr : s.r < Config.retryMax) :
    onExtension e n s = ((sendFrame [pcbWtxByte, e.tn, s.frameByte 2] 8).andThen
      ((Op.upd (State.setEState .awaitingResponse)).andThen (readAnswer e)))
        (s.retried.setEState .extensionRequested) := by
  rw [onExtension, if_neg (by omega), if_neg hr.ne]
  rfl

/-- R121: an S(WTX) without its third byte. -/
theorem onExtension_short (hn : n < 3) : onExtension e n s = .err .shortFrame s := if_pos hn

/-- R121, R122: an S(WTX) with the retries used up. -/
theorem onExtension_retries (hn : 3 ≤ n) (hr : s.r = Config.retryMax) : onExtension e n s = .err .retries s := by
  rw [onExtension, if_neg (by omega), if_pos hr]

end

/-- Settles O37: the NAK and the read after it, the retries used up, and a received R-block. -/
theorem rBlock : Obligations.RBlock := by
  intro s e hq he
  refine ⟨?_, fun hs hr => (turns_noResponse hs he rfl _).fails hq (onNoResponse_retries hr),
    fun n m hs hn hown => (turns_badPcb hs he hn hown (.inr (.inr ⟨m, rfl⟩))).fails hq rfl⟩
  intro hs hr a hfits hanswers es
  obtain ⟨env, henv, hrun⟩ := sendRead_fits (s := s.retried) (data := [pcbRByte e.mark, e.tn])
    (fun n => Op.ret (After.received n)) (by simp [Config.maxSend]) hfits (Nat.le_refl _) hq hanswers
  have hend := (turns_noResponse hs he rfl e.mark).received hq ((onNoResponse_nak hr).trans hrun)
    (henv.quiet (s := s) hq rfl)
  exact ⟨_, env, hend, rfl, henv, .of rfl henv.epoch, congrFun (State.memByte_congr rfl henv.epoch)⟩

/-- What a turn that has echoed an S(WTX) and read the next frame leaves (R121). -/
theorem State.extended_eq (s : State) (a : Answer) (es : List BusEvent) (env : Env) :
    ((((s.retried.setEState .extensionRequested).heard a).ranBus es env).setEState .awaitingResponse).toReceived
        a.bytes.length =
      { ((s.heard a).ranBus es env) with
        r := s.r + 1, estate := .awaitingResponse, seq := .received a.bytes.length } := by
  simp only [State.toReceived, State.setEState, State.ranBus, State.heard, State.storeFrame, State.retried]

/-- Settles O38: the echo and the read after it (`sendAwait_fits`), and the two S(WTX) the engine rejects. -/
theorem extensionBlock : Obligations.ExtensionBlock := by
  intro s e n hq hs he hown
  have hturns : 2 ≤ n → Turns .pcbSWtx s (onExtension e n) := fun hn => turns_extension hs he hn hown
  refine ⟨?_, fun hn => (hturns hn.ge).fails hq (onExtension_short (by omega)),
    fun hn hr => (hturns (by omega)).fails hq (onExtension_retries hn hr)⟩
  intro hn hr a hfits hanswers es
  obtain ⟨env, henv, hrun⟩ := sendAwait_fits (s := s.retried.setEState .extensionRequested)
    (data := [pcbWtxByte, e.tn, s.frameByte 2]) (by simp [Config.maxSend]) hfits rfl rfl hq hanswers
  have hend := (hturns (by omega)).received hq ((onExtension_echo hn hr).trans hrun) (henv.quiet (s := s) hq rfl)
  rw [State.extended_eq] at hend
  exact ⟨_, env, hend, rfl, henv, .of rfl henv.epoch, congrFun (State.memByte_congr rfl henv.epoch)⟩

end Sys2Proof.Machine
end

section
/-!
PROOFS. Whole exchanges (R113 to R127), a step of the machine for each frame read. `Exchanging` says where an exchange
stands between two steps; the steps are those of the engine's turns, with the control byte fetched from the frame read.
-/

namespace Sys2Proof.Machine

theorem stepN_succ {s t : State} (h : step s = .next t) (n : Nat) : stepN (n + 1) s = stepN n t := by
  rw [stepN, h]

/-! ## What the environment has in store -/

section
variable {s t : State} {a : Answer} {as : List Answer}

/-- The supply for several answers is that for the first and that for the rest. -/
theorem State.answersAll.split (h : s.answersAll (a :: as)) :
    s.supplied (readyFor (1 + a.windows s.cfg) ++ readyFor (as.map fun x => 1 + x.windows s.cfg).sum)
      (a.miso ++ as.flatMap Answer.miso) := by
  rw [← readyFor_add]
  exact h

theorem State.answersAll.head (h : s.answersAll (a :: as)) : s.answers 1 a :=
  ⟨(List.prefix_append _ _).trans h.split.1, (List.prefix_append _ _).trans h.split.2⟩

/-- What is left of the supply after the first answer. -/
theorem State.answersAll.tail (h : s.answersAll (a :: as)) {es : List BusEvent}
    (he : s.env.After t.env es (3 + 3 * a.windows s.cfg) a.miso.length) (hc : t.cfg = s.cfg) : t.answersAll as := by
  have hlen : (readyFor (1 + a.windows s.cfg)).length = 3 + 3 * a.windows s.cfg := by rw [length_readyFor]; ring
  rw [← hlen] at he
  rw [State.answersAll, hc]
  exact he.supplied h.split rfl

end

/-! ## Where an exchange stands -/

/-- In `t` the engine has read the frame `bs` in the exchange of the command that `s` is in, with the target `e` as its
entry now is; since `s` the host was quiet, the bus events were `es`, and `nb` outcomes of waits and `nm` MISO bytes
were taken. -/
structure Exchanging (s t : State) (e : Target) (bs : List Byte) (es : List BusEvent) (nb nm : Nat) : Prop where
  seq : t.seq = .received bs.length
  a : t.a = s.a
  cfg : t.cfg = s.cfg
  target : t.target? t.operandByte = some e
  frame : ∀ i (h : i < bs.length), t.frameByte i = bs[i]
  after : s.env.After t.env es nb nm

section
variable {s t : State} {e : Target} {bs p : List Byte} {es : List BusEvent} {nb nm : Nat}

/-- R113: the next step is the turn that the frame's control byte says. -/
theorem Exchanging.step_eq {i : Instr} {c : Byte} (h : Exchanging s t e ([encode i, c] ++ p) es nb nm)
    (hi : i.format = .pcb) : step t = exec i t := by
  refine step_fetched (by simp [h.seq]) ?_
  have hdecode : decodePcb (encode i) = .ok i := by
    have hround := decode_encode i
    rwa [hi] at hround
  rw [fetch_received h.seq, h.frame 0 (by simp)]
  exact accepted_eq_some.mpr hdecode

theorem Exchanging.own {x : Byte} (h : Exchanging s t e ([x, e.tn] ++ p) es nb nm) : t.frameByte 1 = e.tn :=
  h.frame 1 (by simp)

/-- R118, R119: the payload of a block is what follows its first two bytes. -/
theorem Exchanging.payload {x c : Byte} (h : Exchanging s t e ([x, c] ++ p) es nb nm) :
    t.frameBytes 2 p.length = p := by
  apply List.ext_getElem (State.length_frameBytes t 2 p.length)
  intro i _ hi
  have hbyte := h.frame (2 + i) (by simp; omega)
  simpa [State.frameBytes, Nat.add_comm 2 i] using hbyte

/-- `u` is `t` after a last block from the target `e`, with the payload `p` (R118). -/
structure Finished (t u : State) (e : Target) (p : List Byte) : Prop where
  completed : u.completed = true
  err : u.err = .ok
  result : u.result = BitVec.ofNat 32 (t.acc + p.length)
  result1 : u.result1 = 0#32
  estate : u.estate = .complete
  stored : rxStored t u t.acc p
  toggled : toggled t u e
  bus : u.env.bus = t.env.bus

/-- R118: the step on a last block with the current mark, whose payload fits. -/
theorem Exchanging.finishes (h : Exchanging s t e ([pcbIByte e.mark, e.tn] ++ p) es nb nm) (hq : s.quiet = true)
    (hfit : t.acc + p.length ≤ s.a.w2.toNat) : ∃ u, step t = .next u ∧ Finished t u e p := by
  have hlen : ([pcbIByte e.mark, e.tn] ++ p).length - 2 = p.length := by simp
  obtain ⟨hfinal, -, -⟩ := finalBlock t e _ (h.after.quiet hq rfl) h.seq h.target (by simp) h.own
  rw [hlen, h.a, h.payload] at hfinal
  obtain ⟨u, hexec, heq, hstored, htoggled⟩ := hfinal hfit
  refine ⟨u, (h.step_eq (i := .pcbI e.mark) rfl).trans hexec, ?_⟩
  constructor
  case stored => exact hstored
  case toggled => exact htoggled
  all_goals rw [heq]; rfl

/-- R119, R120: the step on a first part with the current mark, whose payload fits, where the environment supplies an
answer. -/
theorem Exchanging.continues (h : Exchanging s t e ([pcbIChainedByte e.mark, e.tn] ++ p) es nb nm)
    (hq : s.quiet = true) (hlevel : t.level ≠ 1) (hfit : t.acc + p.length ≤ s.a.w2.toNat) {b : Answer}
    (hb : b.fits 508 (e.fwt.toNat / 1000)) (hanswers : t.answers 1 b) :
    ∃ u, step t = .next u ∧
      Exchanging s u { e with mark := !e.mark } b.bytes
        (es ++ (sendTrace s.cfg [pcbRByte (!e.mark), e.tn] ++ b.trace s.cfg))
        (nb + (3 + 3 * b.windows s.cfg)) (nm + b.miso.length) ∧
      u.acc = t.acc + p.length ∧ rxStored t u t.acc p ∧ toggled t u e := by
  have hlen : ([pcbIChainedByte e.mark, e.tn] ++ p).length - 2 = p.length := by simp
  obtain ⟨hchained, -⟩ := chainedBlock t e _ (h.after.quiet hq rfl) h.seq h.target (by simp) h.own
  rw [hlen, h.a, h.cfg, h.payload] at hchained
  obtain ⟨u, env, hexec, heq, hafter, hstored, hframe, htoggled⟩ := hchained hlevel hfit b hb hanswers
  have htn : u.operandByte = e.tn := by
    have hsame : u.operandByte = t.operandByte := by rw [heq]; rfl
    rw [hsame, ← State.target?_tn h.target]
  have henv : u.env = env := by rw [heq]; rfl
  refine ⟨u, (h.step_eq (i := .pcbIChained e.mark) rfl).trans hexec, ?_, by rw [heq], hstored, htoggled⟩
  exact {
    seq := by rw [heq]
    a := by rw [heq]; exact h.a
    cfg := by rw [heq]; exact h.cfg
    target := by rw [htn]; exact htoggled.1
    frame := hframe.1
    after := h.after.trans (henv ▸ hafter) }

end

/-! ## The beginning of an exchange -/

/-- In `s` a `TRANSCEIVE` to the installed target `e` has been accepted, its operands pass the checks, and the host is
quiet (R107, R108, R111). -/
structure Begins (s : State) (e : Target) : Prop where
  quiet : s.quiet = true
  seq : s.seq = .start
  opc : s.opc = 0x40#8
  operand : s.operandByte ≠ 0#8
  nout : s.a.w1.toNat ≤ 258
  cap : s.a.w2.toNat ≤ 1024
  target : s.target? s.operandByte = some e

/-- `t` is `s` after the engine's entry and its first read, which has brought the frame `bs` (R113). -/
structure Entered (s t : State) (bs : List Byte) : Prop where
  r : t.r = 0
  level : t.level = 0
  acc : t.acc = 0
  registry : t.registry = s.registry
  memByte : t.memByte = s.memByte
  frame : frameStored s t bs

/-- R113, R114: the first step sends the I-block and reads the answer. -/
theorem Begins.enters {s : State} {e : Target} (h : Begins s e) {a : Answer} (ha : a.fits 508 (e.fwt.toNat / 1000))
    (hanswers : s.answers 1 a) :
    ∃ t, step s = .next t ∧
      Exchanging s t e a.bytes
        (sendTrace s.cfg ([pcbIByte e.mark, e.tn] ++ s.txBytes 0 s.a.w1.toNat) ++ a.trace s.cfg)
        (3 + 3 * a.windows s.cfg) a.miso.length ∧
      Entered s t a.bytes := by
  have hfetch : fetch s = some .transceive := by
    rw [fetch_start h.seq, h.opc]
    rfl
  obtain ⟨henters, -⟩ := transceiveEntersEngine s e h.quiet h.operand h.nout h.cap h.target
  obtain ⟨hfits, -⟩ := henters a hanswers
  obtain ⟨t, env, hexec, heq, hafter, hframe⟩ := hfits ha
  have henv : t.env = env := by rw [heq]; rfl
  have hreg : t.registry = s.registry := by rw [heq]; rfl
  refine ⟨t, (step_fetched (by simp [h.seq]) hfetch).trans hexec, ?_, ?_⟩
  · exact {
      seq := by rw [heq]
      a := by rw [heq]; rfl
      cfg := by rw [heq]; rfl
      target := by
        have hsame : t.operandByte = s.operandByte := by rw [heq]; rfl
        rw [hsame, State.target?, hreg]
        exact h.target
      frame := hframe.1
      after := henv ▸ hafter }
  · exact {
      r := by rw [heq]; rfl
      level := by rw [heq]; rfl
      acc := by rw [heq]; rfl
      registry := hreg
      memByte := State.memByte_congr (by rw [heq]; rfl) (henv ▸ hafter.epoch)
      frame := hframe }

/-- A store into `RXBUF` is seen from an earlier state whose bytes read alike. -/
theorem rxStored.of_memByte {s t u : State} {k : Nat} {bs : List Byte} (h : rxStored t u k bs)
    (hm : t.memByte = s.memByte) : rxStored s u k bs := by
  rw [rxStored, ← hm]
  exact h

/-- A mark toggle is seen from an earlier state with the same registry. -/
theorem toggled.of_registry {s t u : State} {e : Target} (h : toggled t u e) (hr : t.registry = s.registry) :
    toggled s u e := by
  simp only [toggled, State.target?, hr] at h ⊢
  exact h

/-- Settles O40: the entry, then the turn on the one block. -/
theorem singleBlockExchange : Obligations.SingleBlockExchange := by
  intro s e a p hq hseq hopc hoperand hnout hcap he hfits hanswers hbytes hp
  obtain ⟨t, hstep, hexch, hent⟩ := Begins.enters ⟨hq, hseq, hopc, hoperand, hnout, hcap, he⟩ hfits hanswers
  rw [hbytes] at hexch
  obtain ⟨u, hstep', hfin⟩ := hexch.finishes hq (by rw [hent.acc, Nat.zero_add]; exact hp)
  have hresult := hfin.result
  have hstored := hfin.stored.of_memByte hent.memByte
  rw [hent.acc] at hresult hstored
  rw [Nat.zero_add] at hresult
  refine ⟨u, (stepN_succ hstep 1).trans (stepN_succ hstep' 0), hfin.completed, hfin.err, hresult, hfin.result1,
    hfin.estate, hstored, hfin.toggled.of_registry hent.registry, ?_⟩
  rw [hfin.bus, hexch.after.bus, List.append_assoc]

/-- R119: two parts stored one after the other are one contiguous payload. -/
theorem rxStored.append {s t u : State} {k : Nat} {p q : List Byte} (hp : rxStored s t k p)
    (hq : rxStored t u (k + p.length) q) : rxStored s u k (p ++ q) := by
  obtain ⟨hp, hp'⟩ := hp
  obtain ⟨hq, hq'⟩ := hq
  refine ⟨fun i hi => ?_, fun off hoff => ?_⟩
  · rw [List.length_append] at hi
    by_cases hlt : i < p.length
    · rw [List.getElem_append_left hlt, ← hp i hlt]
      exact hq' _ (by omega)
    · rw [List.getElem_append_right (by omega), ← hq (i - p.length) (by omega), Nat.add_assoc,
        Nat.add_sub_cancel' (by omega)]
  · rw [List.length_append] at hoff
    rw [hq' off (by omega), hp' off (by omega)]

/-- R125: a mark toggled twice is as it was. -/
theorem toggled.twice {s t u : State} {e : Target} (he : s.target? e.tn = some e) (h : toggled s t e)
    (h' : toggled t u { e with mark := !e.mark }) (tn : Byte) : u.target? tn = s.target? tn := by
  obtain ⟨-, hothers, -⟩ := h
  obtain ⟨hown, hothers', -⟩ := h'
  by_cases htn : tn = e.tn
  · rw [htn, he]
    simpa using hown
  · rw [hothers' tn htn, hothers tn htn]

/-- Settles O41: the entry, the turn on the first part, and the turn on the last. -/
theorem chainedExchange : Obligations.ChainedExchange := by
  intro s e a b p q hq hseq hopc hoperand hnout hcap he hfits hfits' hanswers hbytes hbytes' hpq
  obtain ⟨t, hstep, hexch, hent⟩ := Begins.enters ⟨hq, hseq, hopc, hoperand, hnout, hcap, he⟩ hfits hanswers.head
  have hrest : t.answers 1 b := (hanswers.tail hexch.after hexch.cfg).head
  rw [hbytes] at hexch
  obtain ⟨u, hstep', hexch', hacc, hstored, htoggled⟩ := hexch.continues hq (by rw [hent.level]; decide)
    (by rw [hent.acc]; omega) hfits' hrest
  rw [hent.acc, Nat.zero_add] at hacc
  rw [hbytes'] at hexch'
  obtain ⟨v, hstep'', hfin⟩ := hexch'.finishes hq (by rw [hacc]; exact hpq)
  have hresult := hfin.result
  have hstored' := hfin.stored
  rw [hacc] at hresult hstored'
  rw [hent.acc] at hstored
  have he' : s.target? e.tn = some e := by rw [State.target?_tn he]; exact he
  refine ⟨v, (stepN_succ hstep 2).trans ((stepN_succ hstep' 1).trans (stepN_succ hstep'' 0)), hfin.completed, hfin.err,
    hresult, hfin.estate, ?_, (htoggled.of_registry hent.registry).twice he' hfin.toggled, ?_⟩
  · exact (hstored.of_memByte hent.memByte).append (by rw [Nat.zero_add]; exact hstored')
  · rw [hfin.bus, hexch'.after.bus]
    simp only [List.append_assoc]

/-! ## A card that never answers -/

theorem sameBytes.trans {s t u : State} (h : sameBytes s t) (h' : sameBytes t u) : sameBytes s u :=
  ⟨fun off => (h'.1 off).trans (h.1 off), fun k => (h'.2 k).trans (h.2 k)⟩

/-- A read that brings no byte changes no byte. -/
theorem sameBytes.of_noFrame {s t : State} (hm : ∀ off, t.memByte off = s.memByte off) (hf : frameStored s t []) :
    sameBytes s t := ⟨hm, fun k => hf.2 k (Nat.zero_le k)⟩

/-- `u` is `t` after the engine has given up on the card, with the bus events `es` (R122). -/
structure GaveUp (t u : State) (es : List BusEvent) : Prop where
  completed : u.completed = true
  err : u.err = .retries
  result : u.result = 0xFFFFFFFF#32
  result1 : u.result1 = 0#32
  estate : u.estate = .failed
  registry : u.registry = t.registry
  bytes : sameBytes t u
  bus : u.env.bus = t.env.bus ++ es

/-- What the engine gives up on stands before as well, with the bus events between. -/
theorem GaveUp.of_step {s t u : State} {es es' : List BusEvent} (h : GaveUp t u es') (hr : t.registry = s.registry)
    (hbytes : sameBytes s t) (hb : t.env.bus = s.env.bus ++ es) : GaveUp s u (es ++ es') :=
  { h with
    registry := h.registry.trans hr
    bytes := hbytes.trans h.bytes
    bus := by rw [h.bus, hb, List.append_assoc] }

section
variable {t : State} {e : Target}

/-- R115: where the read brought no byte the next step is the row of the R-block, with the current mark. -/
theorem step_noResponse (hs : t.seq = .received 0) (he : t.target? t.operandByte = some e) :
    step t = exec (.pcbR e.mark) t := by
  refine step_fetched (by simp [hs]) ?_
  rw [fetch_noResponse hs, exchange?_of_received hs he]
  rfl

/-- R122: no response, with the retries used up. -/
theorem gaveUp_of_retries (hq : t.quiet = true) (hs : t.seq = .received 0) (he : t.target? t.operandByte = some e)
    (hr : t.r = 5) : ∃ u, step t = .next u ∧ GaveUp t u [] := by
  obtain ⟨-, hretries, -⟩ := rBlock t e hq he
  exact ⟨_, (step_noResponse hs he).trans (hretries hs hr), rfl, rfl, rfl, rfl, rfl, rfl, .of rfl rfl rfl,
    (List.append_nil _).symm⟩

/-- R115, R122: with no answer to any of the R-blocks that are left the engine gives up. -/
theorem gaveUp_of_noAnswers (as : List Answer) (hq : t.quiet = true) (hs : t.seq = .received 0)
    (he : t.target? t.operandByte = some e) (hr : t.r + as.length = 5)
    (has : ∀ x ∈ as, x.fits 508 (e.fwt.toNat / 1000) ∧ x.bytes = []) (hanswers : t.answersAll as) :
    ∃ u, stepN (as.length + 1) t = some u ∧
      GaveUp t u (as.flatMap fun x => sendTrace t.cfg [pcbRByte e.mark, e.tn] ++ x.trace t.cfg) := by
  induction as generalizing t with
  | nil =>
    obtain ⟨u, hstep, hgave⟩ := gaveUp_of_retries hq hs he hr
    exact ⟨u, stepN_succ hstep 0, hgave⟩
  | cons a as ih =>
    rw [List.length_cons] at hr
    obtain ⟨hnak, -⟩ := rBlock t e hq he
    obtain ⟨hfits, hnone⟩ := has a List.mem_cons_self
    obtain ⟨v, env, hexec, heq, hafter, hframe, hmem⟩ := hnak hs (by omega) a hfits hanswers.head
    rw [hnone] at heq hframe
    have henv : v.env = env := by rw [heq]; rfl
    have hcfg : v.cfg = t.cfg := by rw [heq]; rfl
    have hreg : v.registry = t.registry := by rw [heq]; rfl
    have hrv : v.r = t.r + 1 := by rw [heq]
    have htarget : v.target? v.operandByte = some e := by
      have hsame : v.operandByte = t.operandByte := by rw [heq]; rfl
      rw [hsame, State.target?, hreg]
      exact he
    rw [← henv] at hafter
    obtain ⟨u, hsteps, hgave⟩ := ih (hafter.quiet hq rfl) (by rw [heq]; rfl) htarget (by omega)
      (fun x hx => has x (List.mem_cons_of_mem _ hx)) (hanswers.tail hafter hcfg)
    refine ⟨u, (stepN_succ ((step_noResponse hs he).trans hexec) _).trans hsteps, ?_⟩
    rw [List.flatMap_cons]
    rw [hcfg] at hgave
    exact hgave.of_step hreg (.of_noFrame hmem hframe) hafter.bus

end

/-- Settles O42: the entry, then the R-blocks (`gaveUp_of_noAnswers`). -/
theorem cardNeverAnswers : Obligations.CardNeverAnswers := by
  intro s e a as hq hseq hopc hoperand hnout hcap he hlen hall hanswers
  obtain ⟨hfits, hnone⟩ := hall a List.mem_cons_self
  obtain ⟨t, hstep, hexch, hent⟩ := Begins.enters ⟨hq, hseq, hopc, hoperand, hnout, hcap, he⟩ hfits hanswers.head
  have hframe := hent.frame
  rw [hnone] at hframe
  have hs : t.seq = .received 0 := by rw [hexch.seq, hnone]; rfl
  obtain ⟨u, hsteps, hgave⟩ := gaveUp_of_noAnswers as (hexch.after.quiet hq rfl) hs hexch.target
    (by rw [hent.r, hlen]) (fun x hx => hall x (List.mem_cons_of_mem _ hx)) (hanswers.tail hexch.after hexch.cfg)
  rw [hlen] at hsteps
  rw [hexch.cfg] at hgave
  have hgave' := hgave.of_step hent.registry (.of_noFrame (congrFun hent.memByte) hframe) hexch.after.bus
  refine ⟨u, (stepN_succ hstep 6).trans hsteps, hgave'.completed, hgave'.err, hgave'.result, hgave'.result1,
    hgave'.estate, hgave'.registry, hgave'.bytes, ?_⟩
  rw [hgave'.bus]
  simp only [List.append_assoc]

end Sys2Proof.Machine
end

section
/-!
PROOFS. The keep-alive probe (R130 to R132): `PROBE`, and the pass of `PROBE_ALL`, which ends at the last entry or at
the first one whose probe meets a transport error.
-/

namespace Sys2Proof.Machine

/-- R29: a read changes neither `TXBUF` nor `RXBUF`. -/
@[simp] theorem State.mem_ranBus_heard (a : Answer) (es : List BusEvent) (env : Env) (s : State) :
    ((s.heard a).ranBus es env).mem = s.mem := rfl

/-- R131: `PROBE` of a number no entry has. -/
theorem execProbe_noTarget {s : State} (hnone : s.target? s.operandByte = none) :
    ∃ body, exec .probe s = command body s ∧ body s = .err .noTarget s :=
  ⟨_, rfl, by rw [hnone]⟩

/-- R131: `PROBE` of an entry whose probe ends with a reason completes with that reason. -/
theorem execProbe_probed {s u : State} {e : Target} {reason : Nat} (hq : s.quiet = true)
    (he : s.target? s.operandByte = some e) (hprobe : probeOne e s = .ok reason u) (hu : u.quiet = true) :
    exec .probe s =
      .next (u.complete .ok (if reason = 0 then 1#32 else 0#32) (BitVec.ofNat 32 reason)) := by
  obtain ⟨body, hexec, hbody⟩ := execProbe_run he
  exact hexec.trans (command_done hq (hbody.trans (Op.bind_ok hprobe)) hu)

/-- Settles O43: the number no entry has, the probe of an entry whose answer the environment supplies
(`probeOne_answered`), and one whose frame fails (`exec_firstFrame_endsBy`). -/
theorem probeResult : Obligations.ProbeResult := by
  intro s hq
  refine ⟨fun hnone => ?_, fun e he => ⟨?_, fun hsupplied hsel => ?_⟩⟩
  · obtain ⟨body, hexec, hbody⟩ := execProbe_noTarget hnone
    exact hexec.trans (command_err hq hbody hq)
  · intro a ha hanswers es
    obtain ⟨env, henv, hprobe⟩ := probeOne_answered ha hq hanswers
    by_cases hverdict : probeVerdict e a = 0
    · simp only [hverdict, if_true] at hprobe
      have hend := execProbe_probed hq he hprobe (henv.quiet hq rfl)
      exact ⟨_, env, hend, henv, fun _ => rfl, fun h => absurd hverdict h, .of rfl henv.epoch,
        congrFun (State.memByte_congr rfl henv.epoch)⟩
    · simp only [hverdict, if_false] at hprobe
      have hend := execProbe_probed hq he hprobe (henv.quiet hq rfl)
      rw [if_neg hverdict] at hend
      exact ⟨_, env, hend, henv, fun h => absurd h hverdict, fun _ => rfl, .of rfl henv.epoch,
        congrFun (State.memByte_congr (by simp) henv.epoch)⟩
  · have hfirst : firstFrame s .probe (sendBytesOf s.cfg [pcbRByte e.mark, e.tn]) 0 s := ⟨⟨e, he, rfl⟩, rfl, rfl⟩
    exact exec_firstFrame_endsBy hq hsel hsupplied hfirst rfl (notReady_mem_frameFailures _ _)

/-! ## `PROBE_ALL` -/

/-- R132: a pass over all the entries. -/
theorem execProbeAll_answered {s : State} (hq : s.quiet = true) (hn : (s.registry.map Target.tn).Nodup)
    {as : List Answer} (hlen : as.length = s.registry.length) (ha : ∀ p ∈ s.registry.zip as, p.2.toProbe p.1)
    (hanswers : s.answersAll as) :
    ∃ u, exec .probeAll s = .next (u.complete .ok
        (BitVec.ofNat 32 (s.registry.length - (probeKept s.registry as).length))
        (BitVec.ofNat 32 (probeKept s.registry as).length)) ∧
      Probed s u (probeKept s.registry as) (probesTrace s.cfg s.registry as) (3 * probesWindows s.cfg as)
        (as.flatMap Answer.miso).length := by
  obtain ⟨u, hpass, hprobed⟩ := probeEach_answered s.registry [] [] as 0 hlen ha hq (bs := []) (ms := [])
    (by rw [List.append_nil, List.append_nil]; exact hanswers) (by rw [List.append_nil]; rfl) hn
  rw [List.append_nil, List.nil_append] at hprobed
  rw [List.append_nil, Nat.zero_add] at hpass
  have hcount : u.regcnt = (probeKept s.registry as).length := by
    rw [State.regcnt, hprobed.eq]
  refine ⟨u, command_done hq (hpass.trans ?_) (hprobed.after.quiet hq rfl), hprobed⟩
  simp only [probeEach, hcount]

/-- A window without read bytes takes no MISO byte, however it fails. -/
theorem miso_of_mem_frameFailures {cfg : Config.Params} {w : List Byte} {f : FrameFailure}
    (hf : f ∈ frameFailures cfg w []) : f.miso = [] := by
  rw [frameFailures, if_pos (.inr rfl)] at hf
  simp only [windowFailures, List.mem_cons, List.not_mem_nil, or_false] at hf
  rcases hf with rfl | rfl | rfl <;> rfl

/-- R132, R142: a pass that ends at the entry `e`, whose probe's frame fails. -/
theorem execProbeAll_fails {s : State} (hq : s.quiet = true) (hsel : s.sel = false)
    (hn : (s.registry.map Target.tn).Nodup) {pre post : List Target} {e : Target} {as : List Answer}
    (hr : s.registry = pre ++ e :: post) (hlen : as.length = pre.length) (ha : ∀ p ∈ pre.zip as, p.2.toProbe p.1)
    {f : FrameFailure} (hf : f ∈ frameFailures s.cfg (sendBytesOf s.cfg [pcbRByte e.mark, e.tn]) [])
    (hsupplied : s.supplied (readyFor (probesWindows s.cfg as) ++ f.busy) (as.flatMap Answer.miso)) :
    ∃ u, exec .probeAll s =
        .next (u.completeError f.code (BitVec.ofNat 32 (pre.length - (probeKept pre as).length))) ∧
      Probed s u (probeKept pre as ++ e :: post) (probesTrace s.cfg pre as ++ f.bus)
        (3 * probesWindows s.cfg as + f.busy.length) (as.flatMap Answer.miso).length := by
  have hmiso : f.miso = [] := miso_of_mem_frameFailures hf
  rw [← List.append_nil (as.flatMap Answer.miso)] at hsupplied
  obtain ⟨t, hpass, hprobed⟩ := probeEach_answered pre (e :: post) [] as 0 hlen ha hq hsupplied hr hn
  have hcfg : t.cfg = s.cfg := by rw [hprobed.eq]
  have hrest : t.supplied f.busy f.miso := by
    rw [hmiso]
    have hafter := hprobed.after
    rw [← length_readyFor] at hafter
    exact hafter.supplied hsupplied rfl
  obtain ⟨env, hprobe, henv⟩ := probeOne_failsBy (e := e) (hprobed.after.quiet hq rfl) (hprobed.sel hsel) hrest
    (by rw [hcfg]; exact hf)
  rw [hmiso] at henv
  have hend : probeEach s.registry 0 s =
      .ok (.failed f.code (BitVec.ofNat 32 (pre.length - (probeKept pre as).length))) (t.ranBus f.bus env) := by
    rw [hr, hpass, probeEach, Nat.zero_add]
    simp only [hprobe, id]
  have hlast : Probed t (t.ranBus f.bus env) t.registry f.bus f.busy.length 0 := ⟨rfl, fun _ => rfl, henv⟩
  have hreg : t.registry = probeKept pre as ++ e :: post := by rw [hprobed.eq]; rfl
  rw [hreg] at hlast
  exact ⟨_, command_failed hq hend (henv.quiet (hprobed.after.quiet hq rfl) rfl), hprobed.trans hlast⟩

/-- What a host reads in `ERR`, `RESULT` and `RESULT1` of a command whose run has ended with `v` (R142). -/
def Reported (u : State) : After → Prop
  | .done res res1 => u.err = .ok ∧ u.result = res ∧ u.result1 = res1
  | .failed c res1 => u.err = c ∧ u.result = failResult ∧ u.result1 = res1
  | .received _ => False

/-- How a pass ends looks at the registry it leaves alone. -/
theorem PassEnd.of_registry {kept es : List Target} {removed : Nat} {v : After} {t u : State}
    (h : PassEnd kept es removed v t) (hu : u.registry = t.registry) : PassEnd kept es removed v u := by
  simp only [PassEnd, hu] at h ⊢
  exact h

/-- A pass does not end with a frame read for the engine. -/
theorem PassEnd.not_received {kept es : List Target} {removed n : Nat} {t : State} :
    ¬ PassEnd kept es removed (.received n) t := by
  rintro (⟨_, _, _, hv⟩ | ⟨_, _, _, _, _, _, _, _, _, hv⟩) <;> cases hv

/-- R132: in every environment without a reset the pass ends after the last entry or at a transport error. -/
theorem execProbeAll_ends {s u : State} (hn : (s.registry.map Target.tn).Nodup) (hb : s.busy = true)
    (hreset : s.noReset = true) (h : exec .probeAll s = .next u) :
    ∃ v : After, PassEnd [] s.registry 0 v u ∧ u.completed = true ∧ Reported u v := by
  injection h with h
  subst h
  have hruns := runCommand_cases (.inl hb : s.steady) (body := fun s => probeEach s.registry 0 s)
    (P := fun _ v w => PassEnd [] s.registry 0 v w) (E := fun _ _ _ => False) fun t ht => by
      have hsame : t.registry = s.registry := ht.field State.registry fun _ => rfl
      rw [hsame]
      exact probeEach_pass s.registry [] 0 (ht.steady (.inl hb)) hsame (hsame ▸ hn)
  cases hruns with
  | complete t v w c res res1 first sel run last sel' how eq =>
    have hlast : w.registry = v.registry := last.field State.registry fun _ => rfl
    rw [eq]
    rcases how with ⟨rfl, hpass⟩ | ⟨rfl, hpass⟩ | ⟨-, -, hnot⟩
    · exact ⟨_, hpass.of_registry hlast, rfl, rfl, rfl, rfl⟩
    · exact ⟨_, hpass.of_registry hlast, rfl, rfl, rfl, rfl⟩
    · exact hnot.elim
  | received t v n first sel run how eq => exact absurd how PassEnd.not_received
  | cut how => exact (how.noReset hreset).elim

/-- Settles O44: the pass over all entries, the pass up to an entry whose probe fails, and a pass in any environment. -/
theorem probeAllResult : Obligations.ProbeAllResult := by
  refine ⟨?_, ?_⟩
  · intro s hq hok left
    have hleft : ∀ {u l es nb nm}, Probed s u l es nb nm → left u l := fun h => ⟨h.eq, h.sel, h.memByte⟩
    refine ⟨?_, ?_⟩
    · intro as hlen ha hanswers kept
      obtain ⟨u, hexec, hprobed⟩ := execProbeAll_answered hq hok.2 hlen ha hanswers
      exact ⟨u, hexec, hleft hprobed, hprobed.after⟩
    · intro pre e post as hr hlen ha f hf hsel hsupplied kept
      obtain ⟨u, hexec, hprobed⟩ := execProbeAll_fails hq hsel hok.2 hr hlen ha hf hsupplied
      exact ⟨u, hexec, hleft hprobed, hprobed.after⟩
  · intro s t hok hb hreset h
    obtain ⟨v, hpass, hover, hreported⟩ := execProbeAll_ends hok.2 hb hreset h
    refine ⟨hover, ?_⟩
    rcases hpass with ⟨l, hl, hreg, rfl⟩ | ⟨c, pre, e, post, l, hc, hr, hl, hreg, rfl⟩
    · obtain ⟨herr, hres, hres1⟩ := hreported
      rw [List.nil_append] at hreg hres1
      rw [Nat.zero_add] at hres
      exact .inl ⟨herr, hreg ▸ hl, hreg ▸ hres, hreg ▸ hres1⟩
    · obtain ⟨herr, hres, hres1⟩ := hreported
      rw [Nat.zero_add] at hres1
      exact .inr ⟨herr ▸ hc, hres, pre, e, post, l, hr, hl, hreg, hres1⟩

end Sys2Proof.Machine
end

section
/-!
PROOFS. A running command is over after at most eight steps (R128, R146). Every step of it ends the command or reads a
frame for the engine; a `TRANSCEIVE` enters the engine with no retry used at level 0, and every turn after it uses a
retry or goes up a level, of which there are five and one.
-/

namespace Sys2Proof.Machine

/-- The retries used and the levels gone up in the exchange, of six (R119, R122). -/
def State.progress (s : State) : Nat := s.r + s.level

/-- A step of a running command: it ends the command, or a frame has been read, with more progress than before where
one had been read before. -/
def Proceeds (s t : State) : Prop :=
  t.seq = .idle ∨ (∃ n, t.seq = .received n) ∧ ∀ m, s.seq = .received m → s.level ≤ 1 → s.progress < t.progress

/-- R113: the turn of the engine that has read another frame has made progress. -/
theorem Outcome.progress {i : Instr} (hi : i.format = .pcb) {s t : State} {n : Nat} (h : Outcome i s (.received n) t)
    (hlevel : s.level ≤ 1) : s.progress < t.progress := by
  obtain ⟨-, -, hturned⟩ := h
  cases i with
  | pcbI _ | pcbIChained _ | pcbR _ | pcbSWtx =>
    obtain ⟨-, -, hprogress, -⟩ := hturned
    exact hprogress hlevel
  | _ => cases hi

/-- How a run ends a step, if what it leaves where it has read a frame has made progress. -/
theorem RunEnd.proceeds {P : State → After → State → Prop} {E : State → ErrCode → State → Prop} {s u : State}
    (h : RunEnd P E s u)
    (hp : ∀ t v n m, Ran s t → P t (.received n) v → s.seq = .received m → s.level ≤ 1 → s.progress < v.progress) :
    Proceeds s u := by
  cases h with
  | complete t v w c res res1 first sel run last sel' how eq => exact .inl (by rw [eq]; rfl)
  | received t v n first sel run how eq =>
    subst eq
    exact .inr ⟨⟨n, rfl⟩, fun m => hp t v n m first how⟩
  | cut how => exact .inl how.fields.2.2.1

/-- The run of a control byte's meaning, or of a command where no frame has been read. -/
theorem exec_proceeds {i : Instr} {s u : State} (hb : s.busy = true) (h : exec i s = .next u)
    (hi : i.format = .pcb ∨ s.seq = .start) : Proceeds s u := by
  refine (exec_ends (.inl hb) h).proceeds fun t v n m ht hout hseq hlevel => ?_
  have hpcb : i.format = .pcb := hi.resolve_right (by simp [hseq])
  have hsame : t.progress = s.progress := ht.field State.progress fun _ => rfl
  rw [← hsame]
  exact hout.progress hpcb ((ht.field State.level fun _ => rfl).trans_le hlevel)

/-- In a state that meets the invariant an instruction for its place answers a next state (log entry 10). -/
theorem exec_next {s : State} (h : Inv s) (hb : s.busy = true) {i : Instr}
    (hi : i.format = .cmd ∨ ∃ n, s.seq = .received n) : ∃ u, exec i s = .next u := by
  rcases exec_cases i (.inl hb) with ⟨body, hexec, -⟩ | ⟨hpcb, hnone, -⟩
  · exact ⟨_, hexec⟩
  · rcases hi with hcmd | ⟨n, hseq⟩
    · rw [hpcb] at hcmd
      cases hcmd
    · obtain ⟨e, he⟩ := Option.isSome_iff_exists.mp (h.engine n hseq).target
      rw [exchange?_of_received hseq he] at hnone
      cases hnone

/-- Every step of a running command ends it or makes progress. -/
theorem step_proceeds {s : State} (h : Inv s) (hb : s.busy = true) : ∃ t, step s = .next t ∧ Proceeds s t := by
  have hs : s.seq ≠ .idle := h.busy.mp hb
  cases hf : fetch s with
  | some i =>
    rw [step_fetched hs hf]
    have hplace := fetch_some hf
    obtain ⟨u, hu⟩ := exec_next h hb (hplace.imp (fun hstart => hstart.2.1) fun hrecv => hrecv.1)
    exact ⟨u, hu, exec_proceeds hb hu (hplace.symm.imp (fun hrecv => hrecv.2) fun hstart => hstart.1)⟩
  | none =>
    rw [step_unfetched hs hf]
    cases hseq : s.seq with
    | idle => exact absurd hseq hs
    | start =>
      rw [noInstruction_start hseq]
      have hrun : RunEnd (fun _ _ _ => False) (fun _ _ _ => True) s (runCommand (Op.raise .badCmd) s) :=
        runCommand_cases (.inl hb) fun t _ => ⟨Worked.refl t, trivial⟩
      exact ⟨_, rfl, hrun.proceeds fun _ _ _ _ _ hnot => hnot.elim⟩
    | received n =>
      have hunknown : noInstruction s = exec (.pcbR false) s := by
        rw [noInstruction, hseq]
        exact unknownPcb_eq s
      rw [hunknown]
      obtain ⟨u, hu⟩ := exec_next h hb (i := .pcbR false) (.inr ⟨n, hseq⟩)
      exact ⟨u, hu, exec_proceeds hb hu (.inl rfl)⟩

/-- From `s` the command is over after at most `k` steps. -/
def EndsWithin (k : Nat) (s : State) : Prop := ∃ n ≤ k, ∃ t, stepN n s = some t ∧ t.busy = false ∧ t.seq = .idle

theorem EndsWithin.of_step {s t : State} {k : Nat} (h : EndsWithin k t) (hstep : step s = .next t) :
    EndsWithin (k + 1) s := by
  obtain ⟨n, hn, u, hu, hover⟩ := h
  exact ⟨n + 1, Nat.succ_le_succ hn, u, (stepN_succ hstep n).trans hu, hover⟩

/-- R30: where the sequencer is idle the command is over. -/
theorem Inv.endsWithin_idle {s : State} (h : Inv s) (hs : s.seq = .idle) (k : Nat) : EndsWithin k s :=
  ⟨0, Nat.zero_le k, s, rfl, by simpa [hs] using h.busy, hs⟩

/-- R128: the engine ends the exchange after at most the turns that its retries and levels leave, and one. -/
theorem Inv.received_endsWithin {s : State} (k : Nat) (h : Inv s) {n : Nat} (hs : s.seq = .received n)
    (hk : 7 ≤ s.progress + k) : EndsWithin k s := by
  induction k generalizing s n with
  | zero =>
    obtain ⟨-, hr, hlevel, -⟩ := h.counters
    simp only [State.progress, Config.retryMax] at hk hr
    omega
  | succ k ih =>
    obtain ⟨t, hstep, hproceeds⟩ := step_proceeds h (h.busy.mpr (by simp [hs]))
    have ht : Inv t := stepKeepsInvariant s t h hstep
    refine EndsWithin.of_step ?_ hstep
    rcases hproceeds with hidle | ⟨⟨m, hseq⟩, hprogress⟩
    · exact ht.endsWithin_idle hidle k
    · have hmore := hprogress n hs h.counters.2.2.1
      exact ih ht hseq (by omega)

/-- Settles O58: a command that begins ends at once or enters the engine, which is over after seven more steps. -/
theorem commandsEnd : Obligations.CommandsEnd := by
  intro s h hb
  show EndsWithin 8 s
  obtain ⟨t, hstep, hproceeds⟩ := step_proceeds h hb
  have ht : Inv t := stepKeepsInvariant s t h hstep
  refine EndsWithin.of_step ?_ hstep
  rcases hproceeds with hidle | ⟨⟨n, hseq⟩, -⟩
  · exact ht.endsWithin_idle hidle 7
  · exact ht.received_endsWithin 7 hseq (Nat.le_add_left 7 _)

end Sys2Proof.Machine
end

section
/-!
PROOFS. The registry commands (R133 to R137): what looking up an entry, its index and the lowest free number come to in
terms of the entries themselves, and the four commands. None uses the bus.
-/

namespace Sys2Proof.Machine

/-! ## Looking up the registry -/

/-- R136, R137: the look-up fails exactly where no entry has the number. -/
theorem State.target?_eq_none {s : State} {tn : Byte} : s.target? tn = none ↔ ∀ e ∈ s.registry, e.tn ≠ tn := by
  simp [State.target?]

/-- R135: the look-up succeeds exactly where an entry has the number. -/
theorem State.isSome_target? {s : State} {tn : Byte} : (s.target? tn).isSome = true ↔ ∃ e ∈ s.registry, e.tn = tn := by
  simp [State.target?]

/-- R133: the lowest free number is the one in 1..14 that no entry holds while every smaller one is held. -/
theorem State.lowestFree_eq_some {s : State} {n : Nat} :
    s.lowestFree = some n ↔ (1 ≤ n ∧ n ≤ 14) ∧ (¬ ∃ e ∈ s.registry, e.tn.toNat = n) ∧
      ∀ m, 1 ≤ m → m < n → ∃ e ∈ s.registry, e.tn.toNat = m := by
  have hrange : 1 ≤ n ∧ n < 1 + 14 ↔ 1 ≤ n ∧ n ≤ 14 := by omega
  simp [State.lowestFree, Config.nTargets, List.find?_range'_eq_some, List.mem_range'_1, hrange, and_left_comm]

/-- R133: no number is free exactly where all of 1..14 are held. -/
theorem State.lowestFree_eq_none {s : State} :
    s.lowestFree = none ↔ ∀ n, 1 ≤ n → n ≤ 14 → ∃ e ∈ s.registry, e.tn.toNat = n := by
  simp [State.lowestFree, Config.nTargets, Nat.lt_succ_iff]

/-- R27: no other entry has the number of an entry. -/
theorem registryOk.others_ne {pre post : List Target} {e : Target} (h : registryOk (pre ++ e :: post)) :
    ∀ x ∈ pre ++ post, x.tn ≠ e.tn := by
  have hnodup : (e.tn :: (pre ++ post).map Target.tn).Nodup := by
    rw [List.map_append, ← List.nodup_middle]
    simpa using h.2
  exact fun x hx hxe => (List.nodup_cons.mp hnodup).1 (hxe ▸ List.mem_map_of_mem hx)

section
variable {s : State} {pre post : List Target} {e : Target}

/-- R137: the look-up finds the first entry that has the number. -/
theorem State.target?_eq_some_of_split (hr : s.registry = pre ++ e :: post) (hpre : ∀ x ∈ pre, x.tn ≠ e.tn) :
    s.target? e.tn = some e :=
  List.find?_eq_some_iff_append.mpr ⟨beq_self_eq_true e.tn, pre, post, hr, fun x hx => by simpa using hpre x hx⟩

/-- R137: the index of the first entry that has the number is the count of the entries before it. -/
theorem State.targetIndex_of_split (hr : s.registry = pre ++ e :: post) (hpre : ∀ x ∈ pre, x.tn ≠ e.tn) :
    s.targetIndex e.tn = pre.length := by
  have hskip : pre.findIdx (fun x => x.tn == e.tn) = pre.length :=
    List.findIdx_eq_length.mpr fun x hx => beq_eq_false_iff_ne.mpr (hpre x hx)
  simp [State.targetIndex, hr, List.findIdx_append, hskip, List.findIdx_cons]

/-- R27, R136: where no other entry has its number, an entry's removal takes it out and keeps the order of the rest. -/
theorem State.removeTarget_of_split (hr : s.registry = pre ++ e :: post) (ho : ∀ x ∈ pre ++ post, x.tn ≠ e.tn) :
    s.removeTarget e.tn = { s with registry := pre ++ post } := by
  have hkept : (pre ++ post).filter (fun x => x.tn != e.tn) = pre ++ post :=
    List.filter_eq_self.mpr fun x hx => bne_iff_ne.mpr (ho x hx)
  rw [State.removeTarget, hr, List.filter_append, List.filter_cons_of_neg (by simp), ← List.filter_append, hkept]

end

/-! ## `TGT_ALLOC` and `TGT_INSTALL` -/

/-- Settles O45: by what the lowest free number is. -/
theorem allocResult : Obligations.AllocResult := by
  intro s hq held
  refine ⟨fun n h1 h14 hfree hbelow => ?_, fun hall => ?_⟩
  · have hlow : s.lowestFree = some n := State.lowestFree_eq_some.mpr ⟨⟨h1, h14⟩, hfree, hbelow⟩
    exact command_done hq (by simp only [hlow]) hq
  · have hlow : s.lowestFree = none := State.lowestFree_eq_none.mpr hall
    exact command_err hq (by simp only [hlow]) hq

/-- Settles O46: by the check that fails, the range before the duplicate; else the new entry is appended. -/
theorem installResult : Obligations.InstallResult := by
  intro s hq tn
  have hrange : 1 ≤ tn.toNat → tn.toNat ≤ 14 → ¬ (tn.toNat < 1 ∨ tn.toNat > Config.nTargets) := by
    simp only [Config.nTargets]
    omega
  refine ⟨fun hbad => ?_, fun h1 h14 hdup => ?_, fun h1 h14 hnew => ?_⟩
  · have hout : tn.toNat < 1 ∨ tn.toNat > Config.nTargets := hbad.imp Nat.lt_one_iff.mpr id
    exact command_err hq (if_pos hout) hq
  · exact command_err hq ((if_neg (hrange h1 h14)).trans (if_pos (State.isSome_target?.mpr hdup))) hq
  · have hnone : ¬ (s.target? tn).isSome = true := by simp [State.target?_eq_none.mpr hnew]
    exact command_done hq ((if_neg (hrange h1 h14)).trans (if_neg hnone)) hq

/-! ## `TGT_REMOVE` and `TGT_READ` -/

/-- Settles O47: the number no entry has, and the removal of the one entry that has it. -/
theorem removeResult : Obligations.RemoveResult := by
  intro s hq
  refine ⟨fun hnew => ?_, fun pre e post hr htn hok => ?_⟩
  · have hnone : s.target? s.operandByte = none := State.target?_eq_none.mpr hnew
    exact command_err hq (by simp [hnone]) hq
  · have hothers := (hr ▸ hok).others_ne
    have hsome := State.target?_eq_some_of_split hr fun x hx => hothers x (List.mem_append_left _ hx)
    have hremoved := State.removeTarget_of_split hr hothers
    rw [htn] at hsome hremoved
    exact command_done hq (by simp [hsome, hremoved]) hq

/-- R137: `RESULT1` of `TGT_READ`, with the mark in bit 8. -/
theorem targetWord_eq (e : Target) (i : Nat) :
    targetWord e i = e.tn.setWidth 32 ||| (if e.mark then 0x100#32 else 0#32) ||| (BitVec.ofNat 32 i <<< 16) := by
  rw [targetWord]
  cases e.mark <;> rfl

/-- R137: `TGT_READ` of the first entry that has the number. -/
theorem execTgtRead_found {s : State} {pre post : List Target} {e : Target} (hq : s.quiet = true)
    (hr : s.registry = pre ++ e :: post) (htn : e.tn = s.operandByte) (hpre : ∀ x ∈ pre, x.tn ≠ e.tn) :
    exec .tgtRead s =
      .next (((s.storeRx 0 e.uid).storeRx 4 e.atqb).complete .ok e.fwt (targetWord e pre.length)) := by
  have hsome := State.target?_eq_some_of_split hr hpre
  have hindex := State.targetIndex_of_split hr hpre
  rw [htn] at hsome hindex
  exact command_done hq (by simp only [hsome, hindex]) hq

/-- R137: the uid and the attribute bytes, stored one after the other, are one block of 16 bytes. -/
theorem rxStored_target {s t : State} {e : Target} (hok : e.ok = true)
    (hm : t.mem = ((s.storeRx 0 e.uid).storeRx 4 e.atqb).mem) (he : t.env.epoch = s.env.epoch) :
    rxStored s t 0 (e.uid ++ e.atqb) := by
  simp only [Target.ok, decide_eq_true_eq] at hok
  obtain ⟨-, -, huid, -⟩ := hok
  have huidStored : rxStored s (s.storeRx 0 e.uid) 0 e.uid := .of rfl rfl
  have hatqbStored : rxStored (s.storeRx 0 e.uid) t (0 + e.uid.length) e.atqb := by
    rw [huid]
    exact .of hm he
  exact huidStored.append hatqbStored

/-- Settles O48: the number no entry has, and the fields of the one entry that has it. -/
theorem targetReadResult : Obligations.TargetReadResult := by
  intro s hq
  refine ⟨fun hnew => ?_, fun pre e post hr htn hok => ?_⟩
  · have hnone : s.target? s.operandByte = none := State.target?_eq_none.mpr hnew
    exact command_err hq (by simp only [hnone]) hq
  · have hothers := (hr ▸ hok).others_ne
    have hmem : e ∈ s.registry := by simp [hr]
    have hread := execTgtRead_found hq hr htn fun x hx => hothers x (List.mem_append_left _ hx)
    rw [← targetWord_eq]
    exact ⟨_, hread, rfl, rxStored_target (hok.1 e hmem) rfl rfl, State.frameByte_congr rfl rfl⟩

end Sys2Proof.Machine
end

section
/-!
PROOFS. The life cycle of a command (R140 to R150): its acceptance, the step that runs it, how it ends and with which
error codes, the errors detected before any state changes, and the interrupt its completion raises.
-/

namespace Sys2Proof.Machine

/-! ## How an instruction ends -/

/-- R21, R24, R141: a run leaves the command's code, its operands and their snapshot, `CTRL`, `rst_n` and the
parameters. -/
theorem Worked.keepsCommand {s t : State} (h : Worked s t) :
    t.opc = s.opc ∧ t.arg = s.arg ∧ t.a = s.a ∧ t.crcEn = s.crcEn ∧ t.ie = s.ie ∧ t.rstn = s.rstn ∧ t.cfg = s.cfg :=
  ⟨h.field State.opc fun _ => rfl, h.field State.arg fun _ => rfl, h.field State.a fun _ => rfl,
    h.field State.crcEn fun _ => rfl, h.field State.ie fun _ => rfl, h.field State.rstn fun _ => rfl,
    h.field State.cfg fun _ => rfl⟩

/-- R24, R142, R147: a completion is normal, or its code is one of the instruction's, with −1 in `RESULT` and, but for
`PROBE_ALL`, 0 in `RESULT1`. -/
theorem completion_reports {i : Instr} {s t : State} {c : ErrCode} {res res1 : Word}
    (how : (c = .ok ∧ Outcome i s (.done res res1) t) ∨ (res = failResult ∧ Outcome i s (.failed c res1) t) ∨
      (res = failResult ∧ res1 = 0#32 ∧ Failure i s c t)) :
    c = .ok ∨ c ∈ errorsOf i ∧ res = failResult ∧ (i ≠ .probeAll → res1 = 0#32) := by
  rcases how with ⟨hok, -⟩ | ⟨hres, -, rfl, hc, -⟩ | ⟨hres, hres1, hc, -⟩
  · exact .inl hok
  · exact .inr ⟨ErrCode.mem_of_transport hc (by decide), hres, fun hne => absurd rfl hne⟩
  · exact .inr ⟨hc, hres, fun _ => hres1⟩

/-- Settles O49: the completion of the run, or the frame that the engine has read; with no reset in store it is not cut
off. -/
theorem instructionEnds : Obligations.InstructionEnds := by
  intro i s u hb hn h
  cases exec_ends (.inl hb) h with
  | complete t v w c res res1 first sel run last sel' how eq =>
    subst eq
    have hrun : Worked s w := ((first.worked sel).trans run).trans (last.worked sel')
    obtain ⟨hopc, harg, ha, hcrc, hie, hrstn, hcfg⟩ := hrun.keepsCommand
    refine ⟨hopc, harg, ha, hcrc, hie, hrstn, hcfg, .inl ⟨rfl, rfl, rfl, fun herr => ?_⟩⟩
    obtain ⟨-, hres, hres1⟩ := (completion_reports how).resolve_left herr
    exact ⟨hres, hres1⟩
  | received t v n first sel run how eq =>
    subst eq
    have hrun : Worked s v := (first.worked sel).trans run
    obtain ⟨hopc, harg, ha, hcrc, hie, hrstn, hcfg⟩ := hrun.keepsCommand
    have hengine : i = .transceive ∨ i.format = .pcb := how.received_estate.1.symm.imp_left And.left
    exact ⟨hopc, harg, ha, hcrc, hie, hrstn, hcfg, .inr ⟨hengine, hrun.world.busy.trans hb,
      hrun.field State.err fun _ => rfl, hrun.field State.result fun _ => rfl, hrun.field State.result1 fun _ => rfl,
      n, how.2.1, rfl⟩⟩
  | cut how => exact (how.noReset hn).elim

/-- Settles O50: of the three ends of a run the completion alone is complete, and its code is the instruction's. -/
theorem errorCodes : Obligations.ErrorCodes := by
  intro i s u hb h hover
  cases exec_ends (.inl hb) h with
  | complete t v w c res res1 first sel run last sel' how eq =>
    subst eq
    exact (completion_reports how).imp_right And.left
  | received t v n first sel run how eq =>
    subst eq
    simp [State.completed] at hover
  | cut how =>
    obtain ⟨-, -, -, hdone⟩ := how.fields
    simp [State.completed, hdone] at hover

/-- R148: the errors of class 1, 3 and 4 are those detected early. -/
theorem ErrCode.isEarly_iff {c : ErrCode} :
    c.isEarly = true ↔ c.errClass = 1#4 ∨ c.errClass = 3#4 ∨ c.errClass = 4#4 := by
  simp [ErrCode.isEarly, or_assoc]

/-- R149: with a quiet host a run that completes with an early error has done nothing before its completion. -/
theorem exec_early {i : Instr} {s u : State} (hq : s.quiet = true) (h : exec i s = .next u) (hover : u.completed = true)
    (hearly : u.err.isEarly = true) : u = s.completeError u.err 0#32 := by
  rcases exec_cases i (.inr hq) with ⟨body, hexec, hworks⟩ | ⟨-, -, hfault⟩
  · have hbody := hworks s (Ran.refl s)
    rw [hexec] at h
    cases hrun : body s with
    | ok after v =>
      rw [hrun] at hbody
      obtain ⟨hworked, hout⟩ := hbody
      have hquiet : v.quiet = true := hworked.world.quiet hq
      cases after with
      | done res res1 =>
        obtain rfl := Host.Outcome.next.inj ((command_done hq hrun hquiet).symm.trans h)
        exact absurd hearly (by decide : ErrCode.ok.isEarly ≠ true)
      | failed c res1 =>
        obtain rfl := Host.Outcome.next.inj ((command_failed hq hrun hquiet).symm.trans h)
        obtain ⟨-, -, hc, -⟩ := hout
        exact absurd hearly (ErrCode.not_early (.inl hc))
      | received n =>
        obtain rfl := Host.Outcome.next.inj ((command_received hq hrun hquiet).symm.trans h)
        simp [State.completed] at hover
    | err c v =>
      rw [hrun] at hbody
      obtain ⟨hworked, -, -, hsame, -⟩ := hbody
      obtain rfl := Host.Outcome.next.inj ((command_err hq hrun (hworked.world.quiet hq)).symm.trans h)
      rw [hsame hearly]
      rfl
    | cut v =>
      rw [hrun] at hbody
      exact absurd hq (by simp [hbody.2.2])
  · rw [hfault] at h
    cases h

/-- Settles O51. -/
theorem earlyErrors : Obligations.EarlyErrors :=
  fun _ _ _ hq h hover hclass => exec_early hq h hover (ErrCode.isEarly_iff.mpr hclass)

/-! ## The step that runs an instruction -/

/-- R140: a command's byte is placed as a write of `CMD` places it. -/
theorem State.placeByte_cmd {i : Instr} (hi : i.format = .cmd) (s : State) :
    s.placeByte (encode i) = s.accept (encode i) := by
  obtain ⟨hopc, -, -⟩ := roundTrip i
  rw [hi] at hopc
  have hopc : accepted (decodeOpc (encode i)) = some i := hopc
  simp only [State.placeByte, hopc]

/-- R113: a control byte is placed in the frame of an exchange. -/
theorem State.placeByte_pcb {i : Instr} (hi : i.format = .pcb) (s : State) :
    s.placeByte (encode i) = s.inExchange (encode i) := by
  obtain ⟨hpcb, hopc, -⟩ := roundTrip i
  rw [hi] at hpcb hopc
  have hpcb : accepted (decodePcb (encode i)) = some i := hpcb
  have hopc : accepted (decodeOpc (encode i)) = none := hopc
  simp only [State.placeByte, hpcb, hopc]

theorem State.withFetchWord_encode (i : Instr) (s : State) :
    s.withFetchWord 8 (encode i).toNat = s.placeByte (encode i) := by
  rw [State.withFetchWord, Nat.mod_eq_of_lt (encode i).isLt, BitVec.ofNat_toNat, BitVec.setWidth_eq]

theorem State.inExchange_fields (b : Byte) (s : State) :
    (s.inExchange b).seq = .received 3 ∧ (s.inExchange b).frameByte 0 = b :=
  ⟨rfl, by simp [State.inExchange, State.frameByte_storeFrame]⟩

/-- Where a byte is placed, the instruction it encodes is fetched. -/
theorem fetch_placeByte (i : Instr) (s : State) :
    (s.placeByte (encode i)).seq ≠ .idle ∧ fetch (s.placeByte (encode i)) = some i := by
  have hdecode := decode_encode i
  cases hi : i.format with
  | cmd =>
    rw [hi] at hdecode
    rw [State.placeByte_cmd hi]
    exact ⟨by simp, (fetch_start rfl).trans (accepted_eq_some.mpr hdecode)⟩
  | pcb =>
    rw [hi] at hdecode
    rw [State.placeByte_pcb hi]
    obtain ⟨hseq, hbyte⟩ := s.inExchange_fields (encode i)
    refine ⟨by simp [hseq], ?_⟩
    rw [fetch_received hseq, hbyte]
    exact accepted_eq_some.mpr hdecode

/-- Settles O6: the byte placed is the one fetched. -/
theorem placedByteRuns : Obligations.PlacedByteRuns := by
  intro i s
  rw [State.withFetchWord_encode]
  obtain ⟨hseq, hfetch⟩ := fetch_placeByte i s
  exact step_fetched hseq hfetch

/-- Settles O57: the host side's turn while no command runs, else a step of the running command. -/
theorem stepNeverStops : Obligations.StepNeverStops := by
  intro s h
  by_cases hs : s.seq = .idle
  · exact ⟨_, step_idle hs⟩
  · obtain ⟨t, hstep, -⟩ := step_proceeds h (h.busy.mpr hs)
    exact ⟨t, hstep⟩

/-! ## Acceptance and interrupt -/

/-- Settles O14: the write of `CMD` is taken while `BUSY` = 0, and discarded while `BUSY` = 1. -/
theorem acceptsCommand : Obligations.AcceptsCommand := by
  intro s v hr
  rw [State.hostAccess_write hr (by decide)]
  refine ⟨fun hb => ?_, fun hb => ?_⟩
  · rw [State.hostWrite_register hb (by decide)]
    rfl
  · rw [State.hostWrite_discarded hb (.inl (by decide))]
    rfl

/-- R144, R150: an acknowledgement of the completion drops `irq`. -/
theorem State.irq_writeStatus {v : Word} (hv : v.getLsbD 1 = true) (s : State) : (s.writeStatus v).irq = false := by
  simp [State.irq, State.writeStatus, hv]

/-- Settles O15: each of the four by what it leaves in `DONE` and `IE`. -/
theorem interruptFollowsDone : Obligations.InterruptFollowsDone := by
  intro s
  refine ⟨rfl, fun c res res1 => by simp [State.irq], fun opc => by simp [State.irq], fun v hv => ?_, fun v hb => ?_⟩
  · exact ⟨s.irq_writeStatus hv, rfl, rfl, rfl⟩
  · rw [State.hostWrite_register hb (by decide)]
    exact ⟨rfl, rfl⟩

end Sys2Proof.Machine
end

section
/-!
PROOFS. Reset (R155 to R157): what a level of `rst_n` does while no command runs, what the block holds and answers while
`rst_n` = 0, and what a reset leaves of a command it cuts off. What is held comes from the invariant (`Inv.held`); how a
run that a reset may cut off ends comes from `exec_ends`.
-/

namespace Sys2Proof.Machine

/-! ## The level of `rst_n` -/

/-- R155: a high level releases the reset. -/
@[simp] theorem State.driveReset_high (s : State) : s.driveReset true = { s with rstn := true } := rfl

/-- R155: a low level resets the block. -/
theorem State.driveReset_low {s : State} (hr : s.rstn = true) : s.driveReset false = s.assertReset := by
  simp only [State.driveReset, hr, if_true, Bool.false_eq_true, if_false]

/-- R155: a low level already taken is held. -/
theorem State.driveReset_held {s : State} (hr : s.rstn = false) : s.driveReset false = s := by
  simp only [State.driveReset, hr, Bool.false_eq_true, if_false]

/-- R157: where select is deasserted a reset puts nothing on the bus. -/
theorem State.assertReset_env {s : State} (hsel : s.sel = false) :
    s.assertReset.env = { s.env with epoch := s.env.epoch + 1 } := by
  simp only [State.assertReset, hsel, Bool.false_eq_true, if_false]

/-! ## While `rst_n` = 0 -/

/-- R155: while `rst_n` = 0 a write is answered and ignored, and one at a misaligned offset gets the bus error. -/
theorem State.hostAccess_write_held {s : State} (hr : s.rstn = false) (off : BitVec 12) (v : Word) :
    s.hostAccess { op := .write v, off := off } = s.reply (if off.toNat % 4 = 0 then .wrote else .busError) := by
  by_cases h : off.toNat % 4 = 0
  · rw [State.hostAccess, if_pos ((HostAccess.wellFormed_iff _).mpr ⟨rfl, h⟩), if_pos h]
    simp only [hr, Bool.false_eq_true, if_false]
  · rw [s.hostAccess_illFormed (.inr h), if_neg h]

/-- R35: the words of the nine registers. -/
def State.registerWords (s : State) : List Word :=
  [s.ctrlWord, s.opc.setWidth 32, s.arg.w0, s.arg.w1, s.arg.w2, s.arg.w3, s.statusWord, s.result, s.result1]

/-- R35: below the buffers a read answers the word of a register, or 0. -/
theorem State.hostRead_low (s : State) {off : Nat} (h : off < 0x400) :
    s.hostRead off ∈ s.registerWords ∨ s.hostRead off = 0#32 := by
  by_cases hreserved : 0x024 ≤ off
  · exact .inr (s.hostRead_reserved (.inl ⟨hreserved, h⟩))
  · have htx : ¬ (Config.txBase ≤ off ∧ off < Config.txBase + Config.bufSize) := fun hoff =>
      absurd hoff.1 (Nat.not_le.mpr h)
    have hrx : ¬ rxOffset off = true := by
      rw [rxOffset_iff]
      omega
    rw [State.hostRead, if_neg htx, if_neg hrx]
    repeat' split
    all_goals simp [State.registerWords]

/-- R156: the registers all hold 0 after reset. -/
theorem State.registerWords_reset : State.reset.registerWords = List.replicate 9 0#32 := rfl

/-- R155: while `rst_n` = 0 they hold what they hold after reset. -/
theorem Inv.registerWords_held {s : State} (h : Inv s) (hr : s.rstn = false) :
    s.registerWords = List.replicate 9 0#32 :=
  (congrArg State.registerWords (h.held hr)).trans State.registerWords_reset

/-- R155: while `rst_n` = 0 every register, and every reserved offset below the buffers, reads 0. -/
theorem Inv.hostRead_held {s : State} (h : Inv s) (hr : s.rstn = false) {off : Nat} (hoff : off < 0x400) :
    s.hostRead off = 0#32 := by
  have hread := s.hostRead_low hoff
  rw [h.registerWords_held hr] at hread
  exact hread.elim List.eq_of_mem_replicate id

/-- Settles O9: a low level by whether it has already been taken, what is held by the invariant. -/
theorem resetInput : Obligations.ResetInput := by
  intro s
  refine ⟨fun hr => ⟨_, State.driveReset_low hr, rfl, rfl, rfl⟩, fun h hr => ?_, s.driveReset_high, fun h hr => ?_⟩
  · exact ⟨State.hostAccess_write_held hr, fun off hoff => h.hostRead_held hr hoff, State.driveReset_held hr⟩
  · have hheld := h.held hr
    exact ⟨congrArg State.busy hheld, congrArg State.seq hheld⟩

/-! ## A reset in a run -/

/-- R157: a reset that is the host side's next event cuts the sequencer off before its next operation. -/
theorem hostSlot_reset {s : State} {es : List HostEvent} (h : s.env.host = .rst false :: es) :
    hostSlot s = .cut (s.assertReset.withHost es) := by
  rw [hostSlot, h, land]

/-- R157: a run that a reset comes before leaves the reset state, whatever it would have done. -/
theorem runCommand_reset {s : State} {es : List HostEvent} (h : s.env.host = .rst false :: es) (body : Op After) :
    runCommand body s = s.assertReset.withHost es := by
  rw [runCommand, Op.andThen, Op.bind_cut (hostSlot_reset h)]

/-- An instruction for its place is a run of the sequencer (log entry 10). -/
theorem exec_runs {i : Instr} {s : State} (hs : s.steady) (hi : i.format = .cmd ∨ s.exchange?.isSome = true) :
    ∃ body, exec i s = .next (runCommand body s) := by
  rcases exec_cases i hs with ⟨body, hexec, -⟩ | ⟨hpcb, hnone, -⟩
  · exact ⟨body, hexec⟩
  · rcases hi with hcmd | hsome
    · rw [hpcb] at hcmd
      cases hcmd
    · rw [hnone] at hsome
      cases hsome

/-- R74, R157: a run that is not cut off keeps `rst_n`, and leaves select deasserted if it was. -/
theorem Worked.keepsPins {s t : State} (h : Worked s t) (hsel : s.sel = false) : t.rstn = s.rstn ∧ t.sel = false :=
  ⟨h.field State.rstn fun _ => rfl, h.world.sel hsel⟩

/-- Settles O10: the three ends of a run, of which the third is the reset's; and a reset that comes first comes before
the run's first operation. -/
theorem resetAbandons : Obligations.ResetAbandons := by
  intro i s hb hsel
  refine ⟨fun u hexec => ?_, fun es hhost hi => ?_⟩
  · cases exec_ends (.inl hb) hexec with
    | complete t v w c res res1 first sel run last sel' how eq =>
      subst eq
      obtain ⟨hrstn, hreleased⟩ := (((first.worked sel).trans run).trans (last.worked sel')).keepsPins hsel
      exact .inl ⟨hrstn, hreleased, .inl rfl⟩
    | received t v n first sel run how eq =>
      subst eq
      obtain ⟨hrstn, hreleased⟩ := ((first.worked sel).trans run).keepsPins hsel
      exact .inl ⟨hrstn, hreleased, .inr ⟨n, rfl⟩⟩
    | cut how =>
      obtain ⟨hreset, hstored, -⟩ := how
      refine .inr ⟨?_, hstored⟩
      rw [hreset]
  · obtain ⟨body, hexec⟩ := exec_runs (.inl hb) hi
    rw [runCommand_reset hhost] at hexec
    refine ⟨_, hexec, rfl, ?_⟩
    show { s.assertReset.env with host := es } = _
    rw [State.assertReset_env hsel]

end Sys2Proof.Machine
end
